-- ==== Sys2Proof/Word.lean ====
section
/-! DEFINITION. The word types of HUFFCORE (spec 00_scope.md R7, R11). -/

namespace Sys2Proof

/-- A 32-bit value: a command word (R90), a length register, `ERR_INFO` (R7, `LW = 32`). -/
abbrev Word := BitVec 32

/-- An 8-bit value: a symbol (R6), an element of `SYM` or `BYTE`, `ERR_CODE`. -/
abbrev Byte := BitVec 8

/-- A 9-bit value: a node index, a child link, a queue tag, a queue count or capacity (R29, R31, R37, R120). -/
abbrev Link := BitVec 9

/-- `NIL = 511`: the link value that means "no child" and is no node index (R7). -/
abbrev nil9 : Link := 511

end Sys2Proof
end

