-- ==== Sys2Proof/Config.lean ====
section
/-! DEFINITION. What an implementation fixes (the parameters of spec 00_scope.md R7), the fixed sizes, and the
free values of R18. -/

namespace Sys2Proof

/-- The four parameters of R7 (marked *param* there; 92_eei_decisions.md D2, D4). -/
structure Params where
  /-- `FW`: width in bits of one frequency-table count. -/
  fw : Nat
  /-- `SYM_CAP`: elements of the symbol buffer. -/
  symCap : Nat
  /-- `BIT_CAP`: elements of the bit buffer. -/
  bitCap : Nat
  /-- `BYTE_CAP`: elements of the byte buffer. -/
  byteCap : Nat
deriving DecidableEq, Repr

namespace Params

/-- The defaults of R7. -/
def default : Params := ⟨32, 65536, 524288, 65536⟩

/-- `NFW = FW + 8`: width of a node's frequency and of a queue key (R7, R8). -/
abbrev nfw (p : Params) : Nat := p.fw + 8

/-- The constraints in the last column of R7. -/
abbrev ok (p : Params) : Prop :=
  1 ≤ p.fw ∧ (1 ≤ p.symCap ∧ p.symCap < 2 ^ p.fw ∧ p.symCap < 2 ^ 31) ∧
  (1 ≤ p.bitCap ∧ p.bitCap < 2 ^ 31) ∧ (1 ≤ p.byteCap ∧ p.byteCap < 2 ^ 28)

end Params

namespace Config

/-- `ALPHABET` (R6, R7). -/
abbrev alphabet : Nat := 256

/-- `NODE_MAX`: number of node slots (R7). -/
abbrev nodeMax : Nat := 511

/-- `PQ_DEPTH`: physical entries of the priority queue (R7). -/
abbrev pqDepth : Nat := 256

/-- Number of CSRs (R22). -/
abbrev csrCount : Nat := 18

/-- The constant `ID` register (R33). -/
abbrev idWord : Word := 0x48433100

/-- `draw` of R18: the `k`-th free value. It has no body, so nothing can be proved of its values; a use takes as many
low bits as the value it stands for is wide. `State.draws` counts the ones used (log 4). -/
opaque draw : Nat → Nat

end Config

end Sys2Proof
end

