-- ==== Sys2Proof/Machine/Memory.lean ====
section
/-! DEFINITION. An element-addressed space as plain data (20_memory.md R60): the listed elements, addresses strictly
rising. What an unlisted address reads as is the space's own: 0 in `FREQ` (R36, R49), a free value in `NODE`, `CODE`,
`SYM`, `BIT`, `BYTE` (R18, R49). -/

namespace Sys2Proof.Machine

/-- The listed elements of a space. `Memory Byte` is a list of `Host.Cell`. -/
abbrev Memory (α : Type) := List (Nat × α)

/-- The listed element at an index, if there is one. -/
def Memory.read? {α : Type} : Memory α → Nat → Option α
  | [], _ => none
  | (a, v) :: m, i => if a = i then some v else Memory.read? m i

/-- Write one element, in place. -/
def Memory.insert {α : Type} : Memory α → Nat → α → Memory α
  | [], i, v => [(i, v)]
  | (a, w) :: m, i, v =>
    if i < a then (i, v) :: (a, w) :: m
    else if i = a then (i, v) :: m
    else (a, w) :: Memory.insert m i v

/-- Take one element out of the list. -/
def Memory.erase {α : Type} (m : Memory α) (i : Nat) : Memory α :=
  m.filter (fun c => c.1 ≠ i)

/-- The elements of a sequence, listed from address `k` on. -/
def Memory.listFrom {α : Type} : Nat → List α → Memory α
  | _, [] => []
  | k, v :: l => (k, v) :: Memory.listFrom (k + 1) l

/-- Write a sequence to the elements from index 0 on; later elements keep what they hold. -/
def Memory.writePrefix {α : Type} (m : Memory α) (l : List α) : Memory α :=
  Memory.listFrom 0 l ++ m.filter (fun c => l.length ≤ c.1)

/-- The canonical form: addresses strictly rising and below the space's element count. Equal contents are then equal
data. -/
abbrev Memory.wf {α : Type} (size : Nat) (m : Memory α) : Prop :=
  m.Pairwise (fun a b => a.1 < b.1) ∧ ∀ c ∈ m, c.1 < size

end Sys2Proof.Machine
end

