-- ==== Sys2Proof/Machine/State.lean ====
section
/-! DEFINITION. The state of HUFFCORE (10_state.md R20 to R49), the host's requests and responses (20_memory.md R61),
the two reasons the model may stop, and the state after reset. -/

namespace Sys2Proof.Machine

/-- `SEQ` (R21). -/
inductive Sequencer where
  | idle
  | busy
deriving DecidableEq, Repr

/-- `NODE[i].KIND` (R37): 0 = leaf, 1 = interior. -/
inductive NodeKind where
  | leaf
  | interior
deriving DecidableEq, Repr

/-- An element of `NODE` (R37). `freq` is an `NFW`-bit number. -/
structure Node where
  freq : Nat
  kind : NodeKind
  sym : Byte
  left : Link
  right : Link
deriving DecidableEq, Repr

/-- An element of `CODE` (R40): `LEN` and `BITS`, the code's first bit at the top. -/
structure Code where
  len : BitVec 8
  bits : BitVec 255
deriving DecidableEq, Repr

/-- An entry of `PQ` (R42, R120). `key` is an `NFW`-bit number; the queue never inspects `tag`. -/
structure Entry where
  key : Nat
  tag : Link
deriving DecidableEq, Repr

/-- The seven visible spaces (R60). -/
inductive Space where
  | csr
  | freq
  | node
  | code
  | sym
  | bit
  | byte
deriving DecidableEq, Repr

/-- The eighteen CSRs, in index order (R22). -/
inductive Csr where
  | cmd
  | status
  | ctrl
  | errCode
  | errInfo
  | symLen
  | bitLen
  | byteLen
  | root
  | pqKey
  | pqOutKey
  | pqOutTag
  | pqCount
  | pqCap
  | id
  | symCapR
  | bitCapR
  | byteCapR
deriving DecidableEq, Repr

/-- A request on the host port (R61). `wdata` is the element written, as a number; a read ignores it. -/
structure Request where
  write : Bool
  space : Space
  index : Nat
  wdata : Nat
deriving DecidableEq, Repr

/-- A response (R61). `rdata` is the element, as a number. -/
structure Response where
  err : Bool
  rdata : Nat
deriving DecidableEq, Repr

/-- What the host may do next: offer a request (R61) or assert `rst` (R250). -/
inductive HostEvent where
  | request (r : Request)
  | rst
deriving DecidableEq, Repr

/-- The eleven fault causes of the hardware (60_exceptions.md R221). A fault of the hardware is a next state of the
model (R222), not a `Fault`. -/
inductive Cause where
  | illegalCmd
  | arg
  | pqFull
  | pqEmpty
  | alphabet
  | noTree
  | noTable
  | noCode
  | len
  | overflow
  | corrupt
deriving DecidableEq, Repr

/-- The whole architectural state (R20), and after it the model's own fields. Registers of `NFW` or `FW` bits, whose
width is a parameter, are numbers kept below `2^NFW` or `2^FW` by every store (log 7). Not fields, because they store
nothing: `CMD` (R23), `PQ_EMPTY` and `PQ_FULL` (R24), `PQ_COUNT` (the length of `pq`, log 6), `ID` (R33) and the three
capacity registers (R32, read from `params`). -/
structure State where
  /-- `SEQ` (R21). -/
  seq : Sequencer
  /-- `STATUS.DONE` (R24). -/
  done : Bool
  /-- `STATUS.ERR` (R24). -/
  err : Bool
  /-- `STATUS.TREE_VALID` (R24). -/
  treeValid : Bool
  /-- `STATUS.CODE_VALID` (R24). -/
  codeValid : Bool
  /-- `CTRL.IE` (R25). -/
  ie : Bool
  /-- `ERR_CODE` (R26). -/
  errCode : Byte
  /-- `ERR_INFO` (R27). -/
  errInfo : Word
  /-- `SYM_LEN` (R28). -/
  symLen : Word
  /-- `BIT_LEN` (R28). -/
  bitLen : Word
  /-- `BYTE_LEN` (R28). -/
  byteLen : Word
  /-- `ROOT` (R29). -/
  root : Link
  /-- `PQ_KEY` (R30). -/
  pqKey : Nat
  /-- `PQ_OUT_KEY` (R30). -/
  pqOutKey : Nat
  /-- `PQ_OUT_TAG` (R30). -/
  pqOutTag : Link
  /-- `PQ_CAP` (R31). -/
  pqCap : Link
  /-- `FREQ` (R36): an unlisted count is 0, and no listed count is 0. -/
  freq : Memory Nat
  /-- `NODE` (R37): an unlisted slot is unspecified. -/
  node : Memory Node
  /-- `CODE` (R40): an unlisted entry is unspecified. -/
  code : Memory Code
  /-- `PQ` (R42): the queue's entries, first out first; their number is `PQ_COUNT` (R31). -/
  pq : List Entry
  /-- `SYM` (R43): an unlisted element is unspecified. -/
  sym : Memory Byte
  /-- `BIT` (R44): an unlisted element is unspecified. -/
  bit : Memory Bool
  /-- `BYTE` (R45): an unlisted element is unspecified. -/
  byte : Memory Byte
  /-- MODEL'S OWN (log 3): the parameters of R7. No step changes them. -/
  params : Params
  /-- MODEL'S OWN (log 4): how many free values have been used. -/
  draws : Nat
  /-- MODEL'S OWN (log 1): the host's events still to come, oldest first. -/
  script : List HostEvent
  /-- MODEL'S OWN (log 1): the responses given so far, oldest first. -/
  responses : List Response
deriving DecidableEq, Repr

/-- Why the model may stop. -/
inductive Fault where
  /-- Raised by DERIVE and DECODE when `TREE_VALID = 1` and a link they follow from `ROOT` names no written node, or
  lies deeper than 256 levels. R39 says no such state arises, so the spec gives no effect there. Safe (log 9). -/
  | malformedTree
deriving DecidableEq, Repr

/-- Why an instruction may have no meaning. -/
inductive Refusal where
  /-- Raised by an arm of `exec` whose instruction has no meaning yet; no arm does. Safe. -/
  | notModelled (mnemonic : String)
deriving DecidableEq, Repr

/-- What a meaning answers. -/
abbrev Result := Host.Outcome State Fault Refusal

/-- The state after reset (R49, R251): every value is the spec's, but for the model's own fields. -/
def State.reset : State where
  seq := .idle
  done := false
  err := false
  treeValid := false
  codeValid := false
  ie := false
  errCode := 0
  errInfo := 0
  symLen := 0
  bitLen := 0
  byteLen := 0
  root := nil9
  pqKey := 0
  pqOutKey := 0
  pqOutTag := 0
  pqCap := 256
  freq := []
  node := []
  code := []
  pq := []
  sym := []
  bit := []
  byte := []
  params := Params.default
  draws := 0
  script := []
  responses := []

end Sys2Proof.Machine
end

