-- ==== Sys2Proof/Machine/Operands.lean ====
section
/-! DEFINITION. Every form in which a command reads its operands (48_arithmetic_and_access.md R274), the layouts of
`NODE` and `CODE` elements (10_state.md R37, R40), and the bit order (R12, R67, R202). -/

namespace Sys2Proof.Machine

/-- `PQ_COUNT` (R31): the number of entries in the queue. -/
def State.pqCount (s : State) : Nat := s.pq.length

/-- `zext` and the stores into `NFW`-bit registers: the low `NFW` bits (R271, R273). -/
def truncKey (p : Params) (v : Nat) : Nat := v % 2 ^ p.nfw

/-- The store into an `FW`-bit count: the low `FW` bits (R271, R273). -/
def truncCount (p : Params) (v : Nat) : Nat := v % 2 ^ p.fw

/-- `FREQ[i]` (R36): an unlisted count is 0, as after reset (R49). -/
def State.freqAt (s : State) (i : Nat) : Nat := (s.freq.read? i).getD 0

/-- `FREQ[i] <- v`: a count of 0 is not listed. -/
def storeCount (p : Params) (m : Memory Nat) (i v : Nat) : Memory Nat :=
  if truncCount p v = 0 then m.erase i else m.insert i (truncCount p v)

/-- The number a bit string spells, first bit most significant: the sum of `b[j] * 2^(|b| - 1 - j)` (R67, R200). -/
def bitsVal : List Bool → Nat
  | [] => 0
  | b :: l => (if b then 2 ^ l.length else 0) + bitsVal l

/-- The bits of a byte by stream index: stream index `j` is bit `7 - j` (R12, R202). -/
def byteBits (y : Byte) : List Bool := (List.range 8).map (fun j => y.getLsbD (7 - j))

/-- `left255(p)` of R160: the 255-bit value with `p[j]` in bit `254 - j` and every other bit 0. -/
def left255 (p : List Bool) : BitVec 255 := BitVec.ofNat 255 (bitsVal p * 2 ^ (255 - p.length))

/-- `code(s)` of R40: the first `LEN` bits of `BITS` from the top. -/
def Code.string (c : Code) : List Bool := (List.range c.len.toNat).map (fun j => c.bits.getLsbD (254 - j))

/-- A set entry of the code table (R160). -/
def Code.ofPath (p : List Bool) : Code := ⟨BitVec.ofNat 8 p.length, left255 p⟩

/-- An entry with no code (R40, R160). -/
def Code.unset : Code := ⟨0, 0⟩

/-- A 263-bit element of `CODE` as a number: `LEN` in bits 262:255, `BITS` in 254:0 (R40). -/
def Code.toNat (c : Code) : Nat := c.len.toNat * 2 ^ 255 + c.bits.toNat

/-- The element of `CODE` a 263-bit number is (R40). -/
def Code.ofNat (v : Nat) : Code := ⟨BitVec.ofNat 8 (v / 2 ^ 255), BitVec.ofNat 255 v⟩

/-- The `KIND` bit of R37. -/
def NodeKind.bit : NodeKind → Nat
  | .leaf => 0
  | .interior => 1

/-- An `NFW + 27`-bit element of `NODE` as a number: `FREQ[NFW+26:27]`, `KIND[26]`, `SYM[25:18]`, `LEFT[17:9]`,
`RIGHT[8:0]` (R37). -/
def Node.toNat (n : Node) : Nat :=
  n.freq * 2 ^ 27 + n.kind.bit * 2 ^ 26 + n.sym.toNat * 2 ^ 18 + n.left.toNat * 2 ^ 9 + n.right.toNat

/-- `SYM[i]`, or the `k`-th free value where nothing is listed (R18, R43, R254). -/
def State.symAt (s : State) (k i : Nat) : Byte := (s.sym.read? i).getD (BitVec.ofNat 8 (Config.draw k))

/-- `BIT[i]`, or the `k`-th free value where nothing is listed (R18, R44, R254). -/
def State.bitAt (s : State) (k i : Nat) : Bool := (s.bit.read? i).getD ((Config.draw k).testBit 0)

/-- `BYTE[i]`, or the `k`-th free value where nothing is listed (R18, R45, R254). -/
def State.byteAt (s : State) (k i : Nat) : Byte := (s.byte.read? i).getD (BitVec.ofNat 8 (Config.draw k))

/-- `CODE[c]`, or the `k`-th free value where nothing is listed (R18, R40). -/
def State.codeAt (s : State) (k : Nat) (c : Byte) : Code := (s.code.read? c.toNat).getD (Code.ofNat (Config.draw k))

/-- `SYM[0 .. n)` as a command reads it: element `i` uses free value `draws + i` if it is unlisted. -/
def State.symInput (s : State) (n : Nat) : List Byte := (List.range n).map (fun i => s.symAt (s.draws + i) i)

/-- `BIT[0 .. n)` as a command reads it. -/
def State.bitInput (s : State) (n : Nat) : List Bool := (List.range n).map (fun i => s.bitAt (s.draws + i) i)

/-- `BYTE[0 .. n)` as a command reads it. -/
def State.byteInput (s : State) (n : Nat) : List Byte := (List.range n).map (fun i => s.byteAt (s.draws + i) i)

end Sys2Proof.Machine
end

