-- ==== Sys2Proof/Machine/Flags.lean ====
section
/-! DEFINITION. The flags and the output pins: the `STATUS` word (10_state.md R24, R48), `busy`, `req_ready`
(20_memory.md R61, R62) and `irq` (60_exceptions.md R227). -/

namespace Sys2Proof.Machine

/-- `STATUS.PQ_EMPTY`, D0's `is_empty` (R24, R123). -/
def State.pqEmpty (s : State) : Bool := s.pqCount == 0

/-- `STATUS.PQ_FULL`, D0's `is_full` (R24, R123). -/
def State.pqFull (s : State) : Bool := s.pqCount == s.pqCap.toNat

/-- `STATUS` as the host reads it (R24): bits 31:6 read as 0. -/
def State.status (s : State) : Nat :=
  s.done.toNat + 2 * s.err.toNat + 4 * s.treeValid.toNat + 8 * s.codeValid.toNat +
    16 * s.pqEmpty.toNat + 32 * s.pqFull.toNat

/-- `irq = CTRL.IE and (STATUS.DONE or STATUS.ERR)` (R227). -/
def State.irq (s : State) : Bool := s.ie && (s.done || s.err)

/-- The `busy` output (R21). -/
def State.busy (s : State) : Bool := s.seq == .busy

/-- `req_ready = (SEQ = IDLE)` (R62). -/
def State.reqReady (s : State) : Bool := s.seq == .idle

end Sys2Proof.Machine
end

