-- ==== Sys2Proof/Machine/Ops.lean ====
section
/-! DEFINITION. The operations every command shares: completion (30_encoding.md R101), fault entry (60_exceptions.md
R222, R223) and the return from it, which is reset (R226, 10_state.md R49). -/

namespace Sys2Proof.Machine

/-- The cause codes of R221. -/
def Cause.code : Cause → Byte
  | .illegalCmd => 1
  | .arg => 2
  | .pqFull => 3
  | .pqEmpty => 4
  | .alphabet => 5
  | .noTree => 6
  | .noTable => 7
  | .noCode => 8
  | .len => 9
  | .overflow => 10
  | .corrupt => 11

/-- The start of an accepted command (R101): `SEQ <- BUSY`, `DONE <- 0`. -/
def State.accept (s : State) : State := { s with seq := .busy, done := false }

/-- The end of a command that did not fault and is not RESET (R101): `DONE <- 1`, `SEQ <- IDLE`. -/
def State.complete (s : State) : State := { s with done := true, seq := .idle }

/-- Fault entry (R222), after the command's row of R223 has been performed: `ERR_CODE`, `ERR_INFO`, `ERR <- 1`,
`SEQ <- IDLE`; `DONE` is not written. -/
def State.raise (c : Cause) (info : Word) (s : State) : State :=
  { s with errCode := c.code, errInfo := info, err := true, seq := .idle }

/-- The reset state (R49), reached by RESET (R111) or `rst` (R250). It is the only return from a fault (R226). The
model's own fields stay. -/
def State.toReset (s : State) : State :=
  { State.reset with params := s.params, draws := s.draws, script := s.script, responses := s.responses }

/-- R223, a faulting BUILD, and the release of a tree (R148): `TREE_VALID <- 0`, `ROOT <- NIL`. -/
def State.dropTree (s : State) : State := { s with treeValid := false, root := nil9 }

/-- R223, a faulting DERIVE: `CODE_VALID <- 0`. -/
def State.dropTable (s : State) : State := { s with codeValid := false }

/-- R223, a faulting ENCODE or UNPACK: `BIT_LEN <- 0`, all of `BIT` unspecified. -/
def State.dropBits (s : State) : State := { s with bitLen := 0, bit := [] }

/-- R223, a faulting PACK: `BYTE_LEN <- 0`, all of `BYTE` unspecified. -/
def State.dropBytes (s : State) : State := { s with byteLen := 0, byte := [] }

/-- R223, a faulting DECODE: `SYM_LEN <- 0`, all of `SYM` unspecified. -/
def State.dropSyms (s : State) : State := { s with symLen := 0, sym := [] }

/-- Count the free values a command's reads stand ready to use (log 4). -/
def State.useDraws (n : Nat) (s : State) : State := { s with draws := s.draws + n }

end Sys2Proof.Machine
end

