-- ==== Sys2Proof/Machine/CodeTable.lean ====
section
/-! DEFINITION. The code table generator: DERIVE (43_code_table.md). -/

namespace Sys2Proof.Machine

/-- Levels of the deepest tree: at most 255 edges on a path (R38, R147 (h)). -/
abbrev treeBudget : Nat := 256

/-- `walk(i, p)` of R160, left child first, filling `code`. The first argument bounds the depth; `none` when a link names
no written node or the bound is passed, which R39 excludes (log 9). -/
def walk (node : Memory Node) : Nat → Link → List Bool → Memory Code → Option (Memory Code)
  | 0, _, _, _ => none
  | d + 1, i, p, code =>
    match node.read? i.toNat with
    | none => none
    | some n =>
      match n.kind with
      | .leaf => some (code.insert n.sym.toNat (Code.ofPath p))
      | .interior =>
        match walk node d n.left (p ++ [false]) code with
        | none => none
        | some code' => walk node d n.right (p ++ [true]) code'

/-- Every entry unset (R160). -/
def unsetTable (m : Memory Code) : Memory Code := m.writePrefix (List.replicate Config.alphabet Code.unset)

/-- DERIVE (R160). -/
def execDerive (s : State) : Result :=
  if s.treeValid then
    match walk s.node treeBudget s.root [] (unsetTable s.code) with
    | some code => .next { s with code := code, codeValid := true }.complete
    | none => .fault .malformedTree
  else .next (s.dropTable.raise .noTree 0)

end Sys2Proof.Machine
end

