-- ==== Sys2Proof/Syntax.lean ====
section
/-! DEFINITION. The commands of HUFFCORE: one constructor per row of spec/opcode_table.json (30_encoding.md R94). -/

namespace Sys2Proof

/-- The fourteen commands (R94). `n9` is the 9-bit operand of format I9 (R92, R93), an unsigned number; that it is
below 512 is `WellFormed`. -/
inductive Instr where
  | nop
  | reset
  | freqClear
  | freqCount
  | pqInit (n9 : Nat)
  | pqAdd (n9 : Nat)
  | pqRemoveMin
  | build
  | treeRelease
  | derive
  | encode
  | pack
  | unpack
  | decode
deriving DecidableEq, Repr

end Sys2Proof
end

