-- ==== Sys2Proof/WellFormed.lean ====
section
/-! DEFINITION. Which command terms exist: the operand of format I9 is a number 0 to 511 (30_encoding.md R93). -/

namespace Sys2Proof

/-- R91, R93: a format-Z command has no operand; the operand `n9` of a format-I9 command fits nine bits. -/
def wellFormed (i : Instr) : Bool :=
  match i with
  | .nop => true
  | .reset => true
  | .freqClear => true
  | .freqCount => true
  | .pqInit n9 => decide (n9 < 512)
  | .pqAdd n9 => decide (n9 < 512)
  | .pqRemoveMin => true
  | .build => true
  | .treeRelease => true
  | .derive => true
  | .encode => true
  | .pack => true
  | .unpack => true
  | .decode => true

/-- The check as a proposition. -/
abbrev WellFormed (i : Instr) : Prop := wellFormed i = true

end Sys2Proof
end

