-- ==== Sys2Proof/Decode.lean ====
section
/-! DEFINITION. The command map (30_encoding.md R94), the decoder (R95, R96) and the encoder. -/

namespace Sys2Proof

/-- One row of the command map: `w` is the command iff `(w and mask) = match` (R94). `instr` makes the command of the
operand bits `w[8:0]`, which a format-Z row ignores. -/
structure Row where
  mnemonic : String
  matchWord : Word
  mask : Word
  instr : Nat → Instr

/-- Format Z (R91): all 32 bits are fixed. -/
def maskZ : Word := 0xFFFFFFFF

/-- Format I9 (R92): bits 31:9 are fixed. -/
def maskI9 : Word := 0xFFFFFE00

/-- The fourteen rows of R94. -/
def rows : List Row := [
  ⟨"NOP", 0x00000000, maskZ, fun _ => .nop⟩,
  ⟨"RESET", 0x01000000, maskZ, fun _ => .reset⟩,
  ⟨"FREQ_CLEAR", 0x10000000, maskZ, fun _ => .freqClear⟩,
  ⟨"FREQ_COUNT", 0x11000000, maskZ, fun _ => .freqCount⟩,
  ⟨"PQ_INIT", 0x20000000, maskI9, fun n9 => .pqInit n9⟩,
  ⟨"PQ_ADD", 0x21000000, maskI9, fun n9 => .pqAdd n9⟩,
  ⟨"PQ_REMOVE_MIN", 0x22000000, maskZ, fun _ => .pqRemoveMin⟩,
  ⟨"BUILD", 0x30000000, maskZ, fun _ => .build⟩,
  ⟨"TREE_RELEASE", 0x31000000, maskZ, fun _ => .treeRelease⟩,
  ⟨"DERIVE", 0x32000000, maskZ, fun _ => .derive⟩,
  ⟨"ENCODE", 0x40000000, maskZ, fun _ => .encode⟩,
  ⟨"PACK", 0x41000000, maskZ, fun _ => .pack⟩,
  ⟨"UNPACK", 0x42000000, maskZ, fun _ => .unpack⟩,
  ⟨"DECODE", 0x43000000, maskZ, fun _ => .decode⟩]

/-- `(w and mask) = match` (R94). -/
def Row.hits (r : Row) (w : Word) : Bool := w &&& r.mask == r.matchWord

/-- The `op` field, bits 31:24 (R90). -/
def opField (w : Word) : Byte := w.extractLsb' 24 8

/-- The `imm` field, bits 23:0 (R90). -/
def immField (w : Word) : BitVec 24 := w.extractLsb' 0 24

/-- The operand `n9`, bits 8:0, unsigned (R92, R93). -/
def n9Field (w : Word) : Nat := (w.extractLsb' 0 9).toNat

/-- Why a word is no command (R96). Both make the accepted word fault with `E_ILLEGAL_CMD`. -/
inductive IllegalWord where
  /-- The `op` is not in the table. -/
  | undefinedOp (op : Byte)
  /-- The `op` is in the table and a bit that must be zero is not. -/
  | immNotZero (op : Byte) (imm : BitVec 24)
deriving DecidableEq, Repr

/-- The name of an illegal word (R96). -/
def rejectWord (w : Word) : IllegalWord :=
  if rows.any (fun r => opField r.matchWord == opField w) then .immNotZero (opField w) (immField w)
  else .undefinedOp (opField w)

/-- R95: the command of the row that matches; every other word is illegal (R96). Total on all `2^32` words. -/
def decode (w : Word) : Except IllegalWord Instr :=
  match rows.find? (fun r => r.hits w) with
  | some r => .ok (r.instr (n9Field w))
  | none => .error (rejectWord w)

/-- The word of a command (R94, R99): the row's match, plus `n9` in format I9. -/
def encode (i : Instr) : Word :=
  match i with
  | .nop => 0x00000000
  | .reset => 0x01000000
  | .freqClear => 0x10000000
  | .freqCount => 0x11000000
  | .pqInit n9 => 0x20000000 + BitVec.ofNat 32 n9
  | .pqAdd n9 => 0x21000000 + BitVec.ofNat 32 n9
  | .pqRemoveMin => 0x22000000
  | .build => 0x30000000
  | .treeRelease => 0x31000000
  | .derive => 0x32000000
  | .encode => 0x40000000
  | .pack => 0x41000000
  | .unpack => 0x42000000
  | .decode => 0x43000000

/-- The command the decoder reads from a table row's bits: the low `nbits` bits of `w`, zeros above (log 15). -/
def decodeTableWord (nbits w : Nat) : Option Instr :=
  match decode (BitVec.ofNat 32 (w % 2 ^ nbits)) with
  | .ok i => some i
  | .error _ => none

end Sys2Proof
end

