-- ==== Sys2Proof/Machine/Control.lean ====
section
/-! DEFINITION. NOP and RESET (40_control.md). -/

namespace Sys2Proof.Machine

/-- NOP (R110): completes. -/
def execNop (s : State) : Result := .next s.complete

/-- RESET (R111): the reset state of R49. `DONE` is not set (R101). -/
def execReset (s : State) : Result := .next s.toReset

end Sys2Proof.Machine
end

