-- ==== Sys2Proof/Machine/Decoder.lean ====
section
/-! DEFINITION. The inverse decoder: DECODE (45_decoder.md). -/

namespace Sys2Proof.Machine

/-- One turn of R180 from cursor `cur`: the child the bit selects, and the symbol emitted with the cursor back at the
root if that child is a leaf. `none` when a link names no written node, which R39 excludes (log 9). -/
def decodeBit (node : Memory Node) (root cur : Link) (b : Bool) : Option (Link × Option Byte) :=
  match node.read? cur.toNat with
  | none => none
  | some n =>
    let child := if b then n.right else n.left
    match node.read? child.toNat with
    | none => none
    | some m =>
      match m.kind with
      | .leaf => some (root, some m.sym)
      | .interior => some (child, none)

/-- All the turns of R180: the symbols emitted, in order, and the cursor after the last bit. One pass (R181, log 12). -/
def decodeBits (node : Memory Node) (root : Link) : List Bool → Link → Option (List Byte × Link)
  | [], cur => some ([], cur)
  | b :: bits, cur =>
    match decodeBit node root cur b with
    | none => none
    | some (cur', out) =>
      match decodeBits node root bits cur' with
      | none => none
      | some (syms, last) => some (out.toList ++ syms, last)

/-- DECODE (R180). -/
def execDecode (s : State) : Result :=
  let l := s.bitLen.toNat
  if s.treeValid then
    if l ≤ s.params.bitCap then
      match decodeBits s.node s.root (s.bitInput l) s.root with
      | none => .fault .malformedTree
      | some (syms, cur) =>
        if cur = s.root then
          if syms.length ≤ s.params.symCap then
            .next ({ s with
              sym := s.sym.writePrefix syms
              symLen := BitVec.ofNat 32 syms.length }.useDraws l).complete
          else .next ((s.dropSyms.useDraws l).raise .overflow (BitVec.ofNat 32 syms.length))
        else .next ((s.dropSyms.useDraws l).raise .corrupt (BitVec.ofNat 32 syms.length))
    else .next (s.dropSyms.raise .len s.bitLen)
  else .next (s.dropSyms.raise .noTree 0)

end Sys2Proof.Machine
end

