-- ==== Sys2Proof/Machine/Encoder.lean ====
section
/-! DEFINITION. The symbol encoder: ENCODE (44_encoder.md). -/

namespace Sys2Proof.Machine

/-- The loop of R170 over the entries of the symbols, from position `i` with `pos` bits written: the bits appended, or
the first fault with the position it names. `E_NO_CODE` is tested before `E_OVERFLOW` (R224). -/
def encodeLoop (cap : Nat) : List Code → Nat → Nat → Except (Cause × Nat) (List Bool)
  | [], _, _ => .ok []
  | c :: rest, i, pos =>
    if c.len = 0 then .error (.noCode, i)
    else if pos + c.len.toNat ≤ cap then
      match encodeLoop cap rest (i + 1) (pos + c.len.toNat) with
      | .ok bits => .ok (c.string ++ bits)
      | .error e => .error e
    else .error (.overflow, i)

/-- The entries ENCODE looks up: that of the symbol at position `i` uses free value `draws + n + i` if nothing is listed
(R170, log 4). -/
def State.codeInput (s : State) (n : Nat) : List Code :=
  (List.range n).map (fun i => s.codeAt (s.draws + n + i) (s.symAt (s.draws + i) i))

/-- ENCODE (R170). Afterwards `BIT` holds the result and every element at and above `BIT_LEN` is unspecified. -/
def execEncode (s : State) : Result :=
  let n := s.symLen.toNat
  if s.codeValid then
    if n ≤ s.params.symCap then
      match encodeLoop s.params.bitCap (s.codeInput n) 0 0 with
      | .ok bits =>
        .next ({ s with bit := Memory.listFrom 0 bits, bitLen := BitVec.ofNat 32 bits.length }.useDraws (2 * n)).complete
      | .error (c, i) => .next ((s.dropBits.useDraws (2 * n)).raise c (BitVec.ofNat 32 i))
    else .next (s.dropBits.raise .len s.symLen)
  else .next (s.dropBits.raise .noTable 0)

end Sys2Proof.Machine
end

