-- ==== Sys2Proof/Machine/Frequency.lean ====
section
/-! DEFINITION. FREQ_CLEAR and FREQ_COUNT (46_frequency.md). -/

namespace Sys2Proof.Machine

/-- `FREQ[c] <- FREQ[c] + 1` (R191). -/
def countSymbol (p : Params) (m : Memory Nat) (c : Byte) : Memory Nat :=
  storeCount p m c.toNat ((m.read? c.toNat).getD 0 + 1)

/-- The tally of a sequence, from an all-zero table (R191). -/
def tally (p : Params) (l : List Byte) : Memory Nat := l.foldl (countSymbol p) []

/-- FREQ_CLEAR (R190): every count 0. -/
def execFreqClear (s : State) : Result := .next { s with freq := [] }.complete

/-- FREQ_COUNT (R191). `E_LEN` comes before any write. -/
def execFreqCount (s : State) : Result :=
  let n := s.symLen.toNat
  if n ≤ s.params.symCap then
    .next ({ s with freq := tally s.params (s.symInput n) }.useDraws n).complete
  else .next (s.raise .len s.symLen)

end Sys2Proof.Machine
end

