-- ==== Sys2Proof/Machine/Packer.lean ====
section
/-! DEFINITION. The bit packer and unpacker: PACK and UNPACK (47_bit_packer.md). -/

namespace Sys2Proof.Machine

/-- `BYTE[k]` of R200: `b(8k)` at weight 128 down to `b(8k+7)` at weight 1, `b(i) = 0` past the end of the string. -/
def packByte (bits : List Bool) (k : Nat) : Byte :=
  BitVec.ofNat 8 (bitsVal ((List.range 8).map (fun j => bits.getD (8 * k + j) false)))

/-- `ceil(L / 8)` (R200). -/
def byteCount (l : Nat) : Nat := (l + 7) / 8

/-- The packed bytes of a bit string (R200). -/
def packBits (bits : List Bool) : List Byte := (List.range (byteCount bits.length)).map (packByte bits)

/-- The bits of a byte sequence, each byte's stream index 0 first (R201). -/
def unpackBytes (bytes : List Byte) : List Bool := bytes.flatMap byteBits

/-- PACK (R200). -/
def execPack (s : State) : Result :=
  let l := s.bitLen.toNat
  if l ≤ s.params.bitCap then
    if byteCount l ≤ s.params.byteCap then
      .next ({ s with
        byte := s.byte.writePrefix (packBits (s.bitInput l))
        byteLen := BitVec.ofNat 32 (byteCount l) }.useDraws l).complete
    else .next (s.dropBytes.raise .overflow (BitVec.ofNat 32 (byteCount l)))
  else .next (s.dropBytes.raise .len s.bitLen)

/-- UNPACK (R201). -/
def execUnpack (s : State) : Result :=
  let nb := s.byteLen.toNat
  if nb ≤ s.params.byteCap then
    if 8 * nb ≤ s.params.bitCap then
      .next ({ s with
        bit := s.bit.writePrefix (unpackBytes (s.byteInput nb))
        bitLen := BitVec.ofNat 32 (8 * nb) }.useDraws nb).complete
    else .next (s.dropBits.raise .overflow (BitVec.ofNat 32 (8 * nb)))
  else .next (s.dropBits.raise .len s.byteLen)

end Sys2Proof.Machine
end

