-- ==== Sys2Proof/Machine/Queue.lean ====
section
/-! DEFINITION. The priority queue's primitive `pq_add`, and PQ_INIT, PQ_ADD, PQ_REMOVE_MIN (41_priority_queue.md). -/

namespace Sys2Proof.Machine

/-- `p` of R121: the number of entries whose key is not above `k`. -/
def pqPlace (q : List Entry) (k : Nat) : Nat := q.countP (fun e => decide (e.key ≤ k))

/-- `pq_add(k, t)` (R121): the new entry goes behind every entry with a smaller or equal key (R128). -/
def pqAdd (q : List Entry) (k : Nat) (t : Link) : List Entry :=
  q.take (pqPlace q k) ++ ⟨k, t⟩ :: q.drop (pqPlace q k)

/-- PQ_INIT (R125, R124): `E_ARG` carries the command word. -/
def execPqInit (n9 : Nat) (s : State) : Result :=
  if 1 ≤ n9 ∧ n9 ≤ Config.pqDepth then .next { s with pq := [], pqCap := BitVec.ofNat 9 n9 }.complete
  else .next (s.raise .arg (encode (.pqInit n9)))

/-- PQ_ADD (R126): `E_PQ_FULL` carries `PQ_COUNT`. -/
def execPqAdd (n9 : Nat) (s : State) : Result :=
  if s.pqCount < s.pqCap.toNat then
    .next { s with pq := pqAdd s.pq s.pqKey (BitVec.ofNat 9 n9) }.complete
  else .next (s.raise .pqFull (BitVec.ofNat 32 s.pqCount))

/-- PQ_REMOVE_MIN (R127, `pq_remove_min` of R122). -/
def execPqRemoveMin (s : State) : Result :=
  match s.pq with
  | [] => .next (s.raise .pqEmpty 0)
  | e :: rest => .next { s with pq := rest, pqOutKey := e.key, pqOutTag := e.tag }.complete

end Sys2Proof.Machine
end

