-- ==== Sys2Proof/Machine/Tree.lean ====
section
/-! DEFINITION. The tree builder: BUILD and TREE_RELEASE (42_tree_builder.md). -/

namespace Sys2Proof.Machine

/-- `n_pos` (R140): the number of positive counts. -/
def State.positives (s : State) : Nat := (List.range Config.alphabet).countP (fun i => decide (0 < s.freqAt i))

/-- The leaf of symbol `i` (R140, R142). -/
def State.leafNode (s : State) (i : Nat) : Node := ⟨s.freqAt i, .leaf, BitVec.ofNat 8 i, nil9, nil9⟩

/-- The 256 leaf slots (R142). -/
def State.leafNodes (s : State) : List Node := (List.range Config.alphabet).map s.leafNode

/-- One leaf's entry in the queue, if its count is positive (R140, R142). -/
def State.addLeaf (s : State) (q : List Entry) (i : Nat) : List Entry :=
  if 0 < s.freqAt i then pqAdd q (s.freqAt i) (BitVec.ofNat 9 i) else q

/-- The queue after the leaves went in, in ascending symbol order (R140, R142). -/
def State.leafQueue (s : State) : List Entry := (List.range Config.alphabet).foldl s.addLeaf []

/-- What the merge loop works on: the node store, the queue, the next free slot, and the root once found (R140). -/
structure Merge where
  node : Memory Node
  pq : List Entry
  next : Nat
  root : Link
deriving DecidableEq, Repr

/-- The interior node over the first removed and the second removed candidate (R140, R144). -/
def mergeNode (p : Params) (a b : Entry) : Node := ⟨truncKey p (a.key + b.key), .interior, 0, a.tag, b.tag⟩

/-- The merge loop (R140, R143, R145). The first argument bounds the turns; a queue of `n` entries takes `n` (R147 (a)),
so 256 are enough. -/
def mergeLoop (p : Params) : Nat → Merge → Merge
  | 0, m => m
  | turns + 1, m =>
    match m.pq with
    | [] => m
    | [a] => { m with pq := [], root := a.tag }
    | a :: b :: rest =>
      mergeLoop p turns
        { m with
          node := m.node.insert m.next (mergeNode p a b)
          pq := pqAdd rest (truncKey p (a.key + b.key)) (BitVec.ofNat 9 m.next)
          next := m.next + 1 }

/-- Where the loop starts (R140). -/
def State.mergeStart (s : State) : Merge := ⟨s.node.writePrefix s.leafNodes, s.leafQueue, Config.alphabet, nil9⟩

/-- What the loop ends with (R140). -/
def State.merged (s : State) : Merge := mergeLoop s.params Config.alphabet s.mergeStart

/-- BUILD (R140): an earlier tree is released first (R149); `E_ALPHABET` (R146) comes before the queue or a slot is
written. -/
def execBuild (s : State) : Result :=
  if 2 ≤ s.positives then
    .next { s with
      node := s.merged.node
      pq := s.merged.pq
      pqCap := BitVec.ofNat 9 Config.pqDepth
      root := s.merged.root
      treeValid := true }.complete
  else .next (s.dropTree.raise .alphabet (BitVec.ofNat 32 s.positives))

/-- TREE_RELEASE (R148). -/
def execTreeRelease (s : State) : Result := .next s.dropTree.complete

end Sys2Proof.Machine
end

