-- ==== Sys2Proof/Machine/Dispatch.lean ====
section
/-! DEFINITION. One arm per command (30_encoding.md R94): each is one call of the command's meaning. -/

namespace Sys2Proof.Machine

def exec (i : Instr) (s : State) : Host.Outcome State Fault Refusal :=
  match i with
  | .nop => Sys2Proof.Machine.execNop s
  | .reset => Sys2Proof.Machine.execReset s
  | .freqClear => Sys2Proof.Machine.execFreqClear s
  | .freqCount => Sys2Proof.Machine.execFreqCount s
  | .pqInit n9 => Sys2Proof.Machine.execPqInit n9 s
  | .pqAdd n9 => Sys2Proof.Machine.execPqAdd n9 s
  | .pqRemoveMin => Sys2Proof.Machine.execPqRemoveMin s
  | .build => Sys2Proof.Machine.execBuild s
  | .treeRelease => Sys2Proof.Machine.execTreeRelease s
  | .derive => Sys2Proof.Machine.execDerive s
  | .encode => Sys2Proof.Machine.execEncode s
  | .pack => Sys2Proof.Machine.execPack s
  | .unpack => Sys2Proof.Machine.execUnpack s
  | .decode => Sys2Proof.Machine.execDecode s

end Sys2Proof.Machine
end

