-- ==== Sys2Proof/Machine/Port.lean ====
section
/-! DEFINITION. The host port (20_memory.md R60 to R65, 10_state.md R22 to R33): access checks, the read value of every
location, the effect of every write but a write to `CMD`. -/

namespace Sys2Proof.Machine

/-- The register of a CSR index (R22). -/
def Csr.ofIndex : Nat → Option Csr
  | 0 => some .cmd
  | 1 => some .status
  | 2 => some .ctrl
  | 3 => some .errCode
  | 4 => some .errInfo
  | 5 => some .symLen
  | 6 => some .bitLen
  | 7 => some .byteLen
  | 8 => some .root
  | 9 => some .pqKey
  | 10 => some .pqOutKey
  | 11 => some .pqOutTag
  | 12 => some .pqCount
  | 13 => some .pqCap
  | 14 => some .id
  | 15 => some .symCapR
  | 16 => some .bitCapR
  | 17 => some .byteCapR
  | _ => none

/-- The widths of R22. -/
def Csr.width (p : Params) : Csr → Nat
  | .cmd => 32
  | .status => 32
  | .ctrl => 32
  | .errCode => 8
  | .errInfo => 32
  | .symLen => 32
  | .bitLen => 32
  | .byteLen => 32
  | .root => 9
  | .pqKey => p.nfw
  | .pqOutKey => p.nfw
  | .pqOutTag => 9
  | .pqCount => 9
  | .pqCap => 9
  | .id => 32
  | .symCapR => 32
  | .bitCapR => 32
  | .byteCapR => 32

/-- The registers the host may write (R22, R64 (b)). -/
def Csr.hostWrites : Csr → Bool
  | .cmd => true
  | .status => true
  | .ctrl => true
  | .errCode => false
  | .errInfo => false
  | .symLen => true
  | .bitLen => true
  | .byteLen => true
  | .root => false
  | .pqKey => true
  | .pqOutKey => false
  | .pqOutTag => false
  | .pqCount => false
  | .pqCap => false
  | .id => false
  | .symCapR => false
  | .bitCapR => false
  | .byteCapR => false

/-- The read value of every CSR (R23 to R33). -/
def State.readCsr (s : State) : Csr → Nat
  | .cmd => 0
  | .status => s.status
  | .ctrl => s.ie.toNat
  | .errCode => s.errCode.toNat
  | .errInfo => s.errInfo.toNat
  | .symLen => s.symLen.toNat
  | .bitLen => s.bitLen.toNat
  | .byteLen => s.byteLen.toNat
  | .root => s.root.toNat
  | .pqKey => s.pqKey
  | .pqOutKey => s.pqOutKey
  | .pqOutTag => s.pqOutTag.toNat
  | .pqCount => s.pqCount
  | .pqCap => s.pqCap.toNat
  | .id => Config.idWord.toNat
  | .symCapR => s.params.symCap
  | .bitCapR => s.params.bitCap
  | .byteCapR => s.params.byteCap

/-- What a host write of `v` does to each CSR (R24, R25, R28, R30, R65). A write to `CMD` stores nothing; that it offers
a command is `takeRequest`'s. A register the host may not write is never reached (R64). -/
def State.writeCsr (s : State) (c : Csr) (v : Nat) : State :=
  match c with
  | .cmd => s
  | .status => if v.testBit 0 then { s with done := false } else s
  | .ctrl => { s with ie := v.testBit 0 }
  | .errCode => s
  | .errInfo => s
  | .symLen => { s with symLen := BitVec.ofNat 32 v }
  | .bitLen => { s with bitLen := BitVec.ofNat 32 v }
  | .byteLen => { s with byteLen := BitVec.ofNat 32 v }
  | .root => s
  | .pqKey => { s with pqKey := truncKey s.params v }
  | .pqOutKey => s
  | .pqOutTag => s
  | .pqCount => s
  | .pqCap => s
  | .id => s
  | .symCapR => s
  | .bitCapR => s
  | .byteCapR => s

/-- The element counts of R60. -/
def Space.count (p : Params) : Space → Nat
  | .csr => Config.csrCount
  | .freq => Config.alphabet
  | .node => Config.nodeMax
  | .code => Config.alphabet
  | .sym => p.symCap
  | .bit => p.bitCap
  | .byte => p.byteCap

/-- The width of the element at an index (R22, R60). A CSR index above 17 has none. -/
def Space.width (p : Params) (sp : Space) (i : Nat) : Nat :=
  match sp with
  | .csr => ((Csr.ofIndex i).map (Csr.width p)).getD 0
  | .freq => p.fw
  | .node => p.nfw + 27
  | .code => 263
  | .sym => 8
  | .bit => 1
  | .byte => 8

/-- Which locations the host may write (R60, R64 (b)). -/
def Space.hostWrites (sp : Space) (i : Nat) : Bool :=
  match sp with
  | .csr => ((Csr.ofIndex i).map Csr.hostWrites).getD false
  | .freq => true
  | .node => false
  | .code => false
  | .sym => true
  | .bit => true
  | .byte => true

/-- The access checks of R64: a missing index, or a write to a location the host may not write. -/
def Request.refused (p : Params) (r : Request) : Bool :=
  decide (r.space.count p ≤ r.index) || (r.write && !r.space.hostWrites r.index)

/-- The element a host read finds; `none` where its value is unspecified (R49, R63). -/
def State.readElement (s : State) (sp : Space) (i : Nat) : Option Nat :=
  match sp with
  | .csr => (Csr.ofIndex i).map s.readCsr
  | .freq => some (s.freqAt i)
  | .node => (s.node.read? i).map Node.toNat
  | .code => (s.code.read? i).map Code.toNat
  | .sym => (s.sym.read? i).map BitVec.toNat
  | .bit => (s.bit.read? i).map Bool.toNat
  | .byte => (s.byte.read? i).map BitVec.toNat

/-- The store of a host write that passed the checks (R63, R65). The port carries exactly the element's bits (R273);
of a wider number the model takes the low bits (log 10). -/
def State.writeElement (s : State) (sp : Space) (i v : Nat) : State :=
  match sp with
  | .csr => match Csr.ofIndex i with
    | some c => s.writeCsr c v
    | none => s
  | .freq => { s with freq := storeCount s.params s.freq i v }
  | .node => s
  | .code => s
  | .sym => { s with sym := s.sym.insert i (BitVec.ofNat 8 v) }
  | .bit => { s with bit := s.bit.insert i (v.testBit 0) }
  | .byte => { s with byte := s.byte.insert i (BitVec.ofNat 8 v) }

/-- Give a response; responses come in the order of the requests (R61). -/
def State.respond (s : State) (r : Response) : State := { s with responses := s.responses ++ [r] }

/-- Give a response whose data no rule states: an unspecified element (R18, R63), or the data of an accepted write
(log 11). The data is a free value of the element's width. -/
def State.respondFree (s : State) (width : Nat) : State :=
  (s.respond ⟨false, Config.draw s.draws % 2 ^ width⟩).useDraws 1

/-- A host read that passed the checks (R63). -/
def State.hostRead (s : State) (sp : Space) (i : Nat) : State :=
  match s.readElement sp i with
  | some v => s.respond ⟨false, v⟩
  | none => s.respondFree (sp.width s.params i)

/-- A host write that passed the checks, but for the command a write to `CMD` offers (R63, R65). -/
def State.hostWrite (s : State) (sp : Space) (i v : Nat) : State :=
  (s.writeElement sp i v).respondFree (sp.width s.params i)

end Sys2Proof.Machine
end

