-- ==== Sys2Proof/Machine/Life.lean ====
section
/-! DEFINITION. What taking one host request does: the life of a command (30_encoding.md R101) and the port's accesses
(20_memory.md R61 to R65). -/

namespace Sys2Proof.Machine

/-- The word of RESET, the one command executed while `ERR = 1` (R101, R111, R225). -/
def resetWord : Word := 0x01000000

/-- R101, R225: while `ERR = 1` every word but RESET is ignored, before decoding. -/
def State.skips (s : State) (w : Word) : Bool := s.err && w != resetWord

/-- R101: what a word offered to the core does. An illegal word faults with `E_ILLEGAL_CMD` (R96); its row of R223 is
empty. -/
def acceptWord (w : Word) (s : State) : Result :=
  if s.skips w then .next s
  else
    match decode w with
    | .error _ => .next (s.accept.raise .illegalCmd w)
    | .ok i => exec i s.accept

/-- A write to `CSR[CMD]` (R23, R65 (a)). -/
def Request.isCommand (r : Request) : Bool := r.write && r.space == .csr && r.index == 0

/-- One taken request (R61 to R65). A write to `CMD` is answered with `err = 0` whatever its word (R101). -/
def takeRequest (r : Request) (s : State) : Result :=
  if r.refused s.params then .next (s.respond ⟨true, 0⟩)
  else if r.isCommand then acceptWord (BitVec.ofNat 32 r.wdata) (s.respondFree 32)
  else if r.write then .next (s.hostWrite r.space r.index r.wdata)
  else .next (s.hostRead r.space r.index)

end Sys2Proof.Machine
end

