-- ==== Sys2Proof/Machine/Step.lean ====
section
/-! DEFINITION. One step: the host's next event (20_memory.md R61, R62, 70_reset_and_hazards.md R250, R261). -/

namespace Sys2Proof.Machine

/-- One step. With no event left the block holds its state (R235). `rst` gives the reset state, whatever `SEQ` is (R250,
R252). A request is taken when `SEQ = IDLE` and waits otherwise (R62); a taken command runs to its end in the same step
(R62, log 2). -/
def step (s : State) : Host.Outcome State Fault Refusal :=
  match s.script with
  | [] => .next s
  | .rst :: rest => .next { s with script := rest }.toReset
  | .request r :: rest =>
    match s.seq with
    | .busy => .next s
    | .idle => takeRequest r { s with script := rest }

/-- `s` with a host write of the command word to `CSR[CMD]` as its next event, and the port ready for it: HUFFCORE
fetches nothing, its instructions arrive on the host port (R35, log 1, log 17). -/
def State.withFetchWord (s : State) (nbits w : Nat) : State :=
  { s with
    seq := .idle
    script := .request ⟨true, .csr, 0, w % 2 ^ nbits % 2 ^ 32⟩ :: s.script }

end Sys2Proof.Machine
end

