-- ==== Sys2Proof/Safety.lean ====
section
/-! DEFINITION. The tree as a value (10_state.md R38), and what holds of every state a run reaches: the invariants of
R24, R26, R27, R29, R31, R39, R41, R120 and the canonical form of the memories. -/

namespace Sys2Proof

/-- `HTree` of R38. -/
inductive HTree where
  | leaf (sym : Byte) (freq : Nat)
  | interior (freq : Nat) (left right : HTree)
deriving DecidableEq, Repr

namespace HTree

/-- `freq` of R38. -/
def freq : HTree → Nat
  | leaf _ f => f
  | interior f _ _ => f

/-- `wf` of R38: a leaf's frequency is positive, an interior node's is the sum of its children's. -/
def wf : HTree → Bool
  | leaf _ f => decide (0 < f)
  | interior f l r => l.wf && r.wf && f == l.freq + r.freq

/-- The leaves, left to right, with their frequencies. -/
def leaves : HTree → List (Byte × Nat)
  | leaf s f => [(s, f)]
  | interior _ l r => l.leaves ++ r.leaves

/-- Whether the root is an interior node (R39 (b)). -/
def isInterior : HTree → Bool
  | leaf _ _ => false
  | interior _ _ _ => true

/-- The number of edges on the longest path from the root. -/
def depth : HTree → Nat
  | leaf _ _ => 0
  | interior _ l r => max l.depth r.depth + 1

/-- The turns from the root to the leaf of a symbol, 0 = left = `false`, first turn first (R41 (b), R162 (a)). -/
def path? : HTree → Byte → Option (List Bool)
  | leaf s _, c => if c = s then some [] else none
  | interior _ l r, c =>
    match l.path? c with
    | some p => some (false :: p)
    | none => (r.path? c).map (fun p => true :: p)

/-- The sum over the leaves of depth times frequency, for a tree whose root is `d` edges down (R147 (j)). -/
def costAt : Nat → HTree → Nat
  | d, leaf _ f => d * f
  | d, interior _ l r => l.costAt (d + 1) + r.costAt (d + 1)

end HTree

namespace Machine

/-- `tree_at` of R38: the store read as a tree, with a budget of levels. A slot that is not listed, and index 511,
name no node. -/
def treeAt (node : Memory Node) : Nat → Link → Option HTree
  | 0, _ => none
  | d + 1, i =>
    match node.read? i.toNat with
    | none => none
    | some n =>
      match n.kind with
      | .leaf => if n.left = nil9 ∧ n.right = nil9 then some (.leaf n.sym n.freq) else none
      | .interior =>
        match treeAt node d n.left, treeAt node d n.right with
        | some l, some r => some (.interior n.freq l r)
        | _, _ => none

/-- The slots visited by `treeAt`, in the same order (R39 (e)). -/
def slotsAt (node : Memory Node) : Nat → Link → List Nat
  | 0, _ => []
  | d + 1, i =>
    match node.read? i.toNat with
    | none => []
    | some n =>
      match n.kind with
      | .leaf => [i.toNat]
      | .interior => i.toNat :: (slotsAt node d n.left ++ slotsAt node d n.right)

/-- `TREE = tree_at(x[ROOT], 256)` (R38). -/
def State.tree (s : State) : Option HTree := treeAt s.node treeBudget s.root

/-- The slots of `TREE`. -/
def State.treeSlots (s : State) : List Nat := slotsAt s.node treeBudget s.root

/-- R39 (c): a leaf of the tree is read from its symbol's slot. -/
abbrev State.leavesAtHome (s : State) : Prop :=
  ∀ i ∈ s.treeSlots, ∀ n, s.node.read? i = some n → n.kind = .leaf → n.sym.toNat = i

/-- R39 (a), (b), (c), (e) and R29. That the leaves are those of `FREQ` when BUILD ran (R39 (d)) is a statement about
BUILD. -/
structure State.TreeInv (s : State) : Prop where
  valid : s.treeValid = true →
    (∃ t, s.tree = some t ∧ t.wf = true ∧ t.isInterior = true) ∧ s.leavesAtHome ∧ s.treeSlots.Nodup ∧
      256 ≤ s.root.toNat ∧ s.root.toNat ≤ 510
  invalid : s.treeValid = false → s.root = nil9

/-- The entry of a symbol in the code table of a tree (R41 (a), (b)). -/
def codeOf (t : HTree) (c : Byte) : Code :=
  match t.path? c with
  | some p => Code.ofPath p
  | none => Code.unset

/-- R41: the table is that of some tree with an interior root, at most 255 edges deep, no two leaves of which have one
symbol. -/
abbrev State.TableInv (s : State) : Prop :=
  s.codeValid = true →
    ∃ t : HTree, t.isInterior = true ∧ t.depth ≤ 255 ∧ (t.leaves.map Prod.fst).Nodup ∧
      ∀ c : Byte, s.code.read? c.toNat = some (codeOf t c)

/-- R31, R120: the queue is sorted by key, its keys fit `NFW` bits, and `PQ_COUNT <= PQ_CAP <= 256`. -/
abbrev State.QueueInv (s : State) : Prop :=
  s.pq.Pairwise (fun a b => a.key ≤ b.key) ∧ (∀ e ∈ s.pq, e.key < 2 ^ s.params.nfw) ∧
    s.pq.length ≤ s.pqCap.toNat ∧ 1 ≤ s.pqCap.toNat ∧ s.pqCap.toNat ≤ 256

/-- Every memory has its canonical form, within its space (R60). -/
abbrev State.MemInv (s : State) : Prop :=
  s.freq.wf Config.alphabet ∧ s.node.wf Config.nodeMax ∧ s.code.wf Config.alphabet ∧
    s.sym.wf s.params.symCap ∧ s.bit.wf s.params.bitCap ∧ s.byte.wf s.params.byteCap

/-- Every number kept for an `FW`- or `NFW`-bit element fits (R271); a listed count is not 0. -/
abbrev State.WidthInv (s : State) : Prop :=
  (∀ c ∈ s.freq, 0 < c.2 ∧ c.2 < 2 ^ s.params.fw) ∧ (∀ c ∈ s.node, c.2.freq < 2 ^ s.params.nfw) ∧
    s.pqKey < 2 ^ s.params.nfw ∧ s.pqOutKey < 2 ^ s.params.nfw

/-- R24, R26, R27: `DONE` and `ERR` are never both 1; the cause is recorded exactly when `ERR = 1`. -/
abbrev State.StatusInv (s : State) : Prop :=
  (s.done && s.err) = false ∧ (s.err = false → s.errCode = 0 ∧ s.errInfo = 0) ∧
    (s.err = true → 1 ≤ s.errCode.toNat ∧ s.errCode.toNat ≤ 11)

/-- What holds of every state between two steps of a run. -/
structure State.Inv (s : State) : Prop where
  /-- R62: a command is one step. -/
  seqIdle : s.seq = .idle
  /-- R7. -/
  paramsOk : s.params.ok
  mem : s.MemInv
  width : s.WidthInv
  queue : s.QueueInv
  status : s.StatusInv
  tree : s.TreeInv
  table : s.TableInv

/-- The positive counts in symbol order, with their symbols: the leaves BUILD makes (R142, R39 (d)). -/
def State.positiveCounts (s : State) : List (Byte × Nat) :=
  ((List.range Config.alphabet).filter (fun i => decide (0 < s.freqAt i))).map
    (fun i => (BitVec.ofNat 8 i, s.freqAt i))

/-- The builder's order of the queue (R141): smaller frequency first, and among equal frequencies the earlier added first
(R128). BUILD adds the leaves in ascending symbol order and then the interior slots in ascending order, so the earlier added
of two entries is the one with the smaller tag. -/
abbrev BuildOrder (q : List Entry) : Prop :=
  q.Pairwise (fun a b => a.key < b.key ∨ (a.key = b.key ∧ a.tag.toNat < b.tag.toNat))

/-- The host's next event is a write of the word `w` to `CSR[CMD]`, and the port is ready (R23, R62). -/
abbrev State.offers (s : State) (w : Word) (rest : List HostEvent) : Prop :=
  s.seq = .idle ∧ s.script = .request ⟨true, .csr, 0, w.toNat⟩ :: rest

/-- R64 (a): the request names no element. -/
abbrev Request.missing (p : Params) (r : Request) : Prop :=
  match r.space with
  | .csr => 17 < r.index
  | .freq => 256 ≤ r.index
  | .node => 511 ≤ r.index
  | .code => 256 ≤ r.index
  | .sym => p.symCap ≤ r.index
  | .bit => p.bitCap ≤ r.index
  | .byte => p.byteCap ≤ r.index

/-- R64 (b): the request writes to `NODE`, `CODE`, or one of `ERR_CODE`, `ERR_INFO`, `ROOT`, `PQ_OUT_KEY`, `PQ_OUT_TAG`,
`PQ_COUNT`, `PQ_CAP`, `ID`, `SYM_CAP_R`, `BIT_CAP_R`, `BYTE_CAP_R`. -/
abbrev Request.toReadOnly (r : Request) : Prop :=
  r.write = true ∧ (r.space = .node ∨ r.space = .code ∨
    (r.space = .csr ∧ r.index ∈ [3, 4, 8, 10, 11, 12, 13, 14, 15, 16, 17]))

/-- A location where a host write stores the whole element and does nothing else (R65, last sentence): `FREQ`, `SYM`,
`BIT`, `BYTE`, the length registers and `PQ_KEY`. -/
abbrev Request.toPlain (r : Request) : Prop :=
  r.space = .freq ∨ r.space = .sym ∨ r.space = .bit ∨ r.space = .byte ∨
    (r.space = .csr ∧ r.index ∈ [5, 6, 7, 9])

/-- The host's next event is the request `r`, and the port is ready (R62). -/
abbrev State.nextRequest (s : State) (r : Request) (rest : List HostEvent) : Prop :=
  s.seq = .idle ∧ s.script = .request r :: rest

/-- The state in which an offered command starts (R101): its request taken and answered with `err = 0` and free data,
`SEQ` BUSY, `DONE` 0. -/
def State.started (s : State) (rest : List HostEvent) : State :=
  { s with
    seq := .busy
    done := false
    script := rest
    responses := s.responses ++ [⟨false, Config.draw s.draws % 2 ^ 32⟩]
    draws := s.draws + 1 }

end Machine

end Sys2Proof
end

