-- ==== Sys2Proof/Certificates/Slice0/Obligations.lean ====
section
/-! DEFINITION. The statements for the provers. Each docstring names the rules of spec/ it formalises. -/

open Sys2Proof Sys2Proof.Machine

/-! ## Encoding (30_encoding.md) -/

/-- R94: words written out from the command map decode to the commands they stand for. -/
def Obligations.SampleWordsDecode : Prop :=
  decode 0x00000000 = .ok .nop ∧ decode 0x01000000 = .ok .reset ∧ decode 0x11000000 = .ok .freqCount ∧
  decode 0x20000100 = .ok (.pqInit 256) ∧ decode 0x210001FF = .ok (.pqAdd 511) ∧
  decode 0x22000000 = .ok .pqRemoveMin ∧ decode 0x30000000 = .ok .build ∧ decode 0x32000000 = .ok .derive ∧
  decode 0x40000000 = .ok .encode ∧ decode 0x41000000 = .ok .pack ∧ decode 0x42000000 = .ok .unpack ∧
  decode 0x43000000 = .ok .decode

/-- R91 to R95: decoding the word of a well-formed command gives the command back, with its operand. -/
def Obligations.DecodeOfEncodeIsTheCommand : Prop :=
  ∀ i : Instr, WellFormed i → decode (encode i) = .ok i

/-- R91 to R95: a word that decodes is the word of the well-formed command it decodes to, so no two words are one
command. -/
def Obligations.EncodeOfDecodeIsTheWord : Prop :=
  ∀ (w : Word) (i : Instr), decode w = .ok i → WellFormed i ∧ encode i = w

/-- R95: every word is hit by exactly one row, and decodes to that row's command, or by none, and is illegal; the rows'
`op` fields differ. -/
def Obligations.EveryWordIsOneCommandOrIllegal : Prop :=
  (∀ w : Word,
    (∃ r ∈ rows, w &&& r.mask = r.matchWord ∧
      (∀ r' ∈ rows, w &&& r'.mask = r'.matchWord → r'.mnemonic = r.mnemonic) ∧
      decode w = .ok (r.instr (w.toNat % 512))) ∨
    ((∀ r ∈ rows, w &&& r.mask ≠ r.matchWord) ∧ ∃ e, decode w = .error e)) ∧
  rows.Pairwise (fun r r' => r.matchWord.toNat / 2 ^ 24 ≠ r'.matchWord.toNat / 2 ^ 24)

/-- R96: which words are illegal, and that an accepted illegal word raises `E_ILLEGAL_CMD` with the word and changes
nothing else. -/
def Obligations.IllegalWordsFault : Prop :=
  (∀ w : Word, (∃ e, decode w = .error e) ↔
    (w.toNat / 2 ^ 24 ∉ [0x00, 0x01, 0x10, 0x11, 0x20, 0x21, 0x22, 0x30, 0x31, 0x32, 0x40, 0x41, 0x42, 0x43] ∨
     (w.toNat / 2 ^ 24 ∈ [0x00, 0x01, 0x10, 0x11, 0x22, 0x30, 0x31, 0x32, 0x40, 0x41, 0x42, 0x43] ∧
        w.toNat % 2 ^ 24 ≠ 0) ∨
     (w.toNat / 2 ^ 24 ∈ [0x20, 0x21] ∧ 512 ≤ w.toNat % 2 ^ 24))) ∧
  (∀ (s : State) (w : Word) (rest : List HostEvent), s.offers w rest → s.err = false → (∃ e, decode w = .error e) →
    step s = .next { s.started rest with errCode := 1, errInfo := w, err := true, seq := .idle })

/-! ## The life of a command, the port, reset -/

/-- R101: when the host's next event writes a word to `CMD` that decodes to `i`, and `ERR = 0` or the word is RESET, the
step is `exec i` in the state where the request has been taken and answered with `err = 0`, `SEQ` is BUSY and `DONE` is
0. -/
def Obligations.StepRunsTheOfferedCommand : Prop :=
  ∀ (s : State) (w : Word) (rest : List HostEvent) (i : Instr), s.offers w rest →
    (s.err = false ∨ w = 0x01000000) → decode w = .ok i → step s = exec i (s.started rest)

/-- The model's own choice, no rule of the spec: `withFetchWord` and `decodeTableWord` are this model's interface to the
pipeline (log 15 and log 17, DESIGN CHOICE). With `ERR = 0`, the step after the placement of a table word runs the command
the decoder reads from the word. -/
def Obligations.PlacedWordRunsNext : Prop :=
  ∀ (s : State) (nbits w : Nat) (i : Instr), s.err = false → decodeTableWord nbits w = some i →
    step (s.withFetchWord nbits w) = exec i (s.started s.script)

/-- R225: while `ERR = 1` a write of any word but RESET to `CMD` is answered and has no effect at all. -/
def Obligations.CommandsAreSkippedWhileFaulted : Prop :=
  ∀ (s : State) (w : Word) (rest : List HostEvent), s.offers w rest → s.err = true → w ≠ 0x01000000 →
    step s = .next { s.started rest with seq := s.seq, done := s.done }

/-- R62, R235, R250, R252: an idle block holds its state; a request waits while `SEQ = BUSY`; `rst` gives the reset state
whatever `SEQ` is. -/
def Obligations.EventsOutsideCommands : Prop :=
  (∀ s : State, s.script = [] → step s = .next s) ∧
  (∀ (s : State) (r : Request) (rest : List HostEvent), s.script = .request r :: rest → s.seq = .busy →
    step s = .next s) ∧
  (∀ (s : State) (rest : List HostEvent), s.script = .rst :: rest →
    step s = .next { State.reset with
      params := s.params, draws := s.draws, script := rest, responses := s.responses })

/-- R61: a taken request gets exactly one response, after all earlier ones, with `err` as R64 says. -/
def Obligations.OneResponsePerRequest : Prop :=
  ∀ (s t : State) (r : Request) (rest : List HostEvent), s.nextRequest r rest → step s = .next t →
    t.script = rest ∧ ∃ a : Response, t.responses = s.responses ++ [a] ∧
      (a.err = true ↔ (r.missing s.params ∨ r.toReadOnly))

/-- R64: a request for a missing element, or a write to a read-only location, is answered with `err = 1`, `rdata = 0`
and changes no state; every other request is not refused. -/
def Obligations.RefusedAccessesChangeNothing : Prop :=
  (∀ (s : State) (r : Request) (rest : List HostEvent), s.nextRequest r rest →
    (r.missing s.params ∨ r.toReadOnly) →
    step s = .next { s with script := rest, responses := s.responses ++ [⟨true, 0⟩] }) ∧
  (∀ (s t : State) (r : Request) (rest : List HostEvent), s.nextRequest r rest →
    ¬ r.missing s.params → ¬ r.toReadOnly → step s = .next t →
    ∃ v, t.responses = s.responses ++ [⟨false, v⟩])

/-- R63: a read that passes the checks answers the element and changes no state; where the element is unspecified the
answer is a value of the element's width that nothing constrains (the model's free value, log 4). -/
def Obligations.ReadsAnswerTheElement : Prop :=
  ∀ (s : State) (sp : Space) (i d : Nat) (rest : List HostEvent), s.nextRequest ⟨false, sp, i, d⟩ rest →
    ¬ Request.missing s.params ⟨false, sp, i, d⟩ →
    (∀ v, s.readElement sp i = some v →
      step s = .next { s with script := rest, responses := s.responses ++ [⟨false, v⟩] }) ∧
    (s.readElement sp i = none → ∃ v, v < 2 ^ sp.width s.params i ∧
      step s = .next { s with
        script := rest, responses := s.responses ++ [⟨false, v⟩], draws := s.draws + 1 })

/-- R22 to R33: the read value of every CSR but the fields of `STATUS`. -/
def Obligations.CsrReadValues : Prop :=
  ∀ s : State,
    s.readElement .csr 0 = some 0 ∧
    s.readElement .csr 2 = some (if s.ie then 1 else 0) ∧
    s.readElement .csr 3 = some s.errCode.toNat ∧ s.readElement .csr 4 = some s.errInfo.toNat ∧
    s.readElement .csr 5 = some s.symLen.toNat ∧ s.readElement .csr 6 = some s.bitLen.toNat ∧
    s.readElement .csr 7 = some s.byteLen.toNat ∧ s.readElement .csr 8 = some s.root.toNat ∧
    s.readElement .csr 9 = some s.pqKey ∧ s.readElement .csr 10 = some s.pqOutKey ∧
    s.readElement .csr 11 = some s.pqOutTag.toNat ∧ s.readElement .csr 12 = some s.pq.length ∧
    s.readElement .csr 13 = some s.pqCap.toNat ∧ s.readElement .csr 14 = some 0x48433100 ∧
    s.readElement .csr 15 = some s.params.symCap ∧ s.readElement .csr 16 = some s.params.bitCap ∧
    s.readElement .csr 17 = some s.params.byteCap

/-- R24: the fields of `STATUS` as read, reserved bits 0; a host write clears `DONE` when bit 0 is 1 and does nothing
else. -/
def Obligations.StatusRegister : Prop :=
  (∀ s : State, ∃ v, s.readElement .csr 1 = some v ∧
    v.testBit 0 = s.done ∧ v.testBit 1 = s.err ∧ v.testBit 2 = s.treeValid ∧ v.testBit 3 = s.codeValid ∧
    v.testBit 4 = decide (s.pq.length = 0) ∧ v.testBit 5 = decide (s.pq.length = s.pqCap.toNat) ∧
    ∀ j, 6 ≤ j → v.testBit j = false) ∧
  (∀ (s : State) (v : Nat) (rest : List HostEvent), s.nextRequest ⟨true, .csr, 1, v⟩ rest →
    ∃ a, step s = .next { s with
      done := s.done && !v.testBit 0, script := rest
      responses := s.responses ++ [⟨false, a⟩], draws := s.draws + 1 })

/-- R25, R227: a host write to `CTRL` stores bit 0 into `IE` and ignores the rest, which reads as 0; `irq` is `IE` and
(`DONE` or `ERR`). -/
def Obligations.ControlRegisterAndInterruptLine : Prop :=
  (∀ (s : State) (v : Nat) (rest : List HostEvent), s.nextRequest ⟨true, .csr, 2, v⟩ rest →
    ∃ a t, step s = .next t ∧ t.readElement .csr 2 = some (v % 2) ∧
      t = { s with
        ie := v.testBit 0, script := rest
        responses := s.responses ++ [⟨false, a⟩], draws := s.draws + 1 }) ∧
  (∀ s : State, s.irq = true ↔ (s.ie = true ∧ (s.done = true ∨ s.err = true)))

/-- R63, R65, R273: a host write to a plain location stores the element, so that it reads back; every other location
reads as before, and nothing but the location's space or register changes. -/
def Obligations.PlainWritesStoreOneElement : Prop :=
  ∀ (s : State) (r : Request) (rest : List HostEvent), s.nextRequest r rest → r.write = true → r.toPlain →
    ¬ r.missing s.params →
    ∃ t, step s = .next t ∧
      t.readElement r.space r.index = some (r.wdata % 2 ^ r.space.width s.params r.index) ∧
      (∀ sp i, (sp, i) ≠ (r.space, r.index) → t.readElement sp i = s.readElement sp i) ∧
      t = { s with
        freq := t.freq, sym := t.sym, bit := t.bit, byte := t.byte
        symLen := t.symLen, bitLen := t.bitLen, byteLen := t.byteLen, pqKey := t.pqKey
        script := rest, responses := t.responses, draws := t.draws }

/-- R101, R227: an accepted command other than RESET ends with the port ready and exactly one of `DONE` and `ERR` set,
so `irq` is then high exactly when `IE` is 1. -/
def Obligations.AcceptedCommandEndsDoneOrFaulted : Prop :=
  ∀ (s t : State) (w : Word) (rest : List HostEvent), s.offers w rest → s.err = false → w ≠ 0x01000000 →
    step s = .next t →
    t.seq = .idle ∧ t.done = !t.err ∧ t.ie = s.ie ∧ t.irq = s.ie ∧ t.script = rest

/-- R94, column "writes": which commands other than RESET can change which state. -/
def Obligations.OnlyListedCommandsWrite : Prop :=
  ∀ (i : Instr) (s t : State), exec i s = .next t → i ≠ .reset →
    (i ≠ .freqClear → i ≠ .freqCount → t.freq = s.freq) ∧
    (i ≠ .build → t.node = s.node) ∧
    (i ≠ .derive → t.code = s.code ∧ t.codeValid = s.codeValid) ∧
    (i ≠ .build → i ≠ .treeRelease → t.root = s.root ∧ t.treeValid = s.treeValid) ∧
    (i ≠ .build → (∀ n, i ≠ .pqInit n) → t.pqCap = s.pqCap) ∧
    (i ≠ .build → i ≠ .pqRemoveMin → (∀ n, i ≠ .pqInit n) → (∀ n, i ≠ .pqAdd n) → t.pq = s.pq) ∧
    (i ≠ .pqRemoveMin → t.pqOutKey = s.pqOutKey ∧ t.pqOutTag = s.pqOutTag) ∧
    (i ≠ .decode → t.sym = s.sym ∧ t.symLen = s.symLen) ∧
    (i ≠ .encode → i ≠ .unpack → t.bit = s.bit ∧ t.bitLen = s.bitLen) ∧
    (i ≠ .pack → t.byte = s.byte ∧ t.byteLen = s.byteLen) ∧
    t.pqKey = s.pqKey ∧ t.ie = s.ie ∧ t.params = s.params ∧ t.script = s.script ∧ t.responses = s.responses

/-- R223: what each faulting command leaves, besides `ERR`, `ERR_CODE`, `ERR_INFO` and `SEQ`; every fault is one of the
command's causes of R221. An unspecified memory is one with nothing listed. -/
def Obligations.FaultingCommandLeaves : Prop :=
  (∀ (i : Instr) (s t : State), s.err = false → exec i s = .next t → t.err = true →
    match i with
    | .pqInit _ => t = { s with errCode := 2, errInfo := t.errInfo, err := true, seq := .idle }
    | .pqAdd _ => t = { s with errCode := 3, errInfo := t.errInfo, err := true, seq := .idle }
    | .pqRemoveMin => t = { s with errCode := 4, errInfo := 0, err := true, seq := .idle }
    | .freqCount => t = { s with errCode := 9, errInfo := t.errInfo, err := true, seq := .idle }
    | .build => t = { s with
        treeValid := false, root := 511, errCode := 5, errInfo := t.errInfo, err := true, seq := .idle }
    | .derive => t = { s with codeValid := false, errCode := 6, errInfo := 0, err := true, seq := .idle }
    | .encode => t.errCode.toNat ∈ [7, 8, 9, 10] ∧ t = { s with
        bitLen := 0, bit := [], draws := t.draws
        errCode := t.errCode, errInfo := t.errInfo, err := true, seq := .idle }
    | .pack => t.errCode.toNat ∈ [9, 10] ∧ t = { s with
        byteLen := 0, byte := [], errCode := t.errCode, errInfo := t.errInfo, err := true, seq := .idle }
    | .unpack => t.errCode.toNat ∈ [9, 10] ∧ t = { s with
        bitLen := 0, bit := [], errCode := t.errCode, errInfo := t.errInfo, err := true, seq := .idle }
    | .decode => t.errCode.toNat ∈ [6, 9, 10, 11] ∧ t = { s with
        symLen := 0, sym := [], draws := t.draws
        errCode := t.errCode, errInfo := t.errInfo, err := true, seq := .idle }
    | .nop => False
    | .reset => False
    | .freqClear => False
    | .treeRelease => False) ∧
  (∀ (s : State) (w : Word) (rest : List HostEvent), s.offers w rest → s.err = false → (∃ e, decode w = .error e) →
    step s = .next { s.started rest with errCode := 1, errInfo := w, err := true, seq := .idle })

/-- R226: while `ERR = 1` the recorded fault stays, until RESET is written or `rst` asserted. -/
def Obligations.FaultIsStickyUntilReset : Prop :=
  ∀ s t : State, s.err = true → step s = .next t →
    (t.err = true ∧ t.errCode = s.errCode ∧ t.errInfo = s.errInfo) ∨
    (∃ rest, s.script = .rst :: rest) ∨
    (∃ v rest, s.script = .request ⟨true, .csr, 0, v⟩ :: rest ∧ BitVec.ofNat 32 v = (0x01000000 : Word))

/-- R22, R49, R251: the reset state, as the host reads it. Nothing is listed in the five unspecified memories. That CSR 15,
16 and 17 read 65536, 524288 and 65536 rests on the model's choice that `State.reset` has the default parameters of R7
(log 3 and log 19, DESIGN CHOICE). -/
def Obligations.ResetStateValues : Prop :=
  State.reset.seq = .idle ∧
  State.reset.readElement .csr 0 = some 0 ∧ State.reset.readElement .csr 14 = some 0x48433100 ∧
  State.reset.readElement .csr 15 = some 65536 ∧ State.reset.readElement .csr 16 = some 524288 ∧
  State.reset.readElement .csr 17 = some 65536 ∧
  State.reset.readElement .csr 1 = some 0x10 ∧ State.reset.readElement .csr 2 = some 0 ∧
  State.reset.readElement .csr 3 = some 0 ∧ State.reset.readElement .csr 4 = some 0 ∧
  State.reset.readElement .csr 5 = some 0 ∧ State.reset.readElement .csr 6 = some 0 ∧
  State.reset.readElement .csr 7 = some 0 ∧ State.reset.readElement .csr 8 = some 511 ∧
  State.reset.readElement .csr 9 = some 0 ∧ State.reset.readElement .csr 10 = some 0 ∧
  State.reset.readElement .csr 11 = some 0 ∧ State.reset.readElement .csr 12 = some 0 ∧
  State.reset.readElement .csr 13 = some 256 ∧ (∀ i, State.reset.readElement .freq i = some 0) ∧
  State.reset.pq = [] ∧ State.reset.irq = false ∧ State.reset.busy = false ∧ State.reset.reqReady = true ∧
  (∀ i, State.reset.readElement .node i = none ∧ State.reset.readElement .code i = none ∧
    State.reset.readElement .sym i = none ∧ State.reset.readElement .bit i = none ∧
    State.reset.readElement .byte i = none)

/-! ## Control (40_control.md) -/

/-- R110: NOP completes and changes nothing but `DONE` (and `SEQ`, R101). -/
def Obligations.NopCompletes : Prop :=
  ∀ s : State, exec .nop s = .next { s with done := true, seq := .idle }

/-- R111, R226: RESET gives the reset state, from every state, faulted ones included, without setting `DONE`: `STATUS`
reads `0x00000010` and `irq` is low. Only the word `0x01000000` is RESET. -/
def Obligations.ResetCommandGivesResetState : Prop :=
  (∀ s : State, ∃ t, exec .reset s = .next t ∧
    t = { State.reset with
      params := s.params, draws := s.draws, script := s.script, responses := s.responses }) ∧
  (∀ (s : State) (rest : List HostEvent), s.offers 0x01000000 rest → ∃ t, step s = .next t ∧
    t.readElement .csr 1 = some 0x10 ∧ t.irq = false ∧ t.errCode = 0 ∧ t.errInfo = 0 ∧ t.seq = .idle ∧
    t.script = rest) ∧
  (∀ w : Word, decode w = .ok .reset ↔ w = 0x01000000)

/-! ## The frequency table (46_frequency.md) -/

/-- R190: FREQ_CLEAR makes every count 0 and changes nothing else. -/
def Obligations.FreqClearZeroesTheTable : Prop :=
  ∀ s : State, ∃ t, exec .freqClear s = .next t ∧ (∀ i, t.readElement .freq i = some 0) ∧
    t = { s with freq := t.freq, done := true, seq := .idle }

/-- R191: FREQ_COUNT leaves in `FREQ[c]` the number of `c` in `SYM[0 .. SYM_LEN)`, the counts summing to `SYM_LEN`, or
faults with `E_LEN` when `SYM_LEN` exceeds the buffer. -/
def Obligations.FreqCountTallies : Prop :=
  ∀ s : State, s.params.ok →
    (s.symLen.toNat ≤ s.params.symCap →
      ∃ t, exec .freqCount s = .next t ∧
        (∀ c : Byte, t.readElement .freq c.toNat = some ((s.symInput s.symLen.toNat).count c)) ∧
        ((List.range 256).map t.freqAt).sum = s.symLen.toNat ∧
        t = { s with freq := t.freq, draws := t.draws, done := true, seq := .idle }) ∧
    (s.params.symCap < s.symLen.toNat →
      exec .freqCount s = .next { s with errCode := 9, errInfo := s.symLen, err := true, seq := .idle })

/-! ## The priority queue (41_priority_queue.md) -/

/-- R125: PQ_INIT empties the queue and sets its capacity, for 1 to 256; otherwise it faults with `E_ARG` and the command
word. -/
def Obligations.PqInitSetsCapacity : Prop :=
  ∀ (n9 : Nat) (s : State), n9 < 512 →
    (1 ≤ n9 → n9 ≤ 256 → ∃ t, exec (.pqInit n9) s = .next t ∧ t.pqCap.toNat = n9 ∧
      t.pqEmpty = true ∧ t.pqFull = false ∧
      t = { s with pq := [], pqCap := t.pqCap, done := true, seq := .idle }) ∧
    (n9 = 0 ∨ 256 < n9 → ∃ w, exec (.pqInit n9) s = .next { s with
      errCode := 2, errInfo := w, err := true, seq := .idle } ∧ w.toNat = 0x20000000 + n9)

/-- R126, R121: in a sorted queue that is not full PQ_ADD puts (`PQ_KEY`, `n9`) behind every entry whose key is not above
`PQ_KEY` and before the others; on a full queue it faults with `E_PQ_FULL` and `PQ_COUNT`. -/
def Obligations.PqAddInsertsBehindEqualKeys : Prop :=
  ∀ (n9 : Nat) (s : State), n9 < 512 → s.pq.Pairwise (fun a b => a.key ≤ b.key) →
    s.pq.length ≤ s.pqCap.toNat →
    (s.pq.length < s.pqCap.toNat → ∃ (before after : List Entry) (e : Entry),
      exec (.pqAdd n9) s = .next { s with pq := before ++ e :: after, done := true, seq := .idle } ∧
      s.pq = before ++ after ∧ e.key = s.pqKey ∧ e.tag.toNat = n9 ∧
      (∀ a ∈ before, a.key ≤ s.pqKey) ∧ (∀ b ∈ after, s.pqKey < b.key)) ∧
    (s.pq.length = s.pqCap.toNat → ∃ w, exec (.pqAdd n9) s = .next { s with
      errCode := 3, errInfo := w, err := true, seq := .idle } ∧ w.toNat = s.pq.length)

/-- R127, R122: PQ_REMOVE_MIN takes out the first entry, whose key is the smallest of a sorted queue, and writes it to
`PQ_OUT_KEY` and `PQ_OUT_TAG`; on an empty queue it faults with `E_PQ_EMPTY`. -/
def Obligations.PqRemoveMinTakesTheFirst : Prop :=
  (∀ (s : State) (e : Entry) (rest : List Entry), s.pq = e :: rest →
    s.pq.Pairwise (fun a b => a.key ≤ b.key) →
    exec .pqRemoveMin s = .next { s with
      pq := rest, pqOutKey := e.key, pqOutTag := e.tag, done := true, seq := .idle } ∧
    ∀ a ∈ s.pq, e.key ≤ a.key) ∧
  (∀ s : State, s.pq = [] →
    exec .pqRemoveMin s = .next { s with errCode := 4, errInfo := 0, err := true, seq := .idle })

/-- R120, R128: entries added one after another to an empty queue stand in it sorted by key, equal keys in the order
added: the queue is the stable sort of the entries. -/
def Obligations.QueueIsTheStableSort : Prop :=
  ∀ l : List Entry,
    l.foldl (fun q e => pqAdd q e.key e.tag) [] = l.mergeSort (fun a b => decide (a.key ≤ b.key))

/-! ## The tree builder (42_tree_builder.md) -/

/-- R146: with fewer than two positive counts BUILD faults with `E_ALPHABET` and their number, releasing the tree and
writing neither the queue nor a node. -/
def Obligations.BuildNeedsTwoSymbols : Prop :=
  ∀ s : State, s.positiveCounts.length < 2 → ∃ w,
    exec .build s = .next { s with
      treeValid := false, root := 511, errCode := 5, errInfo := w, err := true, seq := .idle } ∧
    w.toNat = s.positiveCounts.length

/-- R140, R142, R145, R147 (a), (d), (i): with `n` positive counts, at least two, BUILD completes with the root in slot
`256 + n - 2`, the queue empty at capacity 256, every leaf slot written, and no slot above the root. -/
def Obligations.BuildCompletes : Prop :=
  ∀ s : State, 2 ≤ s.positiveCounts.length → ∃ t, exec .build s = .next t ∧
    t.root.toNat = 256 + s.positiveCounts.length - 2 ∧
    (∀ i, i < 256 → t.node.read? i = some ⟨s.freqAt i, .leaf, BitVec.ofNat 8 i, 511, 511⟩) ∧
    (∀ i, t.root.toNat < i → t.node.read? i = s.node.read? i) ∧
    t = { s with
      node := t.node, root := t.root, treeValid := true, pq := [], pqCap := 256, done := true, seq := .idle }

/-- R143, R144, R147 (e): every slot BUILD merges holds an interior node over two earlier slots, its frequency the exact
sum of theirs, the left one's not above the right one's. R128, R141, R145: `queue j` is the queue before merge `j`. It starts
as the leaves with a positive count and always stands in the builder's order: smaller frequency first, among equal
frequencies leaves before interior nodes, leaves in ascending symbol order, interior nodes in the order they were created.
Merge `j` takes the first two entries, the first removed as the LEFT child of slot `256 + j`, the second as its RIGHT child,
and adds that slot; the one entry left after the last merge is the root. -/
def Obligations.BuildMergesExactSums : Prop :=
  ∀ s t : State, (∀ i, i < 256 → s.freqAt i < 2 ^ s.params.fw) → 2 ≤ s.positiveCounts.length →
    exec .build s = .next t →
    (∀ j, 256 ≤ j → j ≤ t.root.toNat →
      ∃ n l r, t.node.read? j = some n ∧ n.kind = .interior ∧ n.sym = 0 ∧
        n.left.toNat < j ∧ n.right.toNat < j ∧
        t.node.read? n.left.toNat = some l ∧ t.node.read? n.right.toNat = some r ∧
        n.freq = l.freq + r.freq ∧ l.freq ≤ r.freq) ∧
    ∃ queue : Nat → List Entry,
      (queue 0).Perm (s.positiveCounts.map fun c => ⟨c.2, BitVec.ofNat 9 c.1.toNat⟩) ∧
      (∀ j, j < s.positiveCounts.length → BuildOrder (queue j)) ∧
      (∀ j, j + 1 < s.positiveCounts.length → ∃ a b rest, queue j = a :: b :: rest ∧
        t.node.read? (256 + j) = some ⟨a.key + b.key, .interior, 0, a.tag, b.tag⟩ ∧
        (queue (j + 1)).Perm (⟨a.key + b.key, BitVec.ofNat 9 (256 + j)⟩ :: rest)) ∧
      (queue (s.positiveCounts.length - 1)).map Entry.tag = [t.root]

/-- R147 (f), (g), R39 (a) to (e): the store BUILD leaves reads as a well-formed tree with an interior root, whose leaves
are exactly the symbols with a positive count, each with its count, none reached twice, each in its symbol's slot, and
whose frequency is the sum of all counts. -/
def Obligations.BuildTreeIsWellFormed : Prop :=
  ∀ s : State, (∀ i, i < 256 → s.freqAt i < 2 ^ s.params.fw) → 2 ≤ s.positiveCounts.length →
    ∃ t tr, exec .build s = .next t ∧ t.tree = some tr ∧ tr.wf = true ∧ tr.isInterior = true ∧
      tr.leaves.Perm s.positiveCounts ∧ t.treeSlots.Nodup ∧ t.leavesAtHome ∧
      tr.freq = ((List.range 256).map s.freqAt).sum

/-- R147 (k): BUILD is a function of `FREQ` alone. -/
def Obligations.BuildDependsOnFreqOnly : Prop :=
  ∀ s s' : State, s.params.fw = s'.params.fw → (∀ i, i < 256 → s.freqAt i = s'.freqAt i) →
    2 ≤ s.positiveCounts.length →
    ∃ t t', exec .build s = .next t ∧ exec .build s' = .next t' ∧ t.root = t'.root ∧
      ∀ j, j ≤ t.root.toNat → t.node.read? j = t'.node.read? j

/-- R147 (j): no binary tree with the same leaves has a smaller sum of depth times count than the tree BUILD leaves. -/
def Obligations.BuildTreeIsOptimal : Prop :=
  ∀ (s t : State) (tr u : HTree), (∀ i, i < 256 → s.freqAt i < 2 ^ s.params.fw) →
    2 ≤ s.positiveCounts.length → exec .build s = .next t → t.tree = some tr →
    u.leaves.Perm s.positiveCounts → tr.costAt 0 ≤ u.costAt 0

/-- R148: TREE_RELEASE clears `TREE_VALID`, sets `ROOT` to `NIL`, and changes nothing else. -/
def Obligations.TreeReleaseDropsTheTree : Prop :=
  ∀ s : State, exec .treeRelease s = .next { s with
    treeValid := false, root := 511, done := true, seq := .idle }

/-! ## The code table (43_code_table.md) -/

/-- R160, R162 (a), (b): DERIVE leaves in `CODE[c]` the turns from the root to the leaf of `c`, first turn in bit 254, at
least one and at most 255 of them, and `LEN = 0` for a symbol without a leaf; without a tree it faults with
`E_NO_TREE`. -/
def Obligations.DeriveRecordsThePaths : Prop :=
  ∀ s : State, s.TreeInv →
    (s.treeValid = true → ∃ t tr, s.tree = some tr ∧ exec .derive s = .next t ∧
      (∀ (c : Byte) (p : List Bool), tr.path? c = some p → ∃ e, t.code.read? c.toNat = some e ∧
        1 ≤ p.length ∧ p.length ≤ 255 ∧ e.len.toNat = p.length ∧
        ∀ j, j < 255 → e.bits.getLsbD (254 - j) = p.getD j false) ∧
      (∀ c : Byte, tr.path? c = none → t.code.read? c.toNat = some ⟨0, 0⟩) ∧
      t = { s with code := t.code, codeValid := true, done := true, seq := .idle }) ∧
    (s.treeValid = false → exec .derive s = .next { s with
      codeValid := false, errCode := 6, errInfo := 0, err := true, seq := .idle })

/-- R41 (c), R162 (c): in a valid code table no code is a prefix of another symbol's code. -/
def Obligations.CodesArePrefixFree : Prop :=
  ∀ s : State, s.TableInv → s.codeValid = true → ∀ (c c' : Byte) (e e' : Code), c ≠ c' →
    s.code.read? c.toNat = some e → s.code.read? c'.toNat = some e' → e.len ≠ 0 → e'.len ≠ 0 →
    ¬ e.string <+: e'.string

/-- R162 (d): the codes of a valid table are complete: the sum over the set entries of `2^(-LEN)` is 1, here scaled by
`2^255`. -/
def Obligations.CodesAreComplete : Prop :=
  ∀ s : State, s.TableInv → s.codeValid = true →
    ((List.range 256).map (fun i =>
      match s.code.read? i with
      | some e => if e.len = 0 then 0 else 2 ^ (255 - e.len.toNat)
      | none => 0)).sum = 2 ^ 255

/-! ## The encoder (44_encoder.md) -/

/-- R170: when every symbol has a code and the codes fit, ENCODE leaves in `BIT` the codes in order, `BIT_LEN` bits of
them, every element above unspecified, and changes nothing else. -/
def Obligations.EncodeConcatenatesTheCodes : Prop :=
  ∀ s : State, s.params.ok → s.codeValid = true → s.symLen.toNat ≤ s.params.symCap →
    (∀ c ∈ s.codeInput s.symLen.toNat, c.len ≠ 0) →
    ((s.codeInput s.symLen.toNat).map (fun c => c.len.toNat)).sum ≤ s.params.bitCap →
    ∃ t, exec .encode s = .next t ∧
      t.bitLen.toNat = ((s.codeInput s.symLen.toNat).map (fun c => c.len.toNat)).sum ∧
      (∀ i, t.bit.read? i = ((s.codeInput s.symLen.toNat).flatMap Code.string)[i]?) ∧
      (∀ i, t.bitLen.toNat ≤ i → t.bit.read? i = none) ∧
      t = { s with bit := t.bit, bitLen := t.bitLen, draws := t.draws, done := true, seq := .idle }

/-- R170, R171, R172: ENCODE faults at the first symbol that has no code (`E_NO_CODE`) or whose code does not fit
(`E_OVERFLOW`), with that symbol's position. -/
def Obligations.EncodeFaultsAtTheFirstBadSymbol : Prop :=
  ∀ (s : State) (j : Nat) (c : Code), s.codeValid = true → s.symLen.toNat ≤ s.params.symCap →
    (s.codeInput s.symLen.toNat)[j]? = some c →
    (∀ a ∈ (s.codeInput s.symLen.toNat).take j, a.len ≠ 0) →
    (((s.codeInput s.symLen.toNat).take j).map (fun a => a.len.toNat)).sum ≤ s.params.bitCap →
    (c.len = 0 → ∃ d w, w.toNat = j ∧ exec .encode s = .next { s with
      bitLen := 0, bit := [], draws := d, errCode := 8, errInfo := w, err := true, seq := .idle }) ∧
    (c.len ≠ 0 →
      s.params.bitCap < (((s.codeInput s.symLen.toNat).take (j + 1)).map (fun a => a.len.toNat)).sum →
      ∃ d w, w.toNat = j ∧ exec .encode s = .next { s with
        bitLen := 0, bit := [], draws := d, errCode := 10, errInfo := w, err := true, seq := .idle })

/-! ## The decoder (45_decoder.md) -/

/-- R180: a bit string that is the concatenation of the paths of the symbols `q` decodes to `q`, later elements of `SYM`
unchanged, or faults with `E_OVERFLOW(|q|)` when `q` does not fit `SYM`. -/
def Obligations.DecodeInvertsTheCodes : Prop :=
  ∀ (s : State) (tr : HTree) (q : List Byte), s.params.ok → s.TreeInv → s.treeValid = true → s.tree = some tr →
    s.bitLen.toNat ≤ s.params.bitCap → (∀ c ∈ q, (tr.path? c).isSome = true) →
    s.bitInput s.bitLen.toNat = q.flatMap (fun c => (tr.path? c).getD []) →
    (q.length ≤ s.params.symCap → ∃ t, exec .decode s = .next t ∧ t.symLen.toNat = q.length ∧
      (∀ i, t.sym.read? i = if i < q.length then q[i]? else s.sym.read? i) ∧
      t = { s with sym := t.sym, symLen := t.symLen, draws := t.draws, done := true, seq := .idle }) ∧
    (s.params.symCap < q.length → ∃ d w, w.toNat = q.length ∧ exec .decode s = .next { s with
      symLen := 0, sym := [], draws := d, errCode := 10, errInfo := w, err := true, seq := .idle })

/-- R180: a bit string that ends inside a code, after the codes of the symbols `q`, faults with `E_CORRUPT(|q|)`. -/
def Obligations.DecodeDetectsABrokenCode : Prop :=
  ∀ (s : State) (tr : HTree) (q : List Byte) (c : Byte) (part more : List Bool),
    s.params.ok → s.TreeInv → s.treeValid = true → s.tree = some tr →
    s.bitLen.toNat ≤ s.params.bitCap → (∀ a ∈ q, (tr.path? a).isSome = true) →
    tr.path? c = some (part ++ more) → part ≠ [] → more ≠ [] →
    s.bitInput s.bitLen.toNat = q.flatMap (fun a => (tr.path? a).getD []) ++ part →
    ∃ d w, w.toNat = q.length ∧ exec .decode s = .next { s with
      symLen := 0, sym := [], draws := d, errCode := 11, errInfo := w, err := true, seq := .idle }

/-- R182: zeros after the codes of the symbols `q` are data, not padding. They spell whole codes, of the symbols `more`, and
then nothing or a non-empty proper part of a code. In the first case `more` is delivered behind `q`, or DECODE faults with
`E_OVERFLOW(|q| + |more|)` where the symbols do not fit; in the second it faults with `E_CORRUPT(|q| + |more|)`. When a leaf
hangs one turn to the left of the root every zero is one more symbol. -/
def Obligations.PaddingIsDecodedAsData : Prop :=
  ∀ (s : State) (tr : HTree) (q : List Byte) (n : Nat), s.params.ok → s.TreeInv → s.treeValid = true →
    s.tree = some tr → s.bitLen.toNat ≤ s.params.bitCap → (∀ c ∈ q, (tr.path? c).isSome = true) →
    s.bitInput s.bitLen.toNat = q.flatMap (fun c => (tr.path? c).getD []) ++ List.replicate n false →
    (∃ (more : List Byte) (part : List Bool), more.length ≤ n ∧ (∀ c ∈ more, (tr.path? c).isSome = true) ∧
      more.flatMap (fun c => (tr.path? c).getD []) ++ part = List.replicate n false ∧
      ((part = [] ∧ q.length + more.length ≤ s.params.symCap ∧
          ∃ t, exec .decode s = .next t ∧ t.symLen.toNat = q.length + more.length ∧
            (∀ i, t.sym.read? i = if i < q.length + more.length then (q ++ more)[i]? else s.sym.read? i) ∧
            t = { s with sym := t.sym, symLen := t.symLen, draws := t.draws, done := true, seq := .idle }) ∨
       (part = [] ∧ s.params.symCap < q.length + more.length ∧
          ∃ d w, w.toNat = q.length + more.length ∧ exec .decode s = .next { s with
            symLen := 0, sym := [], draws := d, errCode := 10, errInfo := w, err := true, seq := .idle }) ∨
       (∃ c rest, part ≠ [] ∧ rest ≠ [] ∧ tr.path? c = some (part ++ rest) ∧
          ∃ d w, w.toNat = q.length + more.length ∧ exec .decode s = .next { s with
            symLen := 0, sym := [], draws := d, errCode := 11, errInfo := w, err := true, seq := .idle }))) ∧
    (∀ c : Byte, tr.path? c = some [false] → q.length + n ≤ s.params.symCap → ∃ t, exec .decode s = .next t ∧
      t.err = s.err ∧ t.symLen.toNat = q.length + n ∧
      ∀ i, i < q.length + n → t.sym.read? i = (q ++ List.replicate n c)[i]?)

/-- R221, R224: the faults tested before any data is read: an absent tree or table, then an over-long length register,
whose value is the information word. -/
def Obligations.AbsentInputAndLengthFaults : Prop :=
  ∀ s : State,
    (s.codeValid = false → exec .encode s = .next { s with
      bitLen := 0, bit := [], errCode := 7, errInfo := 0, err := true, seq := .idle }) ∧
    (s.codeValid = true → s.params.symCap < s.symLen.toNat → exec .encode s = .next { s with
      bitLen := 0, bit := [], errCode := 9, errInfo := s.symLen, err := true, seq := .idle }) ∧
    (s.treeValid = false → exec .decode s = .next { s with
      symLen := 0, sym := [], errCode := 6, errInfo := 0, err := true, seq := .idle }) ∧
    (s.treeValid = true → s.params.bitCap < s.bitLen.toNat → exec .decode s = .next { s with
      symLen := 0, sym := [], errCode := 9, errInfo := s.bitLen, err := true, seq := .idle })

/-! ## The packer and the unpacker (47_bit_packer.md) -/

/-- R200, R202: PACK leaves `ceil(BIT_LEN / 8)` bytes, stream index `j` of byte `k` being bit `8k + j` of the string and
0 past its end, later bytes unchanged; or faults with `E_LEN` or `E_OVERFLOW`. -/
def Obligations.PackPutsEightBitsToAByte : Prop :=
  ∀ s : State, s.params.ok →
    (s.params.bitCap < s.bitLen.toNat → exec .pack s = .next { s with
      byteLen := 0, byte := [], errCode := 9, errInfo := s.bitLen, err := true, seq := .idle }) ∧
    (s.bitLen.toNat ≤ s.params.bitCap → s.params.byteCap < (s.bitLen.toNat + 7) / 8 →
      ∃ w, w.toNat = (s.bitLen.toNat + 7) / 8 ∧ exec .pack s = .next { s with
        byteLen := 0, byte := [], errCode := 10, errInfo := w, err := true, seq := .idle }) ∧
    (s.bitLen.toNat ≤ s.params.bitCap → (s.bitLen.toNat + 7) / 8 ≤ s.params.byteCap →
      ∃ t, exec .pack s = .next t ∧ t.byteLen.toNat = (s.bitLen.toNat + 7) / 8 ∧
        (∀ k, k < t.byteLen.toNat → ∃ y, t.byte.read? k = some y ∧
          ∀ j, j < 8 → y.getLsbD (7 - j) = (s.bitInput s.bitLen.toNat).getD (8 * k + j) false) ∧
        (∀ k, t.byteLen.toNat ≤ k → t.byte.read? k = s.byte.read? k) ∧
        t = { s with byte := t.byte, byteLen := t.byteLen, draws := t.draws, done := true, seq := .idle })

/-- R201: UNPACK leaves `8 * BYTE_LEN` bits, bit `i` of the string being bit `7 - (i mod 8)` of byte `i div 8`, later bits
unchanged; or faults with `E_LEN` or `E_OVERFLOW`. -/
def Obligations.UnpackTakesTheBitsOfTheBytes : Prop :=
  ∀ s : State, s.params.ok →
    (s.params.byteCap < s.byteLen.toNat → exec .unpack s = .next { s with
      bitLen := 0, bit := [], errCode := 9, errInfo := s.byteLen, err := true, seq := .idle }) ∧
    (s.byteLen.toNat ≤ s.params.byteCap → s.params.bitCap < 8 * s.byteLen.toNat →
      ∃ w, w.toNat = 8 * s.byteLen.toNat ∧ exec .unpack s = .next { s with
        bitLen := 0, bit := [], errCode := 10, errInfo := w, err := true, seq := .idle }) ∧
    (s.byteLen.toNat ≤ s.params.byteCap → 8 * s.byteLen.toNat ≤ s.params.bitCap →
      ∃ t, exec .unpack s = .next t ∧ t.bitLen.toNat = 8 * s.byteLen.toNat ∧
        (∀ i, i < t.bitLen.toNat →
          t.bit.read? i = some (((s.byteInput s.byteLen.toNat).getD (i / 8) 0).getLsbD (7 - i % 8))) ∧
        (∀ i, t.bitLen.toNat ≤ i → t.bit.read? i = s.bit.read? i) ∧
        t = { s with bit := t.bit, bitLen := t.bitLen, draws := t.draws, done := true, seq := .idle })

/-- R203: PACK then UNPACK reproduces the bit string, zero padded to whole bytes; UNPACK then PACK reproduces the
bytes. -/
def Obligations.PackAndUnpackRoundTrip : Prop :=
  (∀ s : State, s.params.ok → s.bitLen.toNat ≤ s.params.bitCap →
    (s.bitLen.toNat + 7) / 8 ≤ s.params.byteCap → 8 * ((s.bitLen.toNat + 7) / 8) ≤ s.params.bitCap →
    (∀ i, i < s.bitLen.toNat → (s.bit.read? i).isSome = true) →
    ∃ t u, exec .pack s = .next t ∧ exec .unpack t = .next u ∧
      u.bitLen.toNat = 8 * ((s.bitLen.toNat + 7) / 8) ∧
      (∀ i, i < s.bitLen.toNat → u.bit.read? i = s.bit.read? i) ∧
      (∀ i, s.bitLen.toNat ≤ i → i < u.bitLen.toNat → u.bit.read? i = some false)) ∧
  (∀ s : State, s.params.ok → s.byteLen.toNat ≤ s.params.byteCap → 8 * s.byteLen.toNat ≤ s.params.bitCap →
    (∀ k, k < s.byteLen.toNat → (s.byte.read? k).isSome = true) →
    ∃ t u, exec .unpack s = .next t ∧ exec .pack t = .next u ∧ u.byteLen = s.byteLen ∧
      ∀ k, k < s.byteLen.toNat → u.byte.read? k = s.byte.read? k)

/-- R183: FREQ_COUNT, BUILD, DERIVE, ENCODE and then DECODE reproduce a written symbol sequence with at least two
distinct symbols, if no capacity fault occurs. -/
def Obligations.CompressThenDecodeRoundTrip : Prop :=
  ∀ s s1 s2 s3 s4 : State, s.Inv → s.err = false → s.symLen.toNat ≤ s.params.symCap →
    (∀ i, i < s.symLen.toNat → (s.sym.read? i).isSome = true) →
    (∃ i j, i < s.symLen.toNat ∧ j < s.symLen.toNat ∧ s.sym.read? i ≠ s.sym.read? j) →
    exec .freqCount s = .next s1 → exec .build s1 = .next s2 → exec .derive s2 = .next s3 →
    exec .encode s3 = .next s4 → s4.err = false →
    ∃ s5, exec .decode s4 = .next s5 ∧ s5.err = false ∧ s5.symLen = s.symLen ∧
      ∀ i, i < s.symLen.toNat → s5.sym.read? i = s.sym.read? i

/-- R183, R203, R255, R257: what one block compresses (FREQ_COUNT, BUILD, DERIVE, ENCODE, PACK), another block with the
same parameters, counts and bytes decompresses to the same symbols (BUILD, UNPACK, a write of the true length to
`BIT_LEN`, DECODE), if no fault occurs on the way. -/
def Obligations.AnotherBlockDecompresses : Prop :=
  ∀ s s1 s2 s3 s4 s5 r r1 r2 : State, s.Inv → s.err = false → s.symLen.toNat ≤ s.params.symCap →
    (∀ i, i < s.symLen.toNat → (s.sym.read? i).isSome = true) →
    exec .freqCount s = .next s1 → exec .build s1 = .next s2 → exec .derive s2 = .next s3 →
    exec .encode s3 = .next s4 → exec .pack s4 = .next s5 → s5.err = false →
    r.Inv → r.err = false → r.params = s.params → (∀ i, i < 256 → r.freqAt i = s1.freqAt i) →
    r.byteLen = s5.byteLen → (∀ k, k < s5.byteLen.toNat → r.byte.read? k = s5.byte.read? k) →
    exec .build r = .next r1 → exec .unpack r1 = .next r2 → r2.err = false →
    ∃ r3, exec .decode { r2 with bitLen := s4.bitLen } = .next r3 ∧ r3.err = false ∧ r3.symLen = s.symLen ∧
      ∀ i, i < s.symLen.toNat → r3.sym.read? i = s.sym.read? i

/-- R43 to R45, R254: a command reads a written element as it was written; of an unwritten one nothing is said. -/
def Obligations.InputsReadWhatWasWritten : Prop :=
  ∀ (s : State) (n i : Nat), i < n →
    (∀ y, s.sym.read? i = some y → (s.symInput n)[i]? = some y ∧
      ∀ e, s.code.read? y.toNat = some e → (s.codeInput n)[i]? = some e) ∧
    (∀ b, s.bit.read? i = some b → (s.bitInput n)[i]? = some b) ∧
    (∀ y, s.byte.read? i = some y → (s.byteInput n)[i]? = some y)

/-! ## Invariants -/

/-- R39, R41: no step changes `NODE`, `ROOT` or `TREE_VALID` but one that takes BUILD, TREE_RELEASE, RESET or `rst`, and
none changes `CODE` or `CODE_VALID` but one that takes DERIVE, RESET or `rst`. -/
def Obligations.TreeAndTableHaveTheirOwnCommands : Prop :=
  ∀ s t : State, step s = .next t →
    ((t.node = s.node ∧ t.root = s.root ∧ t.treeValid = s.treeValid) ∨ (∃ rest, s.script = .rst :: rest) ∨
      (∃ v rest, s.script = .request ⟨true, .csr, 0, v⟩ :: rest ∧
        BitVec.ofNat 32 v ∈ [(0x30000000 : Word), 0x31000000, 0x01000000])) ∧
    ((t.code = s.code ∧ t.codeValid = s.codeValid) ∨ (∃ rest, s.script = .rst :: rest) ∨
      (∃ v rest, s.script = .request ⟨true, .csr, 0, v⟩ :: rest ∧
        BitVec.ofNat 32 v ∈ [(0x32000000 : Word), 0x01000000]))

/-- The reset state meets the invariant. -/
def Obligations.ResetMeetsTheInvariant : Prop := State.reset.Inv

/-- R24, R29, R31, R39, R41, R120: every step, of every event and command, keeps the invariant. -/
def Obligations.StepKeepsTheInvariant : Prop :=
  ∀ s t : State, s.Inv → step s = .next t → t.Inv

/-- R66, R262: in a state that meets the invariant no step stops: every event is taken or waits, every command ends in a
next state, and no link leads outside the node store. -/
def Obligations.StepNeverStops : Prop :=
  ∀ s : State, s.Inv → ∃ t, step s = .next t

/-! ## The element layouts (10_state.md) -/

/-- R37, R40, R63: the number a host reads from an element of `NODE` is `FREQ`, `KIND`, `SYM`, `LEFT`, `RIGHT` from the top
down to bit 0, with `KIND` 1 for an interior node, and from an element of `CODE` is `LEN` above the 255 bits of `BITS`; each
fits its element's width. -/
def Obligations.NodeAndCodeElementsAsRead : Prop :=
  (∀ (s : State) (i d : Nat) (rest : List HostEvent) (n : Node), s.nextRequest ⟨false, .node, i, d⟩ rest → i < 511 →
    s.node.read? i = some n → ∃ v,
      step s = .next { s with script := rest, responses := s.responses ++ [⟨false, v⟩] } ∧
      v % 2 ^ 9 = n.right.toNat ∧ v / 2 ^ 9 % 2 ^ 9 = n.left.toNat ∧ v / 2 ^ 18 % 2 ^ 8 = n.sym.toNat ∧
      v / 2 ^ 26 % 2 = (if n.kind = .interior then 1 else 0) ∧ v / 2 ^ 27 = n.freq ∧
      (n.freq < 2 ^ s.params.nfw → v < 2 ^ (s.params.nfw + 27))) ∧
  (∀ (s : State) (i d : Nat) (rest : List HostEvent) (c : Code), s.nextRequest ⟨false, .code, i, d⟩ rest → i < 256 →
    s.code.read? i = some c → ∃ v,
      step s = .next { s with script := rest, responses := s.responses ++ [⟨false, v⟩] } ∧
      v / 2 ^ 255 = c.len.toNat ∧ (∀ j, j < 255 → v.testBit (254 - j) = c.bits.getLsbD (254 - j)) ∧ v < 2 ^ 263)
end

