-- ==== Sys2Proof/Laws/Bits.lean ====
section
/-! SUPPORT. The bits of a spelled number, of a code entry, of a packed byte and of an unpacked byte (R12, R40, R200 to
R202). -/

namespace Sys2Proof.Machine

theorem bitsVal_lt (l : List Bool) : bitsVal l < 2 ^ l.length := by
  induction l with
  | nil => simp [bitsVal]
  | cons b l ih =>
    simp only [bitsVal, List.length_cons, pow_succ]
    split <;> omega

/-- The first bit of a spelled number is its most significant one. -/
theorem testBit_bitsVal (l : List Bool) (j : Nat) (h : j < l.length) :
    (bitsVal l).testBit (l.length - 1 - j) = l[j] := by
  induction l generalizing j with
  | nil => simp at h
  | cons b l ih =>
    have e : bitsVal (b :: l) = 2 ^ l.length * b.toNat + bitsVal l := by cases b <;> simp [bitsVal]
    rw [e, Nat.testBit_two_pow_mul_add _ (bitsVal_lt l)]
    cases j with
    | zero =>
      simp only [List.length_cons, Nat.add_sub_cancel, Nat.sub_zero, lt_irrefl, if_false, Nat.sub_self,
        List.getElem_cons_zero]
      cases b <;> rfl
    | succ j =>
      have hj : j < l.length := by simpa using h
      simp only [List.length_cons, List.getElem_cons_succ]
      rw [show l.length + 1 - 1 - (j + 1) = l.length - 1 - j by omega, if_pos (by omega)]
      exact ih j hj

/-- R160: bit `254 - j` of `left255(p)` is `p[j]`, and 0 below the code. -/
theorem left255_bit (p : List Bool) (hp : p.length ≤ 255) (j : Nat) (hj : j < 255) :
    (left255 p).getLsbD (254 - j) = p.getD j false := by
  simp only [left255, BitVec.getLsbD_ofNat, Nat.testBit_mul_two_pow]
  rw [show decide (254 - j < 255) = true by simp; omega]
  by_cases h : j < p.length
  · rw [show decide (254 - j ≥ 255 - p.length) = true by simp; omega,
      show 254 - j - (255 - p.length) = p.length - 1 - j by omega, testBit_bitsVal p j h]
    simp [h]
  · rw [show decide (254 - j ≥ 255 - p.length) = false by simp; omega]
    simp [h]

theorem Code.ofPath_len (p : List Bool) (hp : p.length ≤ 255) : (Code.ofPath p).len.toNat = p.length := by
  simp [Code.ofPath]
  omega

/-- R40: the code of a set entry is the path it was made of. -/
theorem Code.ofPath_string (p : List Bool) (hp : p.length ≤ 255) : (Code.ofPath p).string = p := by
  refine List.ext_getElem ?_ fun j h1 h2 => ?_
  · simp [Code.string, Code.ofPath_len p hp]
  · have := left255_bit p hp j (by omega)
    simp only [Code.string, List.getElem_map, List.getElem_range]
    rw [show (Code.ofPath p).bits = left255 p from rfl, this]
    simp [h2]

theorem Code.length_string (c : Code) : c.string.length = c.len.toNat := by simp [Code.string]

@[simp] theorem length_byteBits (y : Byte) : (byteBits y).length = 8 := by simp [byteBits]

/-- R202: stream index `j` of a byte is bit `7 - j`. -/
theorem byteBits_getElem (y : Byte) (j : Nat) (h : j < 8) :
    (byteBits y)[j]'(by simpa using h) = y.getLsbD (7 - j) := by
  simp [byteBits]

/-- R200: stream index `j` of packed byte `k` is bit `8k + j` of the string, 0 past its end. -/
theorem packByte_bit (bits : List Bool) (k j : Nat) (hj : j < 8) :
    (packByte bits k).getLsbD (7 - j) = bits.getD (8 * k + j) false := by
  have h := testBit_bitsVal ((List.range 8).map (fun j => bits.getD (8 * k + j) false)) j (by simpa using hj)
  simp only [List.length_map, List.length_range, List.getElem_map, List.getElem_range] at h
  rw [packByte, BitVec.getLsbD_ofNat, h]
  simp
  omega

@[simp] theorem length_packBits (bits : List Bool) : (packBits bits).length = byteCount bits.length := by
  simp [packBits]

theorem packBits_getElem? (bits : List Bool) (k : Nat) (h : k < byteCount bits.length) :
    (packBits bits)[k]? = some (packByte bits k) := by
  simp [packBits, h]

@[simp] theorem length_unpackBytes (bytes : List Byte) : (unpackBytes bytes).length = 8 * bytes.length := by
  induction bytes with
  | nil => rfl
  | cons y l ih => simp only [unpackBytes, List.flatMap_cons, List.length_append] at *; simp [ih]; omega

/-- R201: bit `i` of the string is bit `7 - (i mod 8)` of byte `i div 8`. -/
theorem unpackBytes_getElem? (bytes : List Byte) (i : Nat) (h : i < 8 * bytes.length) :
    (unpackBytes bytes)[i]? = some ((bytes.getD (i / 8) 0).getLsbD (7 - i % 8)) := by
  induction bytes generalizing i with
  | nil => simp at h
  | cons y l ih =>
    simp only [unpackBytes, List.flatMap_cons]
    by_cases h8 : i < 8
    · rw [List.getElem?_append_left (by simpa using h8), List.getElem?_eq_getElem (by simpa using h8),
        byteBits_getElem y i h8]
      simp [Nat.div_eq_of_lt h8, Nat.mod_eq_of_lt h8]
    · rw [List.getElem?_append_right (by simp; omega), length_byteBits]
      have := ih (i - 8) (by simp at h; omega)
      rw [unpackBytes] at this
      rw [this]
      obtain ⟨d, rfl⟩ : ∃ d, i = d + 8 := ⟨i - 8, by omega⟩
      simp [Nat.add_div_right d (show 0 < 8 by omega)]

/-- R67: a byte is determined by its bits in stream order. -/
theorem byte_ext {x y : Byte} (h : ∀ j, j < 8 → x.getLsbD (7 - j) = y.getLsbD (7 - j)) : x = y := by
  apply BitVec.eq_of_getLsbD_eq
  intro i hi
  have := h (7 - i) (by omega)
  rwa [show 7 - (7 - i) = i by omega] at this

end Sys2Proof.Machine
end

