-- ==== Sys2Proof/Laws/Exchange.lean ====
section
/-! SUPPORT. The exchange argument behind R147 (j): in some best tree the two lightest leaves are siblings. A tree is
seen as the list of its leaves' depths beside the list of their weights. -/

namespace Sys2Proof

/-- The sum of products of two lists. -/
def dot (ds ws : List Nat) : Nat := (List.zipWith (· * ·) ds ws).sum

@[simp] theorem dot_nil (ws : List Nat) : dot [] ws = 0 := rfl

@[simp] theorem dot_cons (d w : Nat) (ds ws : List Nat) : dot (d :: ds) (w :: ws) = d * w + dot ds ws := by simp [dot]

theorem dot_append {ds ds' ws ws' : List Nat} (h : ds.length = ws.length) :
    dot (ds ++ ds') (ws ++ ws') = dot ds ws + dot ds' ws' := by
  simp [dot, List.zipWith_append h]

namespace HTree

/-- The weights of the leaves, left to right. -/
def weights (t : HTree) : List Nat := t.leaves.map Prod.snd

/-- The depths of the leaves, left to right, of a tree whose root is `k` edges down. -/
def depths : Nat → HTree → List Nat
  | k, leaf _ _ => [k]
  | k, interior _ l r => l.depths (k + 1) ++ r.depths (k + 1)

theorem length_depths (t : HTree) (k : Nat) : (t.depths k).length = t.weights.length := by
  induction t generalizing k with
  | leaf => rfl
  | interior f l r ihl ihr => simp [depths, weights, leaves, ihl, ihr]

theorem costAt_eq_dot (t : HTree) (k : Nat) : t.costAt k = dot (t.depths k) t.weights := by
  induction t generalizing k with
  | leaf => simp [costAt, depths, weights, leaves]
  | interior f l r ihl ihr =>
    have : (interior f l r).weights = l.weights ++ r.weights := by simp [weights, leaves]
    rw [depths, this, dot_append (length_depths l _), costAt, ihl, ihr]

/-- One level down, a tree costs its weights more. -/
theorem costAt_succ (t : HTree) (k : Nat) : t.costAt (k + 1) = t.costAt k + t.weights.sum := by
  induction t generalizing k with
  | leaf => simp [costAt, weights, leaves, Nat.succ_mul]
  | interior f l r ihl ihr =>
    have : (interior f l r).weights = l.weights ++ r.weights := by simp [weights, leaves]
    rw [costAt, costAt, ihl, ihr, this, List.sum_append]
    omega

/-- The frequency of a well-formed tree is the sum of its leaves' (R8, R38). -/
theorem weights_sum {t : HTree} (h : t.wf = true) : t.weights.sum = t.freq := by
  induction t with
  | leaf => simp [weights, leaves, freq]
  | interior f l r ihl ihr =>
    simp only [wf, Bool.and_eq_true, beq_iff_eq] at h
    have : (interior f l r).weights = l.weights ++ r.weights := by simp [weights, leaves]
    rw [this, List.sum_append, ihl h.1.1, ihr h.1.2, freq, h.2]

/-- Any list of as many weights can be put on the leaves of a tree. -/
theorem relabel (t : HTree) (ws : List Nat) (h : ws.length = t.weights.length) (k : Nat) :
    ∃ u : HTree, u.depths k = t.depths k ∧ u.weights = ws := by
  induction t generalizing ws k with
  | leaf s f =>
    obtain ⟨w, rfl⟩ := List.length_eq_one_iff.1 h
    exact ⟨leaf s w, rfl, rfl⟩
  | interior f l r ihl ihr =>
    have hw : (interior f l r).weights = l.weights ++ r.weights := by simp [weights, leaves]
    rw [hw, List.length_append] at h
    obtain ⟨u, hu, hu'⟩ := ihl (ws.take l.weights.length) (by simp; omega) (k + 1)
    obtain ⟨v, hv, hv'⟩ := ihr (ws.drop l.weights.length) (by simp; omega) (k + 1)
    refine ⟨interior f u v, by simp [depths, hu, hv], ?_⟩
    have : (interior f u v).weights = u.weights ++ v.weights := by simp [weights, leaves]
    rw [this, hu', hv', List.take_append_drop]

/-- Two deepest leaves are siblings, and can be drawn together into one. -/
theorem deepest_pair (t : HTree) (ht : t.isInterior = true) (k : Nat) : ∃ (u : HTree) (pre post : List Nat) (d : Nat),
    t.depths k = pre ++ (d + 1) :: (d + 1) :: post ∧ u.depths k = pre ++ d :: post ∧ k ≤ d ∧
    (∀ x ∈ pre ++ post, x ≤ d + 1) := by
  induction t generalizing k with
  | leaf => simp [isInterior] at ht
  | interior f l r ihl ihr =>
    -- one side taken, the other no deeper
    have left : ∀ d, k + 1 ≤ d →
        (∃ u pre post, l.depths (k + 1) = pre ++ (d + 1) :: (d + 1) :: post ∧ HTree.depths (k + 1) u = pre ++ d :: post ∧
          ∀ x ∈ pre ++ post, x ≤ d + 1) → (∀ x ∈ r.depths (k + 1), x ≤ d + 1) →
        ∃ (u : HTree) (pre post : List Nat) (d : Nat),
          (interior f l r).depths k = pre ++ (d + 1) :: (d + 1) :: post ∧ u.depths k = pre ++ d :: post ∧ k ≤ d ∧
          (∀ x ∈ pre ++ post, x ≤ d + 1) := by
      rintro d hd ⟨u, pre, post, h1, h2, h3⟩ hr
      refine ⟨interior f u r, pre, post ++ r.depths (k + 1), d, by simp [depths, h1], by simp [depths, h2], by omega, ?_⟩
      intro x hx
      simp only [List.mem_append] at hx h3
      rcases hx with hx | hx | hx
      · exact h3 x (Or.inl hx)
      · exact h3 x (Or.inr hx)
      · exact hr x hx
    have right : ∀ d, k + 1 ≤ d →
        (∃ u pre post, r.depths (k + 1) = pre ++ (d + 1) :: (d + 1) :: post ∧ HTree.depths (k + 1) u = pre ++ d :: post ∧
          ∀ x ∈ pre ++ post, x ≤ d + 1) → (∀ x ∈ l.depths (k + 1), x ≤ d + 1) →
        ∃ (u : HTree) (pre post : List Nat) (d : Nat),
          (interior f l r).depths k = pre ++ (d + 1) :: (d + 1) :: post ∧ u.depths k = pre ++ d :: post ∧ k ≤ d ∧
          (∀ x ∈ pre ++ post, x ≤ d + 1) := by
      rintro d hd ⟨u, pre, post, h1, h2, h3⟩ hl
      refine ⟨interior f l u, l.depths (k + 1) ++ pre, post, d, by simp [depths, h1], by simp [depths, h2], by omega, ?_⟩
      intro x hx
      simp only [List.mem_append] at hx h3
      rcases hx with (hx | hx) | hx
      · exact hl x hx
      · exact h3 x (Or.inl hx)
      · exact h3 x (Or.inr hx)
    cases hl : l.isInterior with
    | true =>
      obtain ⟨u, pre, post, d, h1, h2, h3, h4⟩ := ihl hl (k + 1)
      cases hr : r.isInterior with
      | true =>
        obtain ⟨u', pre', post', d', g1, g2, g3, g4⟩ := ihr hr (k + 1)
        have all : ∀ (e : Nat) (p q : List Nat), (∀ x ∈ p ++ q, x ≤ e + 1) →
            ∀ x ∈ p ++ (e + 1) :: (e + 1) :: q, x ≤ e + 1 := by
          intro e p q h x hx
          simp only [List.mem_append, List.mem_cons] at hx h
          rcases hx with hx | rfl | rfl | hx
          · exact h x (Or.inl hx)
          · exact le_rfl
          · exact le_rfl
          · exact h x (Or.inr hx)
        rcases Nat.le_total d' d with h | h
        · exact left d h3 ⟨u, pre, post, h1, h2, h4⟩ (by rw [g1]; intro x hx; have := all _ _ _ g4 x hx; omega)
        · exact right d' g3 ⟨u', pre', post', g1, g2, g4⟩ (by rw [h1]; intro x hx; have := all _ _ _ h4 x hx; omega)
      | false =>
        cases r with
        | interior => simp [isInterior] at hr
        | leaf s g => exact left d h3 ⟨u, pre, post, h1, h2, h4⟩ (by simp [depths]; omega)
    | false =>
      cases l with
      | interior => simp [isInterior] at hl
      | leaf s g =>
        cases hr : r.isInterior with
        | true =>
          obtain ⟨u', pre', post', d', g1, g2, g3, g4⟩ := ihr hr (k + 1)
          exact right d' g3 ⟨u', pre', post', g1, g2, g4⟩ (by simp [depths]; omega)
        | false =>
          cases r with
          | interior => simp [isInterior] at hr
          | leaf s' g' => exact ⟨leaf s g, [], [], k, by simp [depths], by simp [depths], le_rfl, by simp⟩

end HTree

/-- The lightest weight moved to the deepest place costs no more. -/
theorem swap_lightest {ds vs rest : List Nat} {m x a : Nat} (hd : ∀ d ∈ ds, d ≤ m) (hlen : vs.length = ds.length)
    (hp : (x :: vs).Perm (a :: rest)) (ha : ∀ w ∈ rest, a ≤ w) :
    ∃ vs', vs'.Perm rest ∧ vs'.length = ds.length ∧ dot ds vs' + m * a ≤ m * x + dot ds vs := by
  by_cases hx : x = a
  · subst hx
    exact ⟨vs, hp.cons_inv, hlen, by omega⟩
  · have hax : a ≤ x := by
      have : x ∈ a :: rest := hp.mem_iff.1 (by simp)
      rcases List.mem_cons.1 this with h | h
      · exact absurd h hx
      · exact ha x h
    have hav : a ∈ vs := by
      have : a ∈ x :: vs := hp.mem_iff.2 (by simp)
      rcases List.mem_cons.1 this with h | h
      · exact absurd h.symm hx
      · exact h
    obtain ⟨v1, v2, rfl⟩ := List.append_of_mem hav
    refine ⟨v1 ++ x :: v2, ?_, by simpa using hlen, ?_⟩
    · have h1 : (a :: (v1 ++ x :: v2)).Perm (x :: (v1 ++ a :: v2)) :=
        (List.Perm.cons a List.perm_middle).trans
          ((List.Perm.swap x a (v1 ++ v2)).trans (List.Perm.cons x List.perm_middle.symm))
      exact (h1.trans hp).cons_inv
    · have hl : v1.length + v2.length + 1 = ds.length := by rw [← hlen]; simp; omega
      obtain ⟨d1, e, d2, rfl, h1⟩ : ∃ d1 e d2, ds = d1 ++ e :: d2 ∧ d1.length = v1.length := by
        have hlt : v1.length < ds.length := by omega
        exact ⟨ds.take v1.length, ds[v1.length], ds.drop (v1.length + 1), by simp, by simp; omega⟩
      rw [dot_append h1, dot_append h1, dot_cons, dot_cons]
      have he : e ≤ m := hd e (by simp)
      obtain ⟨z, rfl⟩ := Nat.exists_eq_add_of_le hax
      have : e * z ≤ m * z := Nat.mul_le_mul_right z he
      simp only [Nat.mul_add]
      omega

/-- R147 (j): whatever tree there is over the weights, one over the weights with the two lightest drawn together costs
less by at least their sum. -/
theorem HTree.contract {u : HTree} {a b : Nat} {ws : List Nat} (hp : u.weights.Perm (a :: b :: ws)) (hab : a ≤ b)
    (hb : ∀ w ∈ ws, b ≤ w) :
    ∃ v : HTree, v.weights.Perm ((a + b) :: ws) ∧ v.costAt 0 + (a + b) ≤ u.costAt 0 := by
  have hu : u.isInterior = true := by
    cases u with
    | leaf => have := hp.length_eq; simp [weights, leaves] at this
    | interior => rfl
  obtain ⟨s, pre, post, d, h1, h2, -, h4⟩ := u.deepest_pair hu 0
  have hlen : pre.length + post.length + 2 = u.weights.length := by
    rw [← length_depths u 0, h1]; simp; omega
  obtain ⟨p, x, y, q, hw, hpl⟩ : ∃ p x y q, u.weights = p ++ x :: y :: q ∧ p.length = pre.length := by
    have hlt : pre.length + 1 < u.weights.length := by omega
    refine ⟨u.weights.take pre.length, u.weights[pre.length], u.weights[pre.length + 1],
      u.weights.drop (pre.length + 1 + 1), ?_, by simp; omega⟩
    simp
  have hql : q.length = post.length := by rw [hw] at hlen; simp at hlen; omega
  have hp' : (x :: y :: (p ++ q)).Perm (a :: b :: ws) := by
    refine List.Perm.trans ?_ (hw ▸ hp)
    exact ((List.perm_middle (a := x) (l₁ := p) (l₂ := y :: q)).trans
      (List.Perm.cons x List.perm_middle)).symm
  obtain ⟨vs, g1, g2, g3⟩ := swap_lightest (ds := (d + 1) :: (pre ++ post)) (m := d + 1) (vs := y :: (p ++ q))
    (by intro e he; rcases List.mem_cons.1 he with rfl | he; exacts [le_rfl, h4 e he]) (by simp [hpl, hql]) hp'
    (by intro w hw'; rcases List.mem_cons.1 hw' with rfl | hw'; exacts [hab, le_trans hab (hb w hw')])
  obtain ⟨z, vs, rfl⟩ : ∃ z l, vs = z :: l := by
    cases vs with
    | nil => simp at g2
    | cons z l => exact ⟨z, l, rfl⟩
  obtain ⟨vs', f1, f2, f3⟩ := swap_lightest (ds := pre ++ post) (m := d + 1) h4 (by simpa using g2) g1 hb
  have hv' : (vs'.take pre.length).length = pre.length := by simp; simp at f2; omega
  obtain ⟨v, e1, e2⟩ := s.relabel (vs'.take pre.length ++ (a + b) :: vs'.drop pre.length)
    (by rw [← length_depths s 0, h2]; simp at f2 ⊢; omega) 0
  refine ⟨v, ?_, ?_⟩
  · rw [e2]
    exact List.perm_middle.trans (List.Perm.cons _ (by rw [List.take_append_drop]; exact f1))
  · rw [costAt_eq_dot, costAt_eq_dot, e1, h2, h1, hw, e2, dot_append hv'.symm, dot_append hpl.symm]
    simp only [dot_cons] at *
    have hvs : dot (pre ++ post) vs' = dot pre (vs'.take pre.length) + dot post (vs'.drop pre.length) := by
      conv_lhs => rw [← List.take_append_drop pre.length vs']
      exact dot_append hv'.symm
    rw [hvs] at f3
    rw [dot_append hpl.symm] at g3
    have : d * (a + b) + (a + b) = (d + 1) * a + (d + 1) * b := by ring
    omega

end Sys2Proof
end

