-- ==== Sys2Proof/Laws/Queue.lean ====
section
/-! SUPPORT. What `pq_add` does (R120, R121): length, members, order, and that on a sorted queue it is the insertion
behind every smaller or equal key. -/

namespace Sys2Proof.Machine

/-- The order of R120. -/
abbrev Sorted (q : List Entry) : Prop := q.Pairwise (fun a b => a.key ≤ b.key)

theorem pqAdd_perm (q : List Entry) (k : Nat) (t : Link) : (pqAdd q k t).Perm (⟨k, t⟩ :: q) := by
  unfold pqAdd
  exact List.perm_middle.trans ((List.Perm.cons _ (by rw [List.take_append_drop])))

@[simp] theorem length_pqAdd (q : List Entry) (k : Nat) (t : Link) : (pqAdd q k t).length = q.length + 1 := by
  simpa using (pqAdd_perm q k t).length_eq

theorem mem_pqAdd {q : List Entry} {k : Nat} {t : Link} {e : Entry} : e ∈ pqAdd q k t ↔ e = ⟨k, t⟩ ∨ e ∈ q := by
  simpa using (pqAdd_perm q k t).mem_iff

/-- In a sorted queue the first `p` entries are exactly those with a key not above `k` (R121). -/
theorem pqPlace_split {q : List Entry} (h : Sorted q) (k : Nat) :
    (∀ a ∈ q.take (pqPlace q k), a.key ≤ k) ∧ (∀ b ∈ q.drop (pqPlace q k), k < b.key) := by
  induction q with
  | nil => simp
  | cons e q ih =>
    rw [Sorted, List.pairwise_cons] at h
    by_cases he : e.key ≤ k
    · have hp : pqPlace (e :: q) k = pqPlace q k + 1 := by simp [pqPlace, he]
      rw [hp]
      simpa [he] using ih h.2
    · have h0 : pqPlace q k = 0 := by
        rw [pqPlace, List.countP_eq_zero]
        intro a ha
        have := h.1 a ha
        simp; omega
      have hp : pqPlace (e :: q) k = 0 := by simpa [pqPlace, he] using h0
      rw [hp]
      refine ⟨by simp, fun b hb => ?_⟩
      rcases List.mem_cons.1 hb with rfl | hb
      · omega
      · have := h.1 b hb; omega

theorem sorted_pqAdd {q : List Entry} (h : Sorted q) (k : Nat) (t : Link) : Sorted (pqAdd q k t) := by
  obtain ⟨hb, ha⟩ := pqPlace_split h k
  have hq : Sorted (q.take (pqPlace q k) ++ q.drop (pqPlace q k)) := by rwa [List.take_append_drop]
  obtain ⟨h1, h2, h3⟩ := List.pairwise_append.1 hq
  refine List.pairwise_append.2 ⟨h1, List.pairwise_cons.2 ⟨fun b hb' => le_of_lt (ha b hb'), h2⟩, ?_⟩
  intro a ha' b hb'
  rcases List.mem_cons.1 hb' with rfl | hb'
  · exact hb a ha'
  · exact h3 a ha' b hb'

/-- The entries before and after the new one (R121). -/
theorem pqAdd_split {q : List Entry} (h : Sorted q) (k : Nat) (t : Link) : ∃ before after,
    q = before ++ after ∧ pqAdd q k t = before ++ ⟨k, t⟩ :: after ∧
    (∀ a ∈ before, a.key ≤ k) ∧ (∀ b ∈ after, k < b.key) :=
  ⟨_, _, (List.take_append_drop (pqPlace q k) q).symm, rfl, pqPlace_split h k⟩

end Sys2Proof.Machine
end

