-- ==== Sys2Proof/Laws/Memory.lean ====
section
/-! SUPPORT. What one read finds after each memory operation, and that each keeps the canonical form. -/

namespace Sys2Proof.Machine

variable {α : Type}

@[simp] theorem Memory.read?_nil (i : Nat) : Memory.read? ([] : Memory α) i = none := rfl

theorem Memory.read?_insert (m : Memory α) (i : Nat) (v : α) (j : Nat) :
    (m.insert i v).read? j = if j = i then some v else m.read? j := by
  induction m with
  | nil => simp only [Memory.insert, Memory.read?, eq_comm]
  | cons c m ih =>
    obtain ⟨a, w⟩ := c
    simp only [Memory.insert]
    split_ifs with h1 h2 h3 h3 h3 <;> simp only [Memory.read?, ih]
    all_goals first
      | (subst h3; simp; done)
      | (simp [Ne.symm h3, h3]; done)
      | (split_ifs <;> first | rfl | omega)

theorem Memory.read?_filter (m : Memory α) (p : Nat → Bool) (j : Nat) :
    Memory.read? (List.filter (fun c => p c.1) m) j = if p j then m.read? j else none := by
  induction m with
  | nil => simp
  | cons c m ih =>
    obtain ⟨a, w⟩ := c
    by_cases ha : p a
    · by_cases hj : a = j
      · subst hj; simp [List.filter, ha, Memory.read?]
      · simp [List.filter, ha, Memory.read?, hj, ih]
    · by_cases hj : a = j
      · subst hj; simp [List.filter, ha, ih]
      · simp [List.filter, ha, Memory.read?, hj, ih]

theorem Memory.read?_erase (m : Memory α) (i j : Nat) :
    (m.erase i).read? j = if j = i then none else m.read? j := by
  have := Memory.read?_filter m (fun a => decide (a ≠ i)) j
  simp only [Memory.erase]
  rw [this]
  by_cases h : j = i <;> simp [h]

theorem Memory.read?_append (m m' : Memory α) (j : Nat) :
    Memory.read? (m ++ m') j = (m.read? j).or (m'.read? j) := by
  induction m with
  | nil => simp
  | cons c m ih =>
    obtain ⟨a, w⟩ := c
    by_cases h : a = j
    · simp [Memory.read?, h]
    · simpa [Memory.read?, h] using ih

theorem Memory.read?_listFrom (l : List α) (k j : Nat) :
    Memory.read? (Memory.listFrom k l) j = if k ≤ j then l[j - k]? else none := by
  induction l generalizing k with
  | nil => simp [Memory.listFrom]
  | cons v l ih =>
    simp only [Memory.listFrom, Memory.read?]
    by_cases h : k = j
    · subst h; simp
    · rw [if_neg h, ih]
      by_cases h' : k ≤ j
      · rw [if_pos (by omega), if_pos h']
        obtain ⟨d, rfl⟩ : ∃ d, j = k + 1 + d := ⟨j - (k + 1), by omega⟩
        rw [show k + 1 + d - (k + 1) = d by omega, show k + 1 + d - k = d + 1 by omega]
        simp
      · rw [if_neg (by omega), if_neg h']

/-- A prefix write: the sequence below its length, the old elements above. -/
theorem Memory.read?_writePrefix (m : Memory α) (l : List α) (j : Nat) :
    (m.writePrefix l).read? j = if j < l.length then l[j]? else m.read? j := by
  simp only [Memory.writePrefix, Memory.read?_append, Memory.read?_listFrom]
  have := Memory.read?_filter m (fun a => decide (l.length ≤ a)) j
  rw [this]
  by_cases h : j < l.length
  · simp [h]
  · simp [h, show l.length ≤ j by omega]

theorem Memory.mem_insert {m : Memory α} {i : Nat} {v : α} {c : Nat × α} (h : c ∈ m.insert i v) :
    c = (i, v) ∨ c ∈ m := by
  induction m with
  | nil => simpa [Memory.insert] using h
  | cons d m ih =>
    obtain ⟨a, w⟩ := d
    simp only [Memory.insert] at h
    split_ifs at h with h1 h2
    · simpa using h
    · simp only [List.mem_cons] at h ⊢; tauto
    · simp only [List.mem_cons] at h ⊢
      rcases h with h | h
      · exact Or.inr (Or.inl h)
      · rcases ih h with h | h <;> tauto

theorem Memory.mem_listFrom {l : List α} {k : Nat} {c : Nat × α} (h : c ∈ Memory.listFrom k l) :
    k ≤ c.1 ∧ c.1 < k + l.length ∧ c.2 ∈ l := by
  induction l generalizing k with
  | nil => simp [Memory.listFrom] at h
  | cons v l ih =>
    simp only [Memory.listFrom, List.mem_cons] at h
    rcases h with rfl | h
    · simp
    · have := ih h
      exact ⟨by omega, by rw [List.length_cons]; omega, List.mem_cons_of_mem _ this.2.2⟩

theorem Memory.wf_nil (size : Nat) : Memory.wf size ([] : Memory α) := by simp [Memory.wf]

theorem Memory.wf_insert {size : Nat} {m : Memory α} (h : m.wf size) {i : Nat} (hi : i < size) (v : α) :
    (m.insert i v).wf size := by
  induction m with
  | nil => simp [Memory.insert, Memory.wf, hi]
  | cons d m ih =>
    obtain ⟨a, w⟩ := d
    obtain ⟨hp, hs⟩ := h
    rw [List.pairwise_cons] at hp
    simp only [List.mem_cons, forall_eq_or_imp] at hs
    simp only [Memory.insert]
    split_ifs with h1 h2
    · refine ⟨?_, List.forall_mem_cons.2 ⟨hi, List.forall_mem_cons.2 hs⟩⟩
      rw [List.pairwise_cons, List.pairwise_cons]
      refine ⟨?_, hp⟩
      intro c hc
      rcases List.mem_cons.1 hc with rfl | hc
      · exact h1
      · exact lt_trans h1 (hp.1 c hc)
    · subst h2
      exact ⟨List.pairwise_cons.2 hp, List.forall_mem_cons.2 hs⟩
    · have := ih ⟨hp.2, hs.2⟩
      refine ⟨List.pairwise_cons.2 ⟨?_, this.1⟩, ?_⟩
      · intro c hc
        rcases Memory.mem_insert hc with rfl | hc
        · show a < i
          omega
        · exact hp.1 c hc
      · simp only [List.mem_cons, forall_eq_or_imp]
        exact ⟨hs.1, this.2⟩

theorem Memory.wf_erase {size : Nat} {m : Memory α} (h : m.wf size) (i : Nat) : (m.erase i).wf size :=
  ⟨h.1.filter _, fun c hc => h.2 c (List.mem_filter.1 hc).1⟩

theorem Memory.pairwise_listFrom (l : List α) (k : Nat) :
    (Memory.listFrom k l).Pairwise (fun a b => a.1 < b.1) := by
  induction l generalizing k with
  | nil => simp [Memory.listFrom]
  | cons v l ih =>
    refine List.pairwise_cons.2 ⟨fun c hc => ?_, ih (k + 1)⟩
    have := Memory.mem_listFrom hc
    show k < c.1
    omega

theorem Memory.wf_listFrom {size : Nat} {l : List α} (h : l.length ≤ size) : (Memory.listFrom 0 l).wf size :=
  ⟨Memory.pairwise_listFrom l 0, fun c hc => by have := Memory.mem_listFrom hc; omega⟩

theorem Memory.wf_writePrefix {size : Nat} {m : Memory α} (hm : m.wf size) {l : List α} (h : l.length ≤ size) :
    (m.writePrefix l).wf size := by
  refine ⟨List.pairwise_append.2 ⟨Memory.pairwise_listFrom l 0, hm.1.filter _, ?_⟩, ?_⟩
  · intro a ha b hb
    have h1 := Memory.mem_listFrom ha
    have h2 := (List.mem_filter.1 hb).2
    simp only [decide_eq_true_eq] at h2
    omega
  · intro c hc
    rcases List.mem_append.1 hc with hc | hc
    · have := Memory.mem_listFrom hc; omega
    · exact hm.2 c (List.mem_filter.1 hc).1

theorem Memory.mem_writePrefix {m : Memory α} {l : List α} {c : Nat × α} (h : c ∈ m.writePrefix l) :
    c.2 ∈ l ∨ c ∈ m := by
  rcases List.mem_append.1 h with h | h
  · exact Or.inl (Memory.mem_listFrom h).2.2
  · exact Or.inr (List.mem_filter.1 h).1

/-- A listed element is a member of the list. -/
theorem Memory.mem_of_read? {m : Memory α} {i : Nat} {v : α} (h : m.read? i = some v) : (i, v) ∈ m := by
  induction m with
  | nil => simp at h
  | cons d m ih =>
    obtain ⟨a, w⟩ := d
    simp only [Memory.read?] at h
    split_ifs at h with h1
    · subst h1; simp_all
    · exact List.mem_cons_of_mem _ (ih h)

/-- In the canonical form every member of the list is found by a read. -/
theorem Memory.read?_of_mem {size : Nat} {m : Memory α} (hm : m.wf size) {i : Nat} {v : α} (h : (i, v) ∈ m) :
    m.read? i = some v := by
  induction m with
  | nil => simp at h
  | cons d m ih =>
    obtain ⟨a, w⟩ := d
    obtain ⟨hp, hs⟩ := hm
    rw [List.pairwise_cons] at hp
    simp only [Memory.read?]
    rcases List.mem_cons.1 h with h | h
    · cases h; simp
    · have : a < i := hp.1 _ h
      rw [if_neg (by omega)]
      exact ih ⟨hp.2, fun c hc => hs c (List.mem_cons_of_mem _ hc)⟩ h

/-- Equal contents are equal data: two canonical memories that read the same everywhere are the same list. -/
theorem Memory.ext_of_read? {size : Nat} {m m' : Memory α} (hm : m.wf size) (hm' : m'.wf size)
    (h : ∀ i, m.read? i = m'.read? i) : m = m' := by
  have nodup : ∀ {m : Memory α}, m.wf size → m.Nodup := fun h =>
    h.1.imp (fun h' e => by subst e; exact lt_irrefl _ h')
  have sub : ∀ c, c ∈ m ↔ c ∈ m' := by
    rintro ⟨i, v⟩
    constructor
    · intro hc; exact Memory.mem_of_read? ((h i).symm.trans (Memory.read?_of_mem hm hc))
    · intro hc; exact Memory.mem_of_read? ((h i).trans (Memory.read?_of_mem hm' hc))
  have perm : m.Perm m' := (List.perm_ext_iff_of_nodup (nodup hm) (nodup hm')).2 sub
  exact perm.eq_of_pairwise (fun a b _ _ h1 h2 => absurd h1 (lt_asymm h2)) hm.1 hm'.1

/-- A count reads as the low `FW` bits of what was stored, the others as before. -/
theorem read?_storeCount (p : Params) (m : Memory Nat) (i v j : Nat) :
    ((storeCount p m i v).read? j).getD 0 = if j = i then truncCount p v else (m.read? j).getD 0 := by
  unfold storeCount
  by_cases h : truncCount p v = 0
  · rw [if_pos h, Memory.read?_erase]
    split_ifs <;> simp [h]
  · rw [if_neg h, Memory.read?_insert]
    split_ifs <;> simp

theorem wf_storeCount {p : Params} {size : Nat} {m : Memory Nat} (h : m.wf size) {i : Nat} (hi : i < size) (v : Nat) :
    (storeCount p m i v).wf size := by
  unfold storeCount
  split_ifs
  · exact Memory.wf_erase h i
  · exact Memory.wf_insert h hi _

theorem mem_storeCount {p : Params} {m : Memory Nat} {i v : Nat} {c : Nat × Nat} (h : c ∈ storeCount p m i v) :
    c ∈ m ∨ (0 < c.2 ∧ c.2 < 2 ^ p.fw) := by
  unfold storeCount at h
  split_ifs at h with h0
  · exact Or.inl (List.mem_filter.1 h).1
  · rcases Memory.mem_insert h with rfl | h
    · exact Or.inr ⟨Nat.pos_of_ne_zero h0, Nat.mod_lt _ (by positivity)⟩
    · exact Or.inl h

end Sys2Proof.Machine
end

