-- ==== Sys2Proof/Laws/Tree.lean ====
section
/-! SUPPORT. Trees read from the node store (10_state.md R38, R39): the reading as a relation without a budget, its slots
and depth, the paths of a tree, and the walk of DERIVE as a function of the tree (43_code_table.md R161). -/

namespace Sys2Proof.Machine

/-- `t` is read from slot `i` through exactly the slots `slots`, in the order of `slotsAt`. -/
inductive Reads (node : Memory Node) : Link → HTree → List Nat → Prop where
  | leaf {i : Link} {n : Node} (h : node.read? i.toNat = some n) (hk : n.kind = .leaf)
      (hl : n.left = nil9) (hr : n.right = nil9) : Reads node i (.leaf n.sym n.freq) [i.toNat]
  | interior {i : Link} {n : Node} {l r : HTree} {sl sr : List Nat} (h : node.read? i.toNat = some n)
      (hk : n.kind = .interior) (hl : Reads node n.left l sl) (hr : Reads node n.right r sr) :
      Reads node i (.interior n.freq l r) (i.toNat :: (sl ++ sr))

/-- A budget above the depth reads the tree, and visits its slots. -/
theorem Reads.treeAt {node : Memory Node} {i : Link} {t : HTree} {sl : List Nat} (h : Reads node i t sl) :
    ∀ d, t.depth < d → treeAt node d i = some t ∧ slotsAt node d i = sl := by
  induction h with
  | leaf h hk hl hr =>
    intro d hd
    obtain ⟨d, rfl⟩ : ∃ e, d = e + 1 := ⟨d - 1, by omega⟩
    simp [Machine.treeAt, slotsAt, h, hk, hl, hr]
  | interior h hk _ _ ihl ihr =>
    intro d hd
    obtain ⟨d, rfl⟩ : ∃ e, d = e + 1 := ⟨d - 1, by omega⟩
    simp only [HTree.depth] at hd
    obtain ⟨hl, hl'⟩ := ihl d (by omega)
    obtain ⟨hr, hr'⟩ := ihr d (by omega)
    simp [Machine.treeAt, slotsAt, h, hk, hl, hr, hl', hr']

/-- What `treeAt` answers is a reading, within the budget. -/
theorem reads_of_treeAt {node : Memory Node} {d : Nat} {i : Link} {t : HTree} (h : treeAt node d i = some t) :
    Reads node i t (slotsAt node d i) ∧ t.depth < d := by
  induction d generalizing i t with
  | zero => simp [treeAt] at h
  | succ d ih =>
    simp only [treeAt] at h
    cases hn : node.read? i.toNat with
    | none => simp [hn] at h
    | some n =>
      simp only [hn] at h
      cases hk : n.kind with
      | leaf =>
        simp only [hk] at h
        split_ifs at h with hc
        cases h
        refine ⟨?_, by simp [HTree.depth]⟩
        simpa [slotsAt, hn, hk] using Reads.leaf hn hk hc.1 hc.2
      | interior =>
        simp only [hk] at h
        cases hl : treeAt node d n.left with
        | none => simp [hl] at h
        | some l =>
          cases hr : treeAt node d n.right with
          | none => simp [hl, hr] at h
          | some r =>
            simp only [hl, hr, Option.some.injEq] at h
            cases h
            obtain ⟨h1, h2⟩ := ih hl
            obtain ⟨h3, h4⟩ := ih hr
            refine ⟨?_, by simp [HTree.depth]; omega⟩
            simpa [slotsAt, hn, hk] using Reads.interior hn hk h1 h3

/-- A slot has one tree. -/
theorem Reads.unique {node : Memory Node} {i : Link} {t t' : HTree} {sl sl' : List Nat} (h : Reads node i t sl)
    (h' : Reads node i t' sl') : t = t' ∧ sl = sl' := by
  have a := h.treeAt (max t.depth t'.depth + 1) (by omega)
  have b := h'.treeAt (max t.depth t'.depth + 1) (by omega)
  exact ⟨Option.some.inj (a.1.symm.trans b.1), a.2.symm.trans b.2⟩

/-- A reading depends on the slots it visits only. -/
theorem Reads.congr {node node' : Memory Node} {i : Link} {t : HTree} {sl : List Nat} (h : Reads node i t sl)
    (e : ∀ j ∈ sl, node'.read? j = node.read? j) : Reads node' i t sl := by
  induction h with
  | leaf h hk hl hr => exact .leaf ((e _ (by simp)).trans h) hk hl hr
  | interior h hk _ _ ihl ihr =>
    exact .interior ((e _ (by simp)).trans h) hk
      (ihl fun j hj => e j (by simp [hj])) (ihr fun j hj => e j (by simp [hj]))

/-- Each leaf lies in the slot of its symbol (R39 (c)). -/
def LeavesHome (node : Memory Node) (sl : List Nat) : Prop :=
  ∀ i ∈ sl, ∀ n, node.read? i = some n → n.kind = .leaf → n.sym.toNat = i

/-- With leaves at home and no slot twice, no symbol has two leaves (R39 (c)). -/
theorem Reads.leaves_sub {node : Memory Node} {i : Link} {t : HTree} {sl : List Nat} (h : Reads node i t sl)
    (home : LeavesHome node sl) : List.Sublist (t.leaves.map (fun p => p.1.toNat)) sl := by
  induction h with
  | @leaf i n h hk hl hr =>
    have := home _ (by simp) _ h hk
    simp [HTree.leaves, this]
  | interior h hk _ _ ihl ihr =>
    simp only [HTree.leaves, List.map_append]
    exact List.Sublist.cons _ ((ihl fun j hj => home j (by simp [hj])).append
      (ihr fun j hj => home j (by simp [hj])))

theorem Reads.leaves_nodup {node : Memory Node} {i : Link} {t : HTree} {sl : List Nat} (h : Reads node i t sl)
    (home : LeavesHome node sl) (nd : sl.Nodup) : (t.leaves.map Prod.fst).Nodup := by
  have := (h.leaves_sub home).nodup nd
  rw [show t.leaves.map (fun p => p.1.toNat) = (t.leaves.map Prod.fst).map BitVec.toNat by simp] at this
  exact List.Nodup.of_map _ this

end Sys2Proof.Machine

namespace Sys2Proof.HTree

/-- A tree of `n` leaves has at most `n - 1` edges on a path (R147 (h)). -/
theorem depth_lt_leaves (t : HTree) : t.depth < t.leaves.length := by
  induction t with
  | leaf => simp [depth, leaves]
  | interior f l r ihl ihr => simp only [depth, leaves, List.length_append]; omega

/-- A symbol has a path exactly when it is a leaf's (R162 (a)). -/
theorem path?_isSome (t : HTree) (c : Byte) : (t.path? c).isSome = true ↔ c ∈ t.leaves.map Prod.fst := by
  induction t with
  | leaf s f => by_cases h : c = s <;> simp [path?, leaves, h]
  | interior f l r ihl ihr =>
    simp only [leaves, List.map_append, List.mem_append, ← ihl, ← ihr, path?]
    cases l.path? c <;> cases r.path? c <;> simp

theorem path?_length (t : HTree) (c : Byte) (p : List Bool) (h : t.path? c = some p) : p.length ≤ t.depth := by
  induction t generalizing p with
  | leaf s f => simp only [path?] at h; split_ifs at h; cases h; simp
  | interior f l r ihl ihr =>
    simp only [path?] at h
    simp only [depth]
    cases hl : l.path? c with
    | some q =>
      simp only [hl, Option.some.injEq] at h
      subst h
      have := ihl q hl
      simp only [List.length_cons]; omega
    | none =>
      cases hr : r.path? c with
      | none => simp [hl, hr] at h
      | some q =>
        simp only [hl, hr, Option.map_some, Option.some.injEq] at h
        subst h
        have := ihr q hr
        simp only [List.length_cons]; omega

/-- R162 (c): no path is a prefix of the path of another symbol. -/
theorem path?_prefixFree (t : HTree) {c c' : Byte} {p p' : List Bool} (h : t.path? c = some p)
    (h' : t.path? c' = some p') (hp : p <+: p') : c = c' := by
  induction t generalizing p p' with
  | leaf s f =>
    simp only [path?] at h h'
    split_ifs at h h' with h1 h2
    exact h1.trans h2.symm
  | interior f l r ihl ihr =>
    simp only [path?] at h h'
    cases hl : l.path? c <;> cases hl' : l.path? c' <;> cases hr : r.path? c <;> cases hr' : r.path? c' <;>
      simp only [hl, hl', hr, hr', Option.map_some, Option.map_none, Option.some.injEq, reduceCtorEq] at h h' <;>
      subst h <;> subst h' <;> simp only [List.cons_prefix_cons, reduceCtorEq, false_and, true_and] at hp
    · exact ihr hr hr' hp
    all_goals exact ihl hl hl' hp

/-- An interior root gives every symbol a path of at least one turn (R162 (b)). -/
theorem path?_ne_nil {t : HTree} (ht : t.isInterior = true) {c : Byte} {p : List Bool} (h : t.path? c = some p) :
    p ≠ [] := by
  cases t with
  | leaf => simp [isInterior] at ht
  | interior f l r =>
    simp only [path?] at h
    cases hl : l.path? c <;> cases hr : r.path? c <;> simp [hl, hr] at h <;> subst h <;> simp

/-- Whole codes, of symbols of the tree, one after another. -/
abbrev spells (t : HTree) (more : List Byte) : List Bool := more.flatMap fun c => (t.path? c).getD []

/-- A bit string starts with the path to a leaf or is a proper part of one (R180). -/
theorem path?_total (t : HTree) (nd : (t.leaves.map Prod.fst).Nodup) (bits : List Bool) :
    (∃ c p rest, t.path? c = some p ∧ bits = p ++ rest) ∨
    (∃ c rest, rest ≠ [] ∧ t.path? c = some (bits ++ rest)) := by
  induction t generalizing bits with
  | leaf s f => exact .inl ⟨s, [], bits, by simp [path?], rfl⟩
  | interior f l r ihl ihr =>
    simp only [leaves, List.map_append, List.nodup_append] at nd
    obtain ⟨ndl, ndr, apart⟩ := nd
    have right : ∀ {c p}, r.path? c = some p → (interior f l r).path? c = some (true :: p) := fun {c p} hr => by
      have hl : l.path? c = none := by
        rw [← Option.not_isSome_iff_eq_none, path?_isSome]
        exact fun hc => apart c hc c ((path?_isSome r c).1 (by simp [hr])) rfl
      simp [path?, hl, hr]
    have left : ∀ {c p}, l.path? c = some p → (interior f l r).path? c = some (false :: p) := fun hl => by
      simp [path?, hl]
    match bits with
    | [] =>
      rcases ihl ndl [] with ⟨c, p, _, hl, -⟩ | ⟨c, p, -, hl⟩
      · exact .inr ⟨c, false :: p, by simp, left hl⟩
      · exact .inr ⟨c, false :: p, by simp, left hl⟩
    | true :: bits =>
      rcases ihr ndr bits with ⟨c, p, rest, hr, rfl⟩ | ⟨c, rest, hne, hr⟩
      · exact .inl ⟨c, true :: p, rest, right hr, rfl⟩
      · exact .inr ⟨c, rest, hne, right hr⟩
    | false :: bits =>
      rcases ihl ndl bits with ⟨c, p, rest, hl, rfl⟩ | ⟨c, rest, hne, hl⟩
      · exact .inl ⟨c, false :: p, rest, left hl, rfl⟩
      · exact .inr ⟨c, rest, hne, left hl⟩

/-- Every bit string spells whole codes and then nothing or a non-empty proper part of a code (R180, R182). -/
theorem spells_total {t : HTree} (ht : t.isInterior = true) (nd : (t.leaves.map Prod.fst).Nodup) (bits : List Bool) :
    ∃ (more : List Byte) (part : List Bool), more.length ≤ bits.length ∧ (∀ c ∈ more, (t.path? c).isSome = true) ∧
      t.spells more ++ part = bits ∧
      (part = [] ∨ ∃ c rest, part ≠ [] ∧ rest ≠ [] ∧ t.path? c = some (part ++ rest)) := by
  induction hn : bits.length using Nat.strong_induction_on generalizing bits with
  | _ n ih =>
    subst hn
    rcases t.path?_total nd bits with ⟨c, p, rest, hp, rfl⟩ | ⟨c, rest, hne, hp⟩
    · have hpos : 0 < p.length := List.length_pos_iff.2 (path?_ne_nil ht hp)
      obtain ⟨more, part, h1, h2, h3, h4⟩ := ih _ (by simp only [List.length_append]; omega) rest rfl
      refine ⟨c :: more, part, by simp only [List.length_cons, List.length_append]; omega, ?_, ?_, h4⟩
      · simpa [hp] using h2
      · simp only [List.flatMap_cons, hp, Option.getD_some, List.append_assoc, h3]
    · by_cases hb : bits = []
      · exact ⟨[], [], by simp, by simp, by simp [hb], .inl rfl⟩
      · exact ⟨[], bits, by simp, by simp, by simp, .inr ⟨c, rest, hb, hne, hp⟩⟩

end Sys2Proof.HTree

namespace Sys2Proof.Machine

/-- R161: the walk is a function of the tree. Below a path `p` it sets the entry of every leaf's symbol to that leaf's
path, and leaves the other entries. -/
theorem walk_of_reads {node : Memory Node} {i : Link} {t : HTree} {sl : List Nat} (h : Reads node i t sl)
    (nd : (t.leaves.map Prod.fst).Nodup) : ∀ (d : Nat) (p : List Bool) (code : Memory Code), t.depth < d →
    ∃ code', walk node d i p code = some code' ∧
      (∀ c : Byte, code'.read? c.toNat =
        match t.path? c with
        | some q => some (Code.ofPath (p ++ q))
        | none => code.read? c.toNat) ∧
      (∀ size, 256 ≤ size → code.wf size → code'.wf size) := by
  induction h with
  | @leaf i n h hk hl hr =>
    intro d p code hd
    obtain ⟨d, rfl⟩ : ∃ e, d = e + 1 := ⟨d - 1, by omega⟩
    refine ⟨_, by simp [walk, h, hk]; rfl, fun c => ?_, fun size hs hw => ?_⟩
    · rw [Memory.read?_insert]
      by_cases hc : c = n.sym
      · subst hc; simp [HTree.path?]
      · have : c.toNat ≠ n.sym.toNat := fun e => hc (BitVec.eq_of_toNat_eq e)
        simp [HTree.path?, hc, this]
    · exact Memory.wf_insert hw (lt_of_lt_of_le n.sym.isLt hs) _
  | @interior i n l r sl sr h hk _ _ ihl ihr =>
    intro d p code hd
    obtain ⟨d, rfl⟩ : ∃ e, d = e + 1 := ⟨d - 1, by omega⟩
    simp only [HTree.depth] at hd
    simp only [HTree.leaves, List.map_append] at nd
    rw [List.nodup_append] at nd
    obtain ⟨c1, w1, r1, f1⟩ := ihl nd.1 d (p ++ [false]) code (by omega)
    obtain ⟨c2, w2, r2, f2⟩ := ihr nd.2.1 d (p ++ [true]) c1 (by omega)
    refine ⟨c2, by simp [walk, h, hk, w1, w2], fun c => ?_, fun size hs hw => f2 size hs (f1 size hs hw)⟩
    rw [r2 c, r1 c]
    simp only [HTree.path?]
    cases hl : l.path? c with
    | none => cases hr : r.path? c <;> simp
    | some q =>
      have hcl : c ∈ l.leaves.map Prod.fst := (HTree.path?_isSome l c).1 (by simp [hl])
      have : r.path? c = none := by
        cases hr : r.path? c with
        | none => rfl
        | some q' => exact absurd rfl (nd.2.2 c hcl c ((HTree.path?_isSome r c).1 (by simp [hr])))
      simp [this]

end Sys2Proof.Machine
end

