-- ==== Sys2Proof/Laws/Merge.lean ====
section
/-! SUPPORT. The merge loop of BUILD (42_tree_builder.md R140 to R147): its shape, that it depends on the queue alone, and
the forest it works on, each queue entry the root of a well-formed tree. -/

namespace Sys2Proof.Machine

/-- R147 (a), (d), R145: a queue of `k + 2` entries takes `k + 1` merges, into the slots from `next` on, the last one the
root; the queue ends empty and every other slot is kept. -/
theorem mergeLoop_shape (p : Params) (turns : Nat) (m : Merge) (k : Nat) (hk : m.pq.length = k + 2)
    (ht : k + 2 ≤ turns) :
    (mergeLoop p turns m).pq = [] ∧ (mergeLoop p turns m).next = m.next + k + 1 ∧
    (mergeLoop p turns m).root = BitVec.ofNat 9 (m.next + k) ∧
    ∀ j, (j < m.next ∨ m.next + k < j) → (mergeLoop p turns m).node.read? j = m.node.read? j := by
  induction k generalizing turns m with
  | zero =>
    obtain ⟨turns, rfl⟩ : ∃ t, turns = t + 2 := ⟨turns - 2, by omega⟩
    obtain ⟨node, pq, next, root⟩ := m
    obtain ⟨a, b, rfl⟩ := List.length_eq_two.1 hk
    refine ⟨by simp [mergeLoop, pqAdd], by simp [mergeLoop, pqAdd], by simp [mergeLoop, pqAdd], fun j hj => ?_⟩
    simp only [mergeLoop, pqAdd, List.take_nil, List.drop_nil, List.nil_append, Memory.read?_insert]
    rw [if_neg (by simp only at hj; omega)]
  | succ k ih =>
    obtain ⟨turns, rfl⟩ : ∃ t, turns = t + 1 := ⟨turns - 1, by omega⟩
    obtain ⟨node, pq, next, root⟩ := m
    obtain ⟨a, b, rest, rfl⟩ : ∃ a b rest, pq = a :: b :: rest := by
      match pq, hk with
      | a :: b :: rest, _ => exact ⟨a, b, rest, rfl⟩
    simp only [List.length_cons] at hk
    obtain ⟨h1, h2, h3, h4⟩ := ih turns ⟨node.insert next (mergeNode p a b),
      pqAdd rest (truncKey p (a.key + b.key)) (BitVec.ofNat 9 next), next + 1, root⟩
      (by simp only [length_pqAdd]; omega) (by omega)
    simp only [mergeLoop]
    simp only at h2 h3 h4
    refine ⟨h1, by rw [h2]; omega, by rw [h3]; congr 1; omega, fun j hj => ?_⟩
    rw [h4 j (by omega), Memory.read?_insert, if_neg (by omega)]

/-- R147 (k): the loop's root and the slots it fills depend on the queue, the next slot and the width only. -/
theorem mergeLoop_congr (p p' : Params) (hp : p.fw = p'.fw) (turns : Nat) (m m' : Merge) (hq : m.pq = m'.pq)
    (hn : m.next = m'.next) (hr : m.root = m'.root) (hm : ∀ j, j < m.next → m.node.read? j = m'.node.read? j) :
    (mergeLoop p turns m).root = (mergeLoop p' turns m').root ∧
    (mergeLoop p turns m).next = (mergeLoop p' turns m').next ∧
    ∀ j, j < (mergeLoop p turns m).next →
      (mergeLoop p turns m).node.read? j = (mergeLoop p' turns m').node.read? j := by
  induction turns generalizing m m' with
  | zero => exact ⟨hr, hn, hm⟩
  | succ turns ih =>
    obtain ⟨node, pq, next, root⟩ := m
    obtain ⟨node', pq', next', root'⟩ := m'
    simp only at hq hn hr hm
    subst hq hn hr
    have ht : ∀ v, truncKey p v = truncKey p' v := fun v => by simp [truncKey, Params.nfw, hp]
    match pq with
    | [] => exact ⟨rfl, rfl, hm⟩
    | [a] => exact ⟨rfl, rfl, hm⟩
    | a :: b :: rest =>
      simp only [mergeLoop]
      refine ih _ _ (by simp only [ht]) rfl rfl fun j hj => ?_
      simp only at hj
      simp only [Memory.read?_insert, mergeNode, ht]
      split_ifs with h
      · rfl
      · exact hm j (by omega)

/-- The loop keeps the canonical form of the node store: it fills slots below 511 only. -/
theorem mergeLoop_wf (p : Params) (turns : Nat) (m : Merge) (h : m.node.wf Config.nodeMax)
    (hn : m.next + m.pq.length ≤ 512) : (mergeLoop p turns m).node.wf Config.nodeMax := by
  induction turns generalizing m with
  | zero => exact h
  | succ turns ih =>
    obtain ⟨node, pq, next, root⟩ := m
    match pq with
    | [] => exact h
    | [a] => exact h
    | a :: b :: rest =>
      simp only [List.length_cons] at hn
      refine ih _ (Memory.wf_insert h (by simp only [Config.nodeMax]; omega) _) ?_
      simp only [length_pqAdd]
      omega

/-- The loop keeps every frequency within `NFW` bits (R271). -/
theorem mergeLoop_freq (p : Params) (turns : Nat) (m : Merge) (h : ∀ c ∈ m.node, c.2.freq < 2 ^ p.nfw) :
    ∀ c ∈ (mergeLoop p turns m).node, c.2.freq < 2 ^ p.nfw := by
  induction turns generalizing m with
  | zero => exact h
  | succ turns ih =>
    obtain ⟨node, pq, next, root⟩ := m
    match pq with
    | [] => exact h
    | [a] => exact h
    | a :: b :: rest =>
      refine ih _ fun c hc => ?_
      rcases Memory.mem_insert hc with rfl | hc
      · exact Nat.mod_lt _ (by positivity)
      · exact h c hc

/-- A queue entry with the tree it is the root of and the slots of that tree. -/
structure Cand where
  entry : Entry
  tree : HTree
  slots : List Nat

/-- What holds at the head of every turn (R147): the queue's entries are the roots of disjoint well-formed trees over the
leaves `leaves`, all below the next free slot, and their keys sum to less than `2^NFW`. -/
structure Forest (p : Params) (m : Merge) (cands : List Cand) (ls : List (Byte × Nat)) : Prop where
  queue : cands.map Cand.entry = m.pq
  sorted : Sorted m.pq
  reads : ∀ c ∈ cands, Reads m.node c.entry.tag c.tree c.slots
  key : ∀ c ∈ cands, c.tree.freq = c.entry.key
  wf : ∀ c ∈ cands, c.tree.wf = true
  below : ∀ c ∈ cands, ∀ j ∈ c.slots, j < m.next
  home : ∀ c ∈ cands, LeavesHome m.node c.slots
  nodup : (cands.flatMap Cand.slots).Nodup
  leaves : (cands.flatMap fun c => c.tree.leaves).Perm ls
  count : m.next + cands.length = 256 + ls.length
  fits : (cands.map fun c => c.entry.key).sum < 2 ^ p.nfw

/-- The first slot of a reading is that of its root. -/
theorem Reads.root {node : Memory Node} {i : Link} {t : HTree} {sl : List Nat} (h : Reads node i t sl) :
    i.toNat ∈ sl ∧ ∃ n, node.read? i.toNat = some n ∧ n.freq = t.freq ∧ (t.isInterior = true ↔ n.kind = .interior) := by
  cases h with
  | leaf h hk _ _ => exact ⟨by simp, _, h, rfl, by simp [HTree.isInterior, hk]⟩
  | interior h hk _ _ => exact ⟨by simp, _, h, rfl, by simp [HTree.isInterior, hk]⟩

/-- Adding to a queue, with what its entries stand for carried along. -/
theorem pqAdd_cands {cands : List Cand} {q : List Entry} (hq : cands.map Cand.entry = q) (hs : Sorted q) (c : Cand) :
    ∃ cands' : List Cand, cands'.map Cand.entry = pqAdd q c.entry.key c.entry.tag ∧ cands'.Perm (c :: cands) := by
  obtain ⟨before, after, h1, h2, -, -⟩ := pqAdd_split hs c.entry.key c.entry.tag
  rw [h1] at hq
  obtain ⟨l1, l2, rfl, rfl, rfl⟩ := List.map_eq_append_iff.1 hq
  exact ⟨l1 ++ c :: l2, by simp [h2], List.perm_middle⟩

/-- The candidate a merge makes. -/
def Cand.merge (p : Params) (next : Nat) (a b : Cand) : Cand :=
  ⟨⟨truncKey p (a.entry.key + b.entry.key), BitVec.ofNat 9 next⟩,
    .interior (truncKey p (a.entry.key + b.entry.key)) a.tree b.tree, next :: (a.slots ++ b.slots)⟩

/-- One merge (R143, R144) keeps the forest. -/
theorem Forest.step {p : Params} {m : Merge} {a b : Cand} {cs : List Cand} {ls : List (Byte × Nat)}
    (h : Forest p m (a :: b :: cs) ls) (hl : ls.length ≤ 256) :
    truncKey p (a.entry.key + b.entry.key) = a.entry.key + b.entry.key ∧ m.next ≤ 510 ∧
    ∃ cands', cands'.Perm (Cand.merge p m.next a b :: cs) ∧
      Forest p { m with
        node := m.node.insert m.next (mergeNode p a.entry b.entry)
        pq := pqAdd (cs.map Cand.entry) (truncKey p (a.entry.key + b.entry.key)) (BitVec.ofNat 9 m.next)
        next := m.next + 1 } cands' ls := by
  have hfit := h.fits
  simp only [List.map_cons, List.sum_cons] at hfit
  have hkey : truncKey p (a.entry.key + b.entry.key) = a.entry.key + b.entry.key :=
    Nat.mod_eq_of_lt (by omega)
  have hcount := h.count
  simp only [List.length_cons] at hcount
  have hnext : m.next ≤ 510 := by omega
  have hsort : Sorted (cs.map Cand.entry) := by
    have := h.sorted
    rw [← h.queue] at this
    exact (List.pairwise_cons.1 (List.pairwise_cons.1 this).2).2
  obtain ⟨cands', hq, hp⟩ := pqAdd_cands rfl hsort (Cand.merge p m.next a b)
  have mem : ∀ c ∈ cands', c = Cand.merge p m.next a b ∨ c ∈ cs := fun c hc => by simpa using hp.mem_iff.1 hc
  have old : ∀ c ∈ a :: b :: cs, Reads (m.node.insert m.next (mergeNode p a.entry b.entry)) c.entry.tag c.tree c.slots :=
    fun c hc => (h.reads c hc).congr fun j hj => by
      rw [Memory.read?_insert, if_neg (by have := h.below c hc j hj; omega)]
  have homeOld : ∀ c ∈ a :: b :: cs, LeavesHome (m.node.insert m.next (mergeNode p a.entry b.entry)) c.slots := by
    intro c hc i hi n hn hk
    rw [Memory.read?_insert, if_neg (by have := h.below c hc i hi; omega)] at hn
    exact h.home c hc i hi n hn hk
  have tag : (BitVec.ofNat 9 m.next).toNat = m.next := by simp; omega
  have ha : a ∈ a :: b :: cs := by simp
  have hb : b ∈ a :: b :: cs := by simp
  refine ⟨hkey, hnext, cands', hp, hq, sorted_pqAdd hsort _ _, ?_, ?_, ?_, ?_, ?_, ?_, ?_, ?_, ?_⟩
  · intro c hc
    rcases mem c hc with rfl | hc
    · have := Reads.interior (node := m.node.insert m.next (mergeNode p a.entry b.entry)) (i := BitVec.ofNat 9 m.next)
        (n := mergeNode p a.entry b.entry) (by rw [tag, Memory.read?_insert, if_pos rfl]) rfl (old a ha) (old b hb)
      simpa [Cand.merge, mergeNode, tag] using this
    · exact old c (by simp [hc])
  · intro c hc
    rcases mem c hc with rfl | hc
    · rfl
    · exact h.key c (by simp [hc])
  · intro c hc
    rcases mem c hc with rfl | hc
    · simp [Cand.merge, HTree.wf, h.wf a ha, h.wf b hb, h.key a ha, h.key b hb, hkey]
    · exact h.wf c (by simp [hc])
  · intro c hc j hj
    rcases mem c hc with rfl | hc
    · simp only [Cand.merge, List.mem_cons, List.mem_append] at hj
      rcases hj with rfl | hj | hj
      · simp
      · exact Nat.lt_succ_of_lt (h.below a ha j hj)
      · exact Nat.lt_succ_of_lt (h.below b hb j hj)
    · exact Nat.lt_succ_of_lt (h.below c (by simp [hc]) j hj)
  · intro c hc
    rcases mem c hc with rfl | hc
    · intro i hi n hn hk
      simp only [Cand.merge, List.mem_cons, List.mem_append] at hi
      rcases hi with rfl | hi | hi
      · simp only [Memory.read?_insert, if_pos, Option.some.injEq] at hn
        subst hn
        simp [mergeNode] at hk
      · exact homeOld a ha i hi n hn hk
      · exact homeOld b hb i hi n hn hk
    · exact homeOld c (by simp [hc])
  · rw [(hp.flatMap_right _).nodup_iff]
    have := h.nodup
    simp only [List.flatMap_cons] at this
    simp only [List.flatMap_cons, Cand.merge, List.cons_append, List.nodup_cons, List.append_assoc]
    refine ⟨fun hmem => ?_, this⟩
    rcases List.mem_append.1 hmem with hm | hm
    · exact absurd (h.below a ha _ hm) (by omega)
    · rcases List.mem_append.1 hm with hm | hm
      · exact absurd (h.below b hb _ hm) (by omega)
      · obtain ⟨c, hc, hm⟩ := List.mem_flatMap.1 hm
        exact absurd (h.below c (by simp [hc]) _ hm) (by omega)
  · refine (hp.flatMap_right _).trans (List.Perm.trans ?_ h.leaves)
    simp [Cand.merge, HTree.leaves]
  · rw [hp.length_eq]
    simp only [List.length_cons]
    omega
  · rw [(hp.map _).sum_eq]
    simp only [List.map_cons, List.sum_cons, Cand.merge, hkey]
    omega

/-- R147 (e): an exact sum over two earlier slots, the lighter child on the left. -/
abbrev MergedSlot (node : Memory Node) (j : Nat) : Prop :=
  ∃ n l r, node.read? j = some n ∧ n.kind = .interior ∧ n.sym = 0 ∧ n.left.toNat < j ∧ n.right.toNat < j ∧
    node.read? n.left.toNat = some l ∧ node.read? n.right.toNat = some r ∧
    n.freq = l.freq + r.freq ∧ l.freq ≤ r.freq

/-- What the loop makes of a forest: one well-formed tree over all its leaves (R147 (c) to (g)), every filled slot an exact
sum (R147 (e)), and no tree over the keys that would cost less (R147 (j)). -/
theorem Forest.loop {p : Params} {ls : List (Byte × Nat)} (hl : ls.length ≤ 256) (turns : Nat) {m : Merge}
    {cands : List Cand} (h : Forest p m cands ls) (ht : cands.length ≤ turns) (hne : cands ≠ []) :
    ∃ t sl, Reads (mergeLoop p turns m).node (mergeLoop p turns m).root t sl ∧ t.wf = true ∧ t.leaves.Perm ls ∧
      sl.Nodup ∧ LeavesHome (mergeLoop p turns m).node sl ∧ t.freq = (cands.map fun c => c.entry.key).sum ∧
      (∀ j ∈ sl, j < (mergeLoop p turns m).next) ∧
      (2 ≤ cands.length → t.isInterior = true) ∧
      (∀ j, j < m.next → (mergeLoop p turns m).node.read? j = m.node.read? j) ∧
      (∀ j, m.next ≤ j → j < (mergeLoop p turns m).next → MergedSlot (mergeLoop p turns m).node j) ∧
      (∀ u : HTree, u.weights.Perm (cands.map fun c => c.entry.key) →
        t.costAt 0 ≤ u.costAt 0 + (cands.map fun c => c.tree.costAt 0).sum) := by
  induction turns generalizing m cands with
  | zero => exact absurd (List.length_eq_zero_iff.1 (by omega)) hne
  | succ turns ih =>
    obtain ⟨node, pq, next, root⟩ := m
    match cands, hne with
    | [a], _ =>
      have hq : pq = [a.entry] := h.queue.symm
      subst hq
      have ha : a ∈ [a] := by simp
      refine ⟨a.tree, a.slots, h.reads a ha, h.wf a ha, by simpa using h.leaves, by simpa using h.nodup,
        h.home a ha, by simpa using h.key a ha, h.below a ha, by simp, fun _ _ => rfl, fun j h1 h2 => ?_, fun u hu => ?_⟩
      · simp only [mergeLoop] at h1 h2; omega
      · simp
    | a :: b :: cs, _ =>
      have hq : pq = a.entry :: b.entry :: cs.map Cand.entry := h.queue.symm
      subst hq
      obtain ⟨hkey, hnext, cands', hp, h'⟩ := h.step hl
      have hlen : cands'.length = cs.length + 1 := by simpa using hp.length_eq
      simp only [List.length_cons] at ht
      obtain ⟨t, sl, r1, r2, r3, r4, r5, r6, r7, r8, r9, r10, r11⟩ := ih h' (by omega)
        (by intro e; simp [e] at hlen)
      have ha : a ∈ a :: b :: cs := by simp
      have hb : b ∈ a :: b :: cs := by simp
      obtain ⟨sa, na, ra, fa, -⟩ := (h.reads a ha).root
      obtain ⟨sb, nb, rb, fb, -⟩ := (h.reads b hb).root
      have la : a.entry.tag.toNat < next := h.below a ha _ sa
      have lb : b.entry.tag.toNat < next := h.below b hb _ sb
      have hab : a.entry.key ≤ b.entry.key := (List.pairwise_cons.1 h.sorted).1 _ (by simp)
      simp only [mergeLoop]
      simp only at r9 r10
      have keep : ∀ j, j < next → Memory.read? (mergeLoop p turns _).node j = node.read? j := fun j hj => by
        rw [r9 j (by omega), Memory.read?_insert, if_neg (by omega)]
      refine ⟨t, sl, r1, r2, r3, r4, r5, ?_, r7, fun _ => ?_, keep, fun j h1 h2 => ?_, fun u hu => ?_⟩
      · rw [r6, (hp.map _).sum_eq]
        simp only [List.map_cons, List.sum_cons, Cand.merge, hkey]
        omega
      · by_cases h2 : 2 ≤ cands'.length
        · exact r8 h2
        · -- the last merge: its node is the root
          have hcs : cs = [] := List.length_eq_zero_iff.1 (by omega)
          subst hcs
          have : t.leaves.length = ls.length := r3.length_eq
          have h3 : 2 ≤ ls.length := by
            have := h.leaves.length_eq
            simp only [List.flatMap_cons, List.flatMap_nil, List.length_append, List.length_nil] at this
            have := HTree.depth_lt_leaves a.tree
            have := HTree.depth_lt_leaves b.tree
            omega
          cases t with
          | leaf => simp [HTree.leaves] at this; omega
          | interior => rfl
      · rcases Nat.lt_or_ge next j with hj | hj
        · exact r10 j hj h2
        · obtain rfl : j = next := by omega
          refine ⟨mergeNode p a.entry b.entry, na, nb, ?_, rfl, rfl, la, lb, ?_, ?_, ?_, ?_⟩
          · rw [r9 j (by simp), Memory.read?_insert, if_pos rfl]
          · exact (keep _ la).trans ra
          · exact (keep _ lb).trans rb
          · simp only [mergeNode]
            rw [hkey, fa, fb, h.key a ha, h.key b hb]
          · rw [fa, fb, h.key a ha, h.key b hb]; exact hab
      · simp only [List.map_cons] at hu
        have hbs : ∀ w ∈ cs.map (fun c => c.entry.key), b.entry.key ≤ w := by
          intro w hw
          obtain ⟨c, hc, rfl⟩ := List.mem_map.1 hw
          exact (List.pairwise_cons.1 (List.pairwise_cons.1 h.sorted).2).1 _ (List.mem_map.2 ⟨c, hc, rfl⟩)
        obtain ⟨v, hv, hc⟩ := HTree.contract hu hab hbs
        have key := r11 v (hv.trans (by
          refine List.Perm.trans ?_ (hp.map _).symm
          simp [Cand.merge, hkey]))
        rw [(hp.map _).sum_eq] at key
        have e1 := HTree.costAt_succ a.tree 0
        have e2 := HTree.costAt_succ b.tree 0
        rw [HTree.weights_sum (h.wf a ha), h.key a ha] at e1
        rw [HTree.weights_sum (h.wf b hb), h.key b hb] at e2
        simp only [List.map_cons, List.sum_cons, Cand.merge, HTree.costAt] at key ⊢
        omega

end Sys2Proof.Machine
end

