-- ==== Sys2Proof/Laws/Build.lean ====
section
/-! SUPPORT. What BUILD's merge loop starts from and ends with (42_tree_builder.md R140, R142, R147). -/

namespace Sys2Proof.Machine

/-- R140: `n_pos` is the number of leaves that go into the queue. -/
theorem State.positives_eq (s : State) : s.positives = s.positiveCounts.length := by
  simp [State.positives, State.positiveCounts, List.countP_eq_length_filter]

theorem State.length_positiveCounts (s : State) : s.positiveCounts.length ≤ 256 := by
  rw [← s.positives_eq]
  exact (List.countP_le_length).trans (by simp)

/-- The candidate a leaf is. -/
def leafCand (s : State) (i : Nat) : Cand :=
  ⟨⟨s.freqAt i, BitVec.ofNat 9 i⟩, .leaf (BitVec.ofNat 8 i) (s.freqAt i), [i]⟩

/-- R142: the leaves go into the queue one after another, each with a positive count. -/
theorem leafQueue_cands (s : State) (l : List Nat) (cands : List Cand) (q : List Entry)
    (hq : cands.map Cand.entry = q) (hs : Sorted q) :
    Sorted (l.foldl s.addLeaf q) ∧ ∃ cands' : List Cand, cands'.map Cand.entry = l.foldl s.addLeaf q ∧
      cands'.Perm ((l.filter fun i => decide (0 < s.freqAt i)).map (leafCand s) ++ cands) := by
  induction l generalizing cands q with
  | nil => exact ⟨hs, cands, hq, by simp⟩
  | cons i l ih =>
    simp only [List.foldl_cons]
    by_cases hi : 0 < s.freqAt i
    · obtain ⟨c1, h1, h2⟩ := pqAdd_cands hq hs (leafCand s i)
      have ha : s.addLeaf q i = pqAdd q (leafCand s i).entry.key (leafCand s i).entry.tag := by
        simp [State.addLeaf, hi, leafCand]
      rw [ha]
      obtain ⟨g1, c2, g2, g3⟩ := ih c1 _ h1 (sorted_pqAdd hs _ _)
      refine ⟨g1, c2, g2, g3.trans ?_⟩
      simp only [List.filter_cons, hi, decide_true, if_true, List.map_cons, List.cons_append]
      exact (List.Perm.append_left _ h2).trans List.perm_middle
    · rw [show s.addLeaf q i = q by simp [State.addLeaf, hi]]
      obtain ⟨g1, c2, g2, g3⟩ := ih cands q hq hs
      exact ⟨g1, c2, g2, g3.trans (by simp [hi])⟩

theorem State.length_leafQueue (s : State) : s.leafQueue.length = s.positiveCounts.length := by
  obtain ⟨-, cands, h1, h2⟩ := leafQueue_cands s (List.range Config.alphabet) [] [] rfl List.Pairwise.nil
  have := congrArg List.length h1
  rw [List.length_map, h2.length_eq] at this
  rw [State.leafQueue, ← this]
  simp [State.positiveCounts]

@[simp] theorem State.mergeStart_pq (s : State) : s.mergeStart.pq = s.leafQueue := by
  simp only [State.mergeStart]
@[simp] theorem State.mergeStart_next (s : State) : s.mergeStart.next = 256 := by
  simp only [State.mergeStart]

/-- R142: the slots of the leaves hold the leaves. -/
theorem State.mergeStart_read (s : State) (j : Nat) :
    s.mergeStart.node.read? j = if j < 256 then some (s.leafNode j) else s.node.read? j := by
  simp only [State.mergeStart, Memory.read?_writePrefix, State.leafNodes, List.length_map, List.length_range]
  by_cases h : j < 256
  · simp [h]
  · simp [h]

/-- Where the loop starts, its queue entries are leaves at home: the sum of all counts fits `NFW` bits (R8). -/
theorem State.mergeStart_forest (s : State) (hf : ∀ i, i < 256 → s.freqAt i < 2 ^ s.params.fw) :
    ∃ cands, Forest s.params s.mergeStart cands s.positiveCounts ∧ cands.length = s.positiveCounts.length ∧
      (cands.map fun c => c.entry.key).Perm (s.positiveCounts.map Prod.snd) ∧
      (cands.map fun c => c.entry.key).sum = ((List.range 256).map s.freqAt).sum ∧
      (cands.map fun c => c.tree.costAt 0).sum = 0 := by
  obtain ⟨hs, cands, hq, hp⟩ := leafQueue_cands s (List.range Config.alphabet) [] [] rfl List.Pairwise.nil
  rw [List.append_nil] at hp
  change _ = s.leafQueue at hq
  change Sorted s.leafQueue at hs
  have mem : ∀ c ∈ cands, ∃ i, i < 256 ∧ 0 < s.freqAt i ∧ c = leafCand s i := by
    intro c hc
    obtain ⟨i, hi, rfl⟩ := List.mem_map.1 (hp.mem_iff.1 hc)
    simp only [List.mem_filter, List.mem_range, decide_eq_true_eq] at hi
    exact ⟨i, hi.1, hi.2, rfl⟩
  have tag9 : ∀ i, i < 256 → (BitVec.ofNat 9 i).toNat = i := by intro i hi; simp; omega
  have tag8 : ∀ i, i < 256 → (BitVec.ofNat 8 i).toNat = i := by intro i hi; simp; omega
  have read : ∀ i, i < 256 → s.mergeStart.node.read? i = some (s.leafNode i) := by
    intro i hi; rw [s.mergeStart_read, if_pos hi]
  have keys : (cands.map fun c => c.entry.key).Perm (s.positiveCounts.map Prod.snd) := by
    refine (hp.map _).trans ?_
    simp only [State.positiveCounts, List.map_map]
    exact List.Perm.of_eq rfl
  have len : cands.length = s.positiveCounts.length := by simpa using keys.length_eq
  have sum : (cands.map fun c => c.entry.key).sum = ((List.range 256).map s.freqAt).sum := by
    rw [keys.sum_eq]
    simp only [State.positiveCounts, List.map_map]
    suffices h : ∀ l : List Nat,
        ((l.filter fun i => decide (0 < s.freqAt i)).map (Prod.snd ∘ fun i => ((BitVec.ofNat 8 i : Byte), s.freqAt i))).sum =
          (l.map s.freqAt).sum from h _
    intro l
    induction l with
    | nil => rfl
    | cons i l ih =>
      by_cases hi : 0 < s.freqAt i
      · simp [hi, ih]
      · simp only [List.filter_cons, hi, decide_false, Bool.false_eq_true, if_false, ih, List.map_cons, List.sum_cons]
        omega
  refine ⟨cands, ⟨by rw [hq, s.mergeStart_pq], by rw [s.mergeStart_pq]; exact hs, ?_, ?_, ?_, ?_, ?_, ?_, ?_, ?_, ?_⟩, len, keys, sum, ?_⟩
  · intro c hc
    obtain ⟨i, hi, -, rfl⟩ := mem c hc
    have := Reads.leaf (i := BitVec.ofNat 9 i) (by rw [tag9 i hi]; exact read i hi) rfl rfl rfl
    rw [tag9 i hi] at this
    exact this
  · intro c hc
    obtain ⟨i, -, -, rfl⟩ := mem c hc
    rfl
  · intro c hc
    obtain ⟨i, -, h, rfl⟩ := mem c hc
    simpa [leafCand, HTree.wf] using h
  · intro c hc j hj
    obtain ⟨i, h, -, rfl⟩ := mem c hc
    simp only [leafCand, List.mem_singleton] at hj
    subst hj
    exact h
  · intro c hc j hj n hn hk
    obtain ⟨i, h, -, rfl⟩ := mem c hc
    simp only [leafCand, List.mem_singleton] at hj
    subst hj
    rw [read j h] at hn
    cases hn
    exact tag8 j h
  · rw [(hp.flatMap_right _).nodup_iff]
    have : (((List.range Config.alphabet).filter fun i => decide (0 < s.freqAt i)).map (leafCand s)).flatMap Cand.slots =
        (List.range Config.alphabet).filter fun i => decide (0 < s.freqAt i) := by
      rw [List.flatMap_map]
      simp [leafCand]
    rw [this]
    exact List.Nodup.filter _ List.nodup_range
  · refine (hp.flatMap_right _).trans (List.Perm.of_eq ?_)
    rw [List.flatMap_map]
    simp only [leafCand, HTree.leaves, State.positiveCounts]
    exact (List.map_eq_flatMap).symm
  · rw [len]; rfl
  · rw [sum]
    have : ((List.range 256).map s.freqAt).sum ≤ 256 * (2 ^ s.params.fw - 1) := by
      have := List.sum_le_card_nsmul ((List.range 256).map s.freqAt) (2 ^ s.params.fw - 1) (by
        intro x hx
        obtain ⟨i, hi, rfl⟩ := List.mem_map.1 hx
        have := hf i (List.mem_range.1 hi)
        omega)
      simpa using this
    have hpow : 2 ^ s.params.nfw = 256 * 2 ^ s.params.fw := by
      rw [Params.nfw, pow_add]; ring
    have : 0 < 2 ^ s.params.fw := by positivity
    omega
  · rw [List.sum_eq_zero]
    intro x hx
    obtain ⟨c, hc, rfl⟩ := List.mem_map.1 hx
    obtain ⟨i, -, -, rfl⟩ := mem c hc
    simp [leafCand, HTree.costAt]

/-- What BUILD leaves (R147): the root and next slots, and the tree they hold. -/
theorem State.merged_shape (s : State) (h : 2 ≤ s.positiveCounts.length) :
    s.merged.pq = [] ∧ s.merged.next = 255 + s.positiveCounts.length ∧
    s.merged.root.toNat = 254 + s.positiveCounts.length ∧
    (∀ j, j < 256 → s.merged.node.read? j = some (s.leafNode j)) ∧
    ∀ j, s.merged.next ≤ j → s.merged.node.read? j = s.node.read? j := by
  have hl := s.length_positiveCounts
  obtain ⟨k, hk⟩ : ∃ k, s.positiveCounts.length = k + 2 := ⟨s.positiveCounts.length - 2, by omega⟩
  have hq : s.mergeStart.pq.length = k + 2 := by
    rw [s.mergeStart_pq, s.length_leafQueue, hk]
  obtain ⟨h1, h2, h3, h4⟩ := mergeLoop_shape s.params Config.alphabet s.mergeStart k hq (by rw [← hk]; exact hl)
  rw [s.mergeStart_next] at h2 h3 h4
  refine ⟨by rw [State.merged, h1], ?_, ?_, fun j hj => ?_, fun j hj => ?_⟩
  · rw [State.merged, h2]; omega
  · rw [State.merged, h3]; simp; omega
  · rw [State.merged, h4 j (by omega), s.mergeStart_read, if_pos hj]
  · rw [State.merged, h2] at hj
    rw [State.merged, h4 j (by omega), s.mergeStart_read, if_neg (by omega)]

theorem State.merged_tree (s : State) (hf : ∀ i, i < 256 → s.freqAt i < 2 ^ s.params.fw)
    (h : 2 ≤ s.positiveCounts.length) :
    ∃ t sl, Reads s.merged.node s.merged.root t sl ∧ t.wf = true ∧ t.isInterior = true ∧
      t.leaves.Perm s.positiveCounts ∧ sl.Nodup ∧ LeavesHome s.merged.node sl ∧
      t.freq = ((List.range 256).map s.freqAt).sum ∧ t.freq < 2 ^ s.params.nfw ∧
      (∀ j, 256 ≤ j → j < s.merged.next → MergedSlot s.merged.node j) ∧
      (∀ u : HTree, u.leaves.Perm s.positiveCounts → t.costAt 0 ≤ u.costAt 0) := by
  obtain ⟨cands, hF, hlen, hkeys, hsum, hcost⟩ := s.mergeStart_forest hf
  obtain ⟨t, sl, r1, r2, r3, r4, r5, r6, r7, r8, r9, r10, r11⟩ := hF.loop s.length_positiveCounts Config.alphabet
    (by rw [hlen]; exact s.length_positiveCounts) (by intro e; simp [e] at hlen; omega)
  refine ⟨t, sl, r1, r2, r8 (by omega), r3, r4, r5, by rw [r6, hsum], by rw [r6]; exact hF.fits, r10, fun u hu => ?_⟩
  have := r11 u ((hu.map _).trans hkeys.symm)
  rw [hcost] at this
  simpa using this

end Sys2Proof.Machine
end

