-- ==== Sys2Proof/Laws/Codec.lean ====
section
/-! SUPPORT. The tally as a count (R191), the encoder's loop as a concatenation or its first fault (R170), the decoder's
turns along the paths of a tree (R180). -/

namespace Sys2Proof.Machine

/-- Counting one symbol adds one to its count, in `FW` bits. -/
theorem countSymbol_read (p : Params) (m : Memory Nat) (c : Byte) (j : Nat) :
    ((countSymbol p m c).read? j).getD 0 =
      if j = c.toNat then truncCount p ((m.read? j).getD 0 + 1) else (m.read? j).getD 0 := by
  unfold countSymbol
  rw [read?_storeCount]
  split_ifs with h <;> simp [h]

/-- The tally holds the low `FW` bits of the number of occurrences (R191). -/
theorem tally_read (p : Params) (l : List Byte) (c : Byte) :
    ((tally p l).read? c.toNat).getD 0 = l.count c % 2 ^ p.fw := by
  suffices h : ∀ (l : List Byte) (m : Memory Nat), ((m.read? c.toNat).getD 0) < 2 ^ p.fw →
      ((l.foldl (countSymbol p) m).read? c.toNat).getD 0 = ((m.read? c.toNat).getD 0 + l.count c) % 2 ^ p.fw by
    have := h l [] (by simp)
    simpa [tally] using this
  intro l
  induction l with
  | nil => intro m hm; simp [Nat.mod_eq_of_lt hm]
  | cons y l ih =>
    intro m hm
    have hr := countSymbol_read p m y c.toNat
    rw [List.foldl_cons, ih, hr]
    · by_cases hy : y = c
      · subst hy
        simp only [if_true, truncCount, List.count_cons_self, Nat.mod_add_mod]
        congr 1; omega
      · have : c.toNat ≠ y.toNat := fun e => hy (BitVec.eq_of_toNat_eq e.symm)
        rw [if_neg this, List.count_cons_of_ne hy]
    · rw [hr]
      split_ifs
      · exact Nat.mod_lt _ (by positivity)
      · exact hm

theorem wf_tally (p : Params) (l : List Byte) : (tally p l).wf 256 := by
  suffices h : ∀ (l : List Byte) (m : Memory Nat), m.wf 256 → Memory.wf 256 (l.foldl (countSymbol p) m) from
    h l [] (Memory.wf_nil _)
  intro l
  induction l with
  | nil => intro m hm; exact hm
  | cons y l ih => intro m hm; exact ih _ (wf_storeCount hm y.isLt _)

theorem mem_tally {p : Params} {l : List Byte} {c : Nat × Nat} (h : c ∈ tally p l) : 0 < c.2 ∧ c.2 < 2 ^ p.fw := by
  suffices hs : ∀ (l : List Byte) (m : Memory Nat), (∀ c ∈ m, 0 < c.2 ∧ c.2 < 2 ^ p.fw) →
      ∀ c ∈ l.foldl (countSymbol p) m, 0 < c.2 ∧ c.2 < 2 ^ p.fw from hs l [] (by simp) c h
  intro l
  induction l with
  | nil => intro m hm; exact hm
  | cons y l ih =>
    intro m hm
    refine ih _ fun c hc => ?_
    rcases mem_storeCount hc with hc | hc
    · exact hm c hc
    · exact hc

/-- R170: every symbol has a code and the codes fit: the loop appends them in order. -/
theorem encodeLoop_ok (cap : Nat) (cs : List Code) (i pos : Nat) (h : ∀ c ∈ cs, c.len ≠ 0)
    (hs : pos + (cs.map (fun c => c.len.toNat)).sum ≤ cap) :
    encodeLoop cap cs i pos = .ok (cs.flatMap Code.string) := by
  induction cs generalizing i pos with
  | nil => rfl
  | cons c cs ih =>
    simp only [List.map_cons, List.sum_cons] at hs
    rw [encodeLoop, if_neg (h c (by simp)), if_pos (by omega),
      ih _ _ (fun a ha => h a (by simp [ha])) (by omega)]
    rfl

/-- R170, R171, R172: the first symbol without a code, or without room, is the one named. -/
theorem encodeLoop_error (cap : Nat) (before after : List Code) (c : Code) (i pos : Nat)
    (h : ∀ a ∈ before, a.len ≠ 0) (hs : pos + (before.map (fun a => a.len.toNat)).sum ≤ cap) :
    (c.len = 0 → encodeLoop cap (before ++ c :: after) i pos = .error (.noCode, i + before.length)) ∧
    (c.len ≠ 0 → cap < pos + (before.map (fun a => a.len.toNat)).sum + c.len.toNat →
      encodeLoop cap (before ++ c :: after) i pos = .error (.overflow, i + before.length)) := by
  induction before generalizing i pos with
  | nil =>
    refine ⟨fun hc => by simp [encodeLoop, hc], fun hc ho => ?_⟩
    simp only [List.map_nil, List.sum_nil, Nat.add_zero] at ho
    simp only [List.nil_append, encodeLoop, if_neg hc, if_neg (show ¬ pos + c.len.toNat ≤ cap by omega),
      List.length_nil, Nat.add_zero]
  | cons a before ih =>
    simp only [List.map_cons, List.sum_cons] at hs ⊢
    obtain ⟨h1, h2⟩ := ih (i + 1) (pos + a.len.toNat) (fun b hb => h b (by simp [hb])) (by omega)
    have e : i + 1 + before.length = i + (before.length + 1) := by omega
    simp only [List.cons_append, encodeLoop, if_neg (h a (by simp)), List.length_cons]
    rw [if_pos (by omega)]
    refine ⟨fun hc => ?_, fun hc ho => ?_⟩
    · rw [h1 hc, e]
    · rw [h2 hc (by omega), e]

/-- The loop's answer, whatever the input: the codes of all symbols, or a cause of R170 at a position of the input. -/
theorem encodeLoop_cases (cap : Nat) (cs : List Code) (i pos : Nat) (hp : pos ≤ cap) :
    (encodeLoop cap cs i pos = .ok (cs.flatMap Code.string) ∧ (∀ c ∈ cs, c.len ≠ 0) ∧
      pos + (cs.map (fun c => c.len.toNat)).sum ≤ cap) ∨
    (∃ c j, encodeLoop cap cs i pos = .error (c, j) ∧ (c = .noCode ∨ c = .overflow) ∧ i ≤ j ∧ j < i + cs.length) := by
  induction cs generalizing i pos with
  | nil => left; simpa [encodeLoop] using hp
  | cons c cs ih =>
    by_cases hc : c.len = 0
    · right; exact ⟨.noCode, i, by simp [encodeLoop, hc], Or.inl rfl, le_rfl, by simp⟩
    · by_cases hf : pos + c.len.toNat ≤ cap
      · rcases ih (i + 1) (pos + c.len.toNat) hf with ⟨h1, h2, h3⟩ | ⟨d, j, h1, h2, h3, h4⟩
        · left
          refine ⟨?_, ?_, ?_⟩
          · rw [encodeLoop, if_neg hc, if_pos hf, h1]; rfl
          · simpa using ⟨hc, h2⟩
          · simp only [List.map_cons, List.sum_cons]; omega
        · right
          refine ⟨d, j, ?_, h2, by omega, by simp; omega⟩
          rw [encodeLoop, if_neg hc, if_pos hf, h1]
      · right; exact ⟨.overflow, i, by rw [encodeLoop, if_neg hc, if_neg hf], Or.inr rfl, le_rfl, by simp⟩

theorem length_flatMap_string (cs : List Code) :
    (cs.flatMap Code.string).length = (cs.map (fun c => c.len.toNat)).sum := by
  induction cs with
  | nil => rfl
  | cons c cs ih => simp [Code.length_string, ih]

/-- A step of the decoder at an interior node of the store, to a leaf or to an interior node (R180). -/
theorem decodeBit_of_reads {node : Memory Node} {root cur : Link} {f : Nat} {l r : HTree} {sl : List Nat}
    (h : Reads node cur (.interior f l r) sl) (b : Bool) : ∃ child sc,
    Reads node child (if b then r else l) sc ∧ (∀ j ∈ sc, j ∈ sl.tail) ∧
    decodeBit node root cur b =
      match (if b then r else l : HTree) with
      | .leaf s _ => some (root, some s)
      | .interior _ _ _ => some (child, none) := by
  cases h with
  | @interior i n l r sl sr h hk hl hr =>
    cases b with
    | true =>
      refine ⟨n.right, sr, hr, by simp; tauto, ?_⟩
      cases hr with
      | leaf h' hk' _ _ => simp [decodeBit, h, h', hk']
      | interior h' hk' _ _ => simp [decodeBit, h, h', hk']
    | false =>
      refine ⟨n.left, sl, hl, by simp; tauto, ?_⟩
      cases hl with
      | leaf h' hk' _ _ => simp [decodeBit, h, h', hk']
      | interior h' hk' _ _ => simp [decodeBit, h, h', hk']

/-- R180: from an interior node, the path to a leaf emits its symbol and puts the cursor back at the root. -/
theorem decodeBits_path {node : Memory Node} {root cur : Link} {t : HTree} {sl : List Nat} (h : Reads node cur t sl)
    (ht : t.isInterior = true) {c : Byte} {p : List Bool} (hp : t.path? c = some p) (rest : List Bool) :
    decodeBits node root (p ++ rest) cur =
      match decodeBits node root rest root with
      | some (syms, last) => some (c :: syms, last)
      | none => none := by
  induction t generalizing cur sl p with
  | leaf => simp [HTree.isInterior] at ht
  | interior f l r ihl ihr =>
    have step : ∀ (b : Bool) (q : List Bool), p = b :: q → (if b then r else l : HTree).path? c = some q →
        decodeBits node root (p ++ rest) cur =
          match decodeBits node root rest root with
          | some (syms, last) => some (c :: syms, last)
          | none => none := by
      intro b q e hq
      obtain ⟨child, sc, hc, -, hd⟩ := decodeBit_of_reads (root := root) h b
      subst e
      simp only [List.cons_append, decodeBits, hd]
      cases hx : (if b then r else l : HTree) with
      | leaf s g =>
        rw [hx] at hq
        simp only [HTree.path?] at hq
        split_ifs at hq with hs
        cases hq
        subst hs
        simp only [List.nil_append]
        cases decodeBits node root rest root <;> rfl
      | interior g l' r' =>
        have ih : decodeBits node root (q ++ rest) child =
            match decodeBits node root rest root with
            | some (syms, last) => some (c :: syms, last)
            | none => none := by
          cases b with
          | true => exact ihr hc (by simp only [if_true] at hx; simp [hx, HTree.isInterior]) hq
          | false => exact ihl hc (by simp only [Bool.false_eq_true, if_false] at hx; simp [hx, HTree.isInterior]) hq
        simp only [ih]
        cases decodeBits node root rest root <;> rfl
    simp only [HTree.path?] at hp
    cases hl : l.path? c with
    | some q => simp only [hl, Option.some.injEq] at hp; exact step false q hp.symm hl
    | none =>
      cases hr : r.path? c with
      | none => simp [hl, hr] at hp
      | some q => simp only [hl, hr, Option.map_some, Option.some.injEq] at hp; exact step true q hp.symm hr

/-- R180: the concatenated paths of symbols emit the symbols. -/
theorem decodeBits_paths {node : Memory Node} {root : Link} {t : HTree} {sl : List Nat} (h : Reads node root t sl)
    (ht : t.isInterior = true) (q : List Byte) (hq : ∀ c ∈ q, (t.path? c).isSome = true) (rest : List Bool) :
    decodeBits node root (q.flatMap (fun c => (t.path? c).getD []) ++ rest) root =
      match decodeBits node root rest root with
      | some (syms, last) => some (q ++ syms, last)
      | none => none := by
  induction q with
  | nil => simp only [List.flatMap_nil, List.nil_append]; cases decodeBits node root rest root <;> rfl
  | cons c q ih =>
    obtain ⟨p, hp⟩ := Option.isSome_iff_exists.1 (hq c (by simp))
    simp only [List.flatMap_cons, hp, Option.getD_some, List.append_assoc]
    rw [decodeBits_path h ht hp, ih (fun a ha => hq a (by simp [ha]))]
    cases decodeBits node root rest root <;> rfl

/-- R180: a proper part of a path emits nothing and leaves the cursor below where it started. -/
theorem decodeBits_part {node : Memory Node} {root cur : Link} {t : HTree} {sl : List Nat} (h : Reads node cur t sl)
    (ht : t.isInterior = true) {c : Byte} {part more : List Bool} (hp : t.path? c = some (part ++ more))
    (hne : part ≠ []) (hm : more ≠ []) :
    ∃ last, decodeBits node root part cur = some ([], last) ∧ last.toNat ∈ sl.tail := by
  induction t generalizing cur sl part with
  | leaf => simp [HTree.isInterior] at ht
  | interior f l r ihl ihr =>
    have step : ∀ (b : Bool) (q : List Bool), part = b :: q → (if b then r else l : HTree).path? c = some (q ++ more) →
        ∃ last, decodeBits node root part cur = some ([], last) ∧ last.toNat ∈ sl.tail := by
      intro b q e hq
      obtain ⟨child, sc, hc, hsub, hd⟩ := decodeBit_of_reads (root := root) h b
      subst e
      cases hx : (if b then r else l : HTree) with
      | leaf s g =>
        rw [hx] at hq
        simp only [HTree.path?] at hq
        split_ifs at hq
        simp at hq
        exact absurd hq.2 hm
      | interior g l' r' =>
        simp only [decodeBits, hd, hx]
        by_cases hqn : q = []
        · subst hqn
          refine ⟨child, by simp [decodeBits], hsub _ ?_⟩
          rw [hx] at hc
          cases hc; simp
        · have : ∃ last, decodeBits node root q child = some ([], last) ∧ last.toNat ∈ sc.tail := by
            cases b with
            | true => exact ihr hc (by simp only [if_true] at hx; simp [hx, HTree.isInterior]) hq hqn
            | false =>
              exact ihl hc (by simp only [Bool.false_eq_true, if_false] at hx; simp [hx, HTree.isInterior]) hq hqn
          obtain ⟨last, h1, h2⟩ := this
          exact ⟨last, by simp [h1], hsub _ (List.mem_of_mem_tail h2)⟩
    obtain ⟨b, q, rfl⟩ := List.exists_cons_of_ne_nil hne
    simp only [HTree.path?, List.cons_append] at hp
    cases hl : l.path? c with
    | some q' =>
      simp only [hl, Option.some.injEq, List.cons.injEq] at hp
      obtain ⟨rfl, rfl⟩ := hp
      exact step false q rfl hl
    | none =>
      cases hr : r.path? c with
      | none => simp [hl, hr] at hp
      | some q' =>
        simp only [hl, hr, Option.map_some, Option.some.injEq, List.cons.injEq] at hp
        obtain ⟨rfl, rfl⟩ := hp
        exact step true q rfl hr

/-- R180, R66: from an interior node of a tree whose root is interior, no bit string leads out of the store. -/
theorem decodeBits_isSome {node : Memory Node} {root cur : Link} {t u : HTree} {sl su : List Nat}
    (hr : Reads node root t sl) (ht : t.isInterior = true) (h : Reads node cur u su) (hu : u.isInterior = true)
    (bits : List Bool) : ∃ syms last, decodeBits node root bits cur = some (syms, last) ∧ syms.length ≤ bits.length := by
  induction bits generalizing cur u su with
  | nil => exact ⟨[], cur, rfl, by simp⟩
  | cons b bits ih =>
    cases u with
    | leaf => simp [HTree.isInterior] at hu
    | interior f l r =>
      obtain ⟨child, sc, hc, -, hd⟩ := decodeBit_of_reads (root := root) h b
      cases hx : (if b then r else l : HTree) with
      | leaf s g =>
        obtain ⟨syms, last, h1, h2⟩ := ih hr ht
        exact ⟨s :: syms, last, by simp [decodeBits, hd, hx, h1], by simp; omega⟩
      | interior g l' r' =>
        obtain ⟨syms, last, h1, h2⟩ := ih hc (by simp [hx, HTree.isInterior])
        exact ⟨syms, last, by simp [decodeBits, hd, hx, h1], by simp; omega⟩

end Sys2Proof.Machine
end

