-- ==== Sys2Proof/Laws/PerInstr.lean ====
section
/-! SUPPORT. The family EncodesToRow, one lemma per command: the word of a well-formed command is a hit of a row of the
command map (30_encoding.md R94), and that row reads the command back from the word's operand bits. -/

namespace Sys2Proof.Laws.EncodesToRow

/-- The word of `i` hits a row that makes `i` of it. -/
def Statement (i : Instr) : Prop :=
  WellFormed i → ∃ r ∈ rows, r.hits (encode i) = true ∧ r.instr (n9Field (encode i)) = i

/-- A format-I9 word keeps its fixed bits and its operand (R92): the operand lies in the nine bits the match leaves 0. -/
theorem formatI9 (m : Word) (hm : m = 0x20000000 ∨ m = 0x21000000) (n : Nat) (h : n < 512) :
    (m + BitVec.ofNat 32 n) &&& maskI9 = m ∧ n9Field (m + BitVec.ofNat 32 n) = n := by
  have low : ∀ i < 9, m.getLsbD i = false := by rcases hm with rfl | rfl <;> decide
  have mask : ∀ i < 32, maskI9.getLsbD i = decide (9 ≤ i) := by decide
  have nbit : ∀ i, (BitVec.ofNat 32 n).getLsbD i = (decide (i < 9) && n.testBit i) := by
    intro i
    rw [BitVec.getLsbD_ofNat]
    by_cases h9 : i < 9
    · simp [h9, show i < 32 by omega]
    · have : n.testBit i = false := Nat.testBit_lt_two_pow 
        (lt_of_lt_of_le (show n < 2 ^ 9 from h) (Nat.pow_le_pow_right (by omega) (by omega)))
      simp [this]
  have or : m + BitVec.ofNat 32 n = m ||| BitVec.ofNat 32 n := by
    apply BitVec.add_eq_or_of_and_eq_zero
    apply BitVec.eq_of_getLsbD_eq
    intro i hi
    rw [BitVec.getLsbD_and, nbit, BitVec.getLsbD_zero]
    by_cases h9 : i < 9 <;> simp [h9, low i]
  rw [or]
  refine ⟨BitVec.eq_of_getLsbD_eq fun i hi => ?_, ?_⟩
  · rw [BitVec.getLsbD_and, BitVec.getLsbD_or, nbit, mask i hi]
    by_cases h9 : i < 9
    · simp [low i h9, h9]
    · simp [h9, show 9 ≤ i by omega]
  · have : (m ||| BitVec.ofNat 32 n).extractLsb' 0 9 = BitVec.ofNat 9 n := by
      apply BitVec.eq_of_getLsbD_eq
      intro i hi
      rw [BitVec.getLsbD_extractLsb', BitVec.getLsbD_or, Nat.zero_add, nbit, low i hi, BitVec.getLsbD_ofNat]
      simp [hi]
    rw [n9Field, this, BitVec.toNat_ofNat]
    omega

theorem nop : Statement .nop := fun _ => ⟨⟨"NOP", 0x00000000, maskZ, fun _ => .nop⟩, by simp [rows], by decide, rfl⟩
theorem reset : Statement .reset :=
  fun _ => ⟨⟨"RESET", 0x01000000, maskZ, fun _ => .reset⟩, by simp [rows], by decide, rfl⟩
theorem freqClear : Statement .freqClear :=
  fun _ => ⟨⟨"FREQ_CLEAR", 0x10000000, maskZ, fun _ => .freqClear⟩, by simp [rows], by decide, rfl⟩
theorem freqCount : Statement .freqCount :=
  fun _ => ⟨⟨"FREQ_COUNT", 0x11000000, maskZ, fun _ => .freqCount⟩, by simp [rows], by decide, rfl⟩
theorem pqInit (n9 : Nat) : Statement (.pqInit n9) := fun h => by
  have := formatI9 0x20000000 (Or.inl rfl) n9 (by simpa [WellFormed, wellFormed] using h)
  exact ⟨⟨"PQ_INIT", 0x20000000, maskI9, fun n9 => .pqInit n9⟩, by simp [rows],
    by simpa [Row.hits, encode] using this.1, congrArg Instr.pqInit this.2⟩
theorem pqAdd (n9 : Nat) : Statement (.pqAdd n9) := fun h => by
  have := formatI9 0x21000000 (Or.inr rfl) n9 (by simpa [WellFormed, wellFormed] using h)
  exact ⟨⟨"PQ_ADD", 0x21000000, maskI9, fun n9 => .pqAdd n9⟩, by simp [rows],
    by simpa [Row.hits, encode] using this.1, congrArg Instr.pqAdd this.2⟩
theorem pqRemoveMin : Statement .pqRemoveMin :=
  fun _ => ⟨⟨"PQ_REMOVE_MIN", 0x22000000, maskZ, fun _ => .pqRemoveMin⟩, by simp [rows], by decide, rfl⟩
theorem build : Statement .build :=
  fun _ => ⟨⟨"BUILD", 0x30000000, maskZ, fun _ => .build⟩, by simp [rows], by decide, rfl⟩
theorem treeRelease : Statement .treeRelease :=
  fun _ => ⟨⟨"TREE_RELEASE", 0x31000000, maskZ, fun _ => .treeRelease⟩, by simp [rows], by decide, rfl⟩
theorem derive : Statement .derive :=
  fun _ => ⟨⟨"DERIVE", 0x32000000, maskZ, fun _ => .derive⟩, by simp [rows], by decide, rfl⟩
theorem encode : Statement .encode :=
  fun _ => ⟨⟨"ENCODE", 0x40000000, maskZ, fun _ => .encode⟩, by simp [rows], by decide, rfl⟩
theorem pack : Statement .pack :=
  fun _ => ⟨⟨"PACK", 0x41000000, maskZ, fun _ => .pack⟩, by simp [rows], by decide, rfl⟩
theorem unpack : Statement .unpack :=
  fun _ => ⟨⟨"UNPACK", 0x42000000, maskZ, fun _ => .unpack⟩, by simp [rows], by decide, rfl⟩
theorem decode : Statement .decode :=
  fun _ => ⟨⟨"DECODE", 0x43000000, maskZ, fun _ => .decode⟩, by simp [rows], by decide, rfl⟩

end Sys2Proof.Laws.EncodesToRow
end

