-- ==== Sys2Proof/Laws/Decode.lean ====
section
/-! SUPPORT. The decoder by rows (30_encoding.md R94 to R96): which words a row hits, that the rows are disjoint, and that
decoding is the hit row's command. -/

namespace Sys2Proof

/-- R90: the `op` field as a number. -/
theorem opField_toNat (w : Word) : (opField w).toNat = w.toNat / 2 ^ 24 := by
  have := w.isLt
  simp only [opField, BitVec.extractLsb'_toNat, Nat.shiftRight_eq_div_pow]
  omega

/-- R92: the operand as a number. -/
theorem n9Field_eq (w : Word) : n9Field w = w.toNat % 512 := by
  simp [n9Field, BitVec.extractLsb'_toNat]

/-- The fixed bits of format I9 as a number (R92). -/
theorem toNat_and_maskI9 (w : Word) : (w &&& maskI9).toNat = w.toNat / 512 * 512 := by
  have mask : ∀ i < 32, maskI9.getLsbD i = decide (9 ≤ i) := by decide
  have h : w &&& maskI9 = (w >>> 9) <<< 9 := by
    apply BitVec.eq_of_getLsbD_eq
    intro i hi
    rw [BitVec.getLsbD_and, mask i hi, BitVec.getLsbD_shiftLeft]
    by_cases h9 : i < 9
    · simp [h9, Nat.not_le.2 h9]
    · simp [h9, Nat.le_of_not_lt h9, hi, BitVec.getLsbD_ushiftRight]
  have := w.isLt
  rw [h, BitVec.toNat_shiftLeft, BitVec.toNat_ushiftRight, Nat.shiftLeft_eq, Nat.shiftRight_eq_div_pow]
  omega

/-- A format-Z row hits its own word only (R91). -/
theorem hits_maskZ (w m : Word) : (w &&& maskZ == m) = decide (w = m) := by
  have : w &&& maskZ = w := by
    rw [show maskZ = BitVec.allOnes 32 by decide, BitVec.and_allOnes]
  rw [this, beq_eq_decide]

/-- A format-I9 row hits the 512 words above its match (R92). -/
theorem hits_maskI9 (w m : Word) : (w &&& maskI9 == m) = decide (w.toNat / 512 * 512 = m.toNat) := by
  rw [beq_eq_decide]
  congr 1
  rw [← toNat_and_maskI9, BitVec.toNat_inj]

/-- What the fourteen rows hit, as numbers (R94). -/
theorem rows_hit {r : Row} (hr : r ∈ rows) (w : Word) :
    r.hits w = true ↔
      ((r.mask = maskZ ∧ w.toNat = r.matchWord.toNat) ∨
       (r.mask = maskI9 ∧ w.toNat / 512 * 512 = r.matchWord.toNat)) := by
  have h : r.mask = maskZ ∨ r.mask = maskI9 := by
    revert r; simp [rows]
  have hne : maskZ ≠ maskI9 := by decide
  rcases h with h | h
  · rw [Row.hits, h, hits_maskZ, decide_eq_true_eq, BitVec.toNat_inj]
    exact ⟨fun e => Or.inl ⟨rfl, e⟩, fun e => e.elim (fun e => e.2) fun e => absurd e.1 hne⟩
  · rw [Row.hits, h, hits_maskI9, decide_eq_true_eq]
    exact ⟨fun e => Or.inr ⟨rfl, e⟩, fun e => e.elim (fun e => absurd e.1.symm hne) fun e => e.2⟩

/-- A hit word has the row's `op` (R95). -/
theorem hit_op {r : Row} (hr : r ∈ rows) {w : Word} (h : r.hits w = true) :
    w.toNat / 2 ^ 24 = r.matchWord.toNat / 2 ^ 24 := by
  rcases (rows_hit hr w).1 h with ⟨-, h⟩ | ⟨-, h⟩
  · rw [h]
  · rw [← h]; omega

/-- R95: the rows' `op` fields differ. -/
theorem rows_ops : (rows.map fun r => r.matchWord.toNat / 2 ^ 24).Nodup := by decide

/-- R95: at most one row hits a word. -/
theorem hit_unique {r r' : Row} (hr : r ∈ rows) (hr' : r' ∈ rows) {w : Word} (h : r.hits w = true)
    (h' : r'.hits w = true) : r = r' :=
  List.inj_on_of_nodup_map rows_ops hr hr' ((hit_op hr h).symm.trans (hit_op hr' h'))

/-- R95: a word decodes to the command of the row that hits it. -/
theorem decode_of_hit {r : Row} (hr : r ∈ rows) {w : Word} (h : r.hits w = true) :
    decode w = .ok (r.instr (w.toNat % 512)) := by
  cases hf : rows.find? (fun r => r.hits w) with
  | none => exact absurd h (by simpa using List.find?_eq_none.1 hf r hr)
  | some r' =>
    have := hit_unique hr (List.mem_of_find?_eq_some hf) h (by simpa using List.find?_some hf)
    subst this
    simp only [decode, hf, n9Field_eq]

/-- R95, R96: a word decodes exactly when a row hits it, and is illegal otherwise. -/
theorem decode_cases (w : Word) :
    (∃ r ∈ rows, r.hits w = true ∧ decode w = .ok (r.instr (w.toNat % 512))) ∨
    ((∀ r ∈ rows, r.hits w = false) ∧ decode w = .error (rejectWord w)) := by
  by_cases h : ∃ r ∈ rows, r.hits w = true
  · obtain ⟨r, hr, h⟩ := h
    exact Or.inl ⟨r, hr, h, decode_of_hit hr h⟩
  · right
    have h' : ∀ r ∈ rows, r.hits w = false := by
      intro r hr
      cases hx : r.hits w with
      | false => rfl
      | true => exact absurd ⟨r, hr, hx⟩ h
    refine ⟨h', ?_⟩
    have : rows.find? (fun r => r.hits w) = none := by
      rw [List.find?_eq_none]
      intro r hr
      simp [h' r hr]
    simp only [decode, this]

end Sys2Proof
end

