-- ==== Sys2Proof/Laws/State.lean ====
section
/-! SUPPORT. One lemma per field of `State` per shared update (Machine/Ops.lean, Machine/Port.lean), so that no proof
unfolds an update. -/

namespace Sys2Proof.Machine

@[simp] theorem State.accept_seq (s : State) : s.accept.seq = .busy := rfl
@[simp] theorem State.accept_done (s : State) : s.accept.done = false := rfl
@[simp] theorem State.accept_err (s : State) : s.accept.err = s.err := rfl
@[simp] theorem State.accept_treeValid (s : State) : s.accept.treeValid = s.treeValid := rfl
@[simp] theorem State.accept_codeValid (s : State) : s.accept.codeValid = s.codeValid := rfl
@[simp] theorem State.accept_ie (s : State) : s.accept.ie = s.ie := rfl
@[simp] theorem State.accept_errCode (s : State) : s.accept.errCode = s.errCode := rfl
@[simp] theorem State.accept_errInfo (s : State) : s.accept.errInfo = s.errInfo := rfl
@[simp] theorem State.accept_symLen (s : State) : s.accept.symLen = s.symLen := rfl
@[simp] theorem State.accept_bitLen (s : State) : s.accept.bitLen = s.bitLen := rfl
@[simp] theorem State.accept_byteLen (s : State) : s.accept.byteLen = s.byteLen := rfl
@[simp] theorem State.accept_root (s : State) : s.accept.root = s.root := rfl
@[simp] theorem State.accept_pqKey (s : State) : s.accept.pqKey = s.pqKey := rfl
@[simp] theorem State.accept_pqOutKey (s : State) : s.accept.pqOutKey = s.pqOutKey := rfl
@[simp] theorem State.accept_pqOutTag (s : State) : s.accept.pqOutTag = s.pqOutTag := rfl
@[simp] theorem State.accept_pqCap (s : State) : s.accept.pqCap = s.pqCap := rfl
@[simp] theorem State.accept_freq (s : State) : s.accept.freq = s.freq := rfl
@[simp] theorem State.accept_node (s : State) : s.accept.node = s.node := rfl
@[simp] theorem State.accept_code (s : State) : s.accept.code = s.code := rfl
@[simp] theorem State.accept_pq (s : State) : s.accept.pq = s.pq := rfl
@[simp] theorem State.accept_sym (s : State) : s.accept.sym = s.sym := rfl
@[simp] theorem State.accept_bit (s : State) : s.accept.bit = s.bit := rfl
@[simp] theorem State.accept_byte (s : State) : s.accept.byte = s.byte := rfl
@[simp] theorem State.accept_params (s : State) : s.accept.params = s.params := rfl
@[simp] theorem State.accept_draws (s : State) : s.accept.draws = s.draws := rfl
@[simp] theorem State.accept_script (s : State) : s.accept.script = s.script := rfl
@[simp] theorem State.accept_responses (s : State) : s.accept.responses = s.responses := rfl

@[simp] theorem State.complete_seq (s : State) : s.complete.seq = .idle := rfl
@[simp] theorem State.complete_done (s : State) : s.complete.done = true := rfl
@[simp] theorem State.complete_err (s : State) : s.complete.err = s.err := rfl
@[simp] theorem State.complete_treeValid (s : State) : s.complete.treeValid = s.treeValid := rfl
@[simp] theorem State.complete_codeValid (s : State) : s.complete.codeValid = s.codeValid := rfl
@[simp] theorem State.complete_ie (s : State) : s.complete.ie = s.ie := rfl
@[simp] theorem State.complete_errCode (s : State) : s.complete.errCode = s.errCode := rfl
@[simp] theorem State.complete_errInfo (s : State) : s.complete.errInfo = s.errInfo := rfl
@[simp] theorem State.complete_symLen (s : State) : s.complete.symLen = s.symLen := rfl
@[simp] theorem State.complete_bitLen (s : State) : s.complete.bitLen = s.bitLen := rfl
@[simp] theorem State.complete_byteLen (s : State) : s.complete.byteLen = s.byteLen := rfl
@[simp] theorem State.complete_root (s : State) : s.complete.root = s.root := rfl
@[simp] theorem State.complete_pqKey (s : State) : s.complete.pqKey = s.pqKey := rfl
@[simp] theorem State.complete_pqOutKey (s : State) : s.complete.pqOutKey = s.pqOutKey := rfl
@[simp] theorem State.complete_pqOutTag (s : State) : s.complete.pqOutTag = s.pqOutTag := rfl
@[simp] theorem State.complete_pqCap (s : State) : s.complete.pqCap = s.pqCap := rfl
@[simp] theorem State.complete_freq (s : State) : s.complete.freq = s.freq := rfl
@[simp] theorem State.complete_node (s : State) : s.complete.node = s.node := rfl
@[simp] theorem State.complete_code (s : State) : s.complete.code = s.code := rfl
@[simp] theorem State.complete_pq (s : State) : s.complete.pq = s.pq := rfl
@[simp] theorem State.complete_sym (s : State) : s.complete.sym = s.sym := rfl
@[simp] theorem State.complete_bit (s : State) : s.complete.bit = s.bit := rfl
@[simp] theorem State.complete_byte (s : State) : s.complete.byte = s.byte := rfl
@[simp] theorem State.complete_params (s : State) : s.complete.params = s.params := rfl
@[simp] theorem State.complete_draws (s : State) : s.complete.draws = s.draws := rfl
@[simp] theorem State.complete_script (s : State) : s.complete.script = s.script := rfl
@[simp] theorem State.complete_responses (s : State) : s.complete.responses = s.responses := rfl

@[simp] theorem State.raise_seq (s : State) (c : Cause) (w : Word) : (s.raise c w).seq = .idle := rfl
@[simp] theorem State.raise_done (s : State) (c : Cause) (w : Word) : (s.raise c w).done = s.done := rfl
@[simp] theorem State.raise_err (s : State) (c : Cause) (w : Word) : (s.raise c w).err = true := rfl
@[simp] theorem State.raise_treeValid (s : State) (c : Cause) (w : Word) :
    (s.raise c w).treeValid = s.treeValid := rfl
@[simp] theorem State.raise_codeValid (s : State) (c : Cause) (w : Word) :
    (s.raise c w).codeValid = s.codeValid := rfl
@[simp] theorem State.raise_ie (s : State) (c : Cause) (w : Word) : (s.raise c w).ie = s.ie := rfl
@[simp] theorem State.raise_errCode (s : State) (c : Cause) (w : Word) : (s.raise c w).errCode = c.code := rfl
@[simp] theorem State.raise_errInfo (s : State) (c : Cause) (w : Word) : (s.raise c w).errInfo = w := rfl
@[simp] theorem State.raise_symLen (s : State) (c : Cause) (w : Word) : (s.raise c w).symLen = s.symLen := rfl
@[simp] theorem State.raise_bitLen (s : State) (c : Cause) (w : Word) : (s.raise c w).bitLen = s.bitLen := rfl
@[simp] theorem State.raise_byteLen (s : State) (c : Cause) (w : Word) : (s.raise c w).byteLen = s.byteLen := rfl
@[simp] theorem State.raise_root (s : State) (c : Cause) (w : Word) : (s.raise c w).root = s.root := rfl
@[simp] theorem State.raise_pqKey (s : State) (c : Cause) (w : Word) : (s.raise c w).pqKey = s.pqKey := rfl
@[simp] theorem State.raise_pqOutKey (s : State) (c : Cause) (w : Word) : (s.raise c w).pqOutKey = s.pqOutKey := rfl
@[simp] theorem State.raise_pqOutTag (s : State) (c : Cause) (w : Word) : (s.raise c w).pqOutTag = s.pqOutTag := rfl
@[simp] theorem State.raise_pqCap (s : State) (c : Cause) (w : Word) : (s.raise c w).pqCap = s.pqCap := rfl
@[simp] theorem State.raise_freq (s : State) (c : Cause) (w : Word) : (s.raise c w).freq = s.freq := rfl
@[simp] theorem State.raise_node (s : State) (c : Cause) (w : Word) : (s.raise c w).node = s.node := rfl
@[simp] theorem State.raise_code (s : State) (c : Cause) (w : Word) : (s.raise c w).code = s.code := rfl
@[simp] theorem State.raise_pq (s : State) (c : Cause) (w : Word) : (s.raise c w).pq = s.pq := rfl
@[simp] theorem State.raise_sym (s : State) (c : Cause) (w : Word) : (s.raise c w).sym = s.sym := rfl
@[simp] theorem State.raise_bit (s : State) (c : Cause) (w : Word) : (s.raise c w).bit = s.bit := rfl
@[simp] theorem State.raise_byte (s : State) (c : Cause) (w : Word) : (s.raise c w).byte = s.byte := rfl
@[simp] theorem State.raise_params (s : State) (c : Cause) (w : Word) : (s.raise c w).params = s.params := rfl
@[simp] theorem State.raise_draws (s : State) (c : Cause) (w : Word) : (s.raise c w).draws = s.draws := rfl
@[simp] theorem State.raise_script (s : State) (c : Cause) (w : Word) : (s.raise c w).script = s.script := rfl
@[simp] theorem State.raise_responses (s : State) (c : Cause) (w : Word) :
    (s.raise c w).responses = s.responses := rfl

@[simp] theorem State.toReset_seq (s : State) : s.toReset.seq = .idle := rfl
@[simp] theorem State.toReset_done (s : State) : s.toReset.done = false := rfl
@[simp] theorem State.toReset_err (s : State) : s.toReset.err = false := rfl
@[simp] theorem State.toReset_treeValid (s : State) : s.toReset.treeValid = false := rfl
@[simp] theorem State.toReset_codeValid (s : State) : s.toReset.codeValid = false := rfl
@[simp] theorem State.toReset_ie (s : State) : s.toReset.ie = false := rfl
@[simp] theorem State.toReset_errCode (s : State) : s.toReset.errCode = 0 := rfl
@[simp] theorem State.toReset_errInfo (s : State) : s.toReset.errInfo = 0 := rfl
@[simp] theorem State.toReset_symLen (s : State) : s.toReset.symLen = 0 := rfl
@[simp] theorem State.toReset_bitLen (s : State) : s.toReset.bitLen = 0 := rfl
@[simp] theorem State.toReset_byteLen (s : State) : s.toReset.byteLen = 0 := rfl
@[simp] theorem State.toReset_root (s : State) : s.toReset.root = nil9 := rfl
@[simp] theorem State.toReset_pqKey (s : State) : s.toReset.pqKey = 0 := rfl
@[simp] theorem State.toReset_pqOutKey (s : State) : s.toReset.pqOutKey = 0 := rfl
@[simp] theorem State.toReset_pqOutTag (s : State) : s.toReset.pqOutTag = 0 := rfl
@[simp] theorem State.toReset_pqCap (s : State) : s.toReset.pqCap = 256 := rfl
@[simp] theorem State.toReset_freq (s : State) : s.toReset.freq = [] := rfl
@[simp] theorem State.toReset_node (s : State) : s.toReset.node = [] := rfl
@[simp] theorem State.toReset_code (s : State) : s.toReset.code = [] := rfl
@[simp] theorem State.toReset_pq (s : State) : s.toReset.pq = [] := rfl
@[simp] theorem State.toReset_sym (s : State) : s.toReset.sym = [] := rfl
@[simp] theorem State.toReset_bit (s : State) : s.toReset.bit = [] := rfl
@[simp] theorem State.toReset_byte (s : State) : s.toReset.byte = [] := rfl
@[simp] theorem State.toReset_params (s : State) : s.toReset.params = s.params := rfl
@[simp] theorem State.toReset_draws (s : State) : s.toReset.draws = s.draws := rfl
@[simp] theorem State.toReset_script (s : State) : s.toReset.script = s.script := rfl
@[simp] theorem State.toReset_responses (s : State) : s.toReset.responses = s.responses := rfl

@[simp] theorem State.dropTree_seq (s : State) : s.dropTree.seq = s.seq := rfl
@[simp] theorem State.dropTree_done (s : State) : s.dropTree.done = s.done := rfl
@[simp] theorem State.dropTree_err (s : State) : s.dropTree.err = s.err := rfl
@[simp] theorem State.dropTree_treeValid (s : State) : s.dropTree.treeValid = false := rfl
@[simp] theorem State.dropTree_codeValid (s : State) : s.dropTree.codeValid = s.codeValid := rfl
@[simp] theorem State.dropTree_ie (s : State) : s.dropTree.ie = s.ie := rfl
@[simp] theorem State.dropTree_errCode (s : State) : s.dropTree.errCode = s.errCode := rfl
@[simp] theorem State.dropTree_errInfo (s : State) : s.dropTree.errInfo = s.errInfo := rfl
@[simp] theorem State.dropTree_symLen (s : State) : s.dropTree.symLen = s.symLen := rfl
@[simp] theorem State.dropTree_bitLen (s : State) : s.dropTree.bitLen = s.bitLen := rfl
@[simp] theorem State.dropTree_byteLen (s : State) : s.dropTree.byteLen = s.byteLen := rfl
@[simp] theorem State.dropTree_root (s : State) : s.dropTree.root = nil9 := rfl
@[simp] theorem State.dropTree_pqKey (s : State) : s.dropTree.pqKey = s.pqKey := rfl
@[simp] theorem State.dropTree_pqOutKey (s : State) : s.dropTree.pqOutKey = s.pqOutKey := rfl
@[simp] theorem State.dropTree_pqOutTag (s : State) : s.dropTree.pqOutTag = s.pqOutTag := rfl
@[simp] theorem State.dropTree_pqCap (s : State) : s.dropTree.pqCap = s.pqCap := rfl
@[simp] theorem State.dropTree_freq (s : State) : s.dropTree.freq = s.freq := rfl
@[simp] theorem State.dropTree_node (s : State) : s.dropTree.node = s.node := rfl
@[simp] theorem State.dropTree_code (s : State) : s.dropTree.code = s.code := rfl
@[simp] theorem State.dropTree_pq (s : State) : s.dropTree.pq = s.pq := rfl
@[simp] theorem State.dropTree_sym (s : State) : s.dropTree.sym = s.sym := rfl
@[simp] theorem State.dropTree_bit (s : State) : s.dropTree.bit = s.bit := rfl
@[simp] theorem State.dropTree_byte (s : State) : s.dropTree.byte = s.byte := rfl
@[simp] theorem State.dropTree_params (s : State) : s.dropTree.params = s.params := rfl
@[simp] theorem State.dropTree_draws (s : State) : s.dropTree.draws = s.draws := rfl
@[simp] theorem State.dropTree_script (s : State) : s.dropTree.script = s.script := rfl
@[simp] theorem State.dropTree_responses (s : State) : s.dropTree.responses = s.responses := rfl

@[simp] theorem State.dropTable_seq (s : State) : s.dropTable.seq = s.seq := rfl
@[simp] theorem State.dropTable_done (s : State) : s.dropTable.done = s.done := rfl
@[simp] theorem State.dropTable_err (s : State) : s.dropTable.err = s.err := rfl
@[simp] theorem State.dropTable_treeValid (s : State) : s.dropTable.treeValid = s.treeValid := rfl
@[simp] theorem State.dropTable_codeValid (s : State) : s.dropTable.codeValid = false := rfl
@[simp] theorem State.dropTable_ie (s : State) : s.dropTable.ie = s.ie := rfl
@[simp] theorem State.dropTable_errCode (s : State) : s.dropTable.errCode = s.errCode := rfl
@[simp] theorem State.dropTable_errInfo (s : State) : s.dropTable.errInfo = s.errInfo := rfl
@[simp] theorem State.dropTable_symLen (s : State) : s.dropTable.symLen = s.symLen := rfl
@[simp] theorem State.dropTable_bitLen (s : State) : s.dropTable.bitLen = s.bitLen := rfl
@[simp] theorem State.dropTable_byteLen (s : State) : s.dropTable.byteLen = s.byteLen := rfl
@[simp] theorem State.dropTable_root (s : State) : s.dropTable.root = s.root := rfl
@[simp] theorem State.dropTable_pqKey (s : State) : s.dropTable.pqKey = s.pqKey := rfl
@[simp] theorem State.dropTable_pqOutKey (s : State) : s.dropTable.pqOutKey = s.pqOutKey := rfl
@[simp] theorem State.dropTable_pqOutTag (s : State) : s.dropTable.pqOutTag = s.pqOutTag := rfl
@[simp] theorem State.dropTable_pqCap (s : State) : s.dropTable.pqCap = s.pqCap := rfl
@[simp] theorem State.dropTable_freq (s : State) : s.dropTable.freq = s.freq := rfl
@[simp] theorem State.dropTable_node (s : State) : s.dropTable.node = s.node := rfl
@[simp] theorem State.dropTable_code (s : State) : s.dropTable.code = s.code := rfl
@[simp] theorem State.dropTable_pq (s : State) : s.dropTable.pq = s.pq := rfl
@[simp] theorem State.dropTable_sym (s : State) : s.dropTable.sym = s.sym := rfl
@[simp] theorem State.dropTable_bit (s : State) : s.dropTable.bit = s.bit := rfl
@[simp] theorem State.dropTable_byte (s : State) : s.dropTable.byte = s.byte := rfl
@[simp] theorem State.dropTable_params (s : State) : s.dropTable.params = s.params := rfl
@[simp] theorem State.dropTable_draws (s : State) : s.dropTable.draws = s.draws := rfl
@[simp] theorem State.dropTable_script (s : State) : s.dropTable.script = s.script := rfl
@[simp] theorem State.dropTable_responses (s : State) : s.dropTable.responses = s.responses := rfl

@[simp] theorem State.dropBits_seq (s : State) : s.dropBits.seq = s.seq := rfl
@[simp] theorem State.dropBits_done (s : State) : s.dropBits.done = s.done := rfl
@[simp] theorem State.dropBits_err (s : State) : s.dropBits.err = s.err := rfl
@[simp] theorem State.dropBits_treeValid (s : State) : s.dropBits.treeValid = s.treeValid := rfl
@[simp] theorem State.dropBits_codeValid (s : State) : s.dropBits.codeValid = s.codeValid := rfl
@[simp] theorem State.dropBits_ie (s : State) : s.dropBits.ie = s.ie := rfl
@[simp] theorem State.dropBits_errCode (s : State) : s.dropBits.errCode = s.errCode := rfl
@[simp] theorem State.dropBits_errInfo (s : State) : s.dropBits.errInfo = s.errInfo := rfl
@[simp] theorem State.dropBits_symLen (s : State) : s.dropBits.symLen = s.symLen := rfl
@[simp] theorem State.dropBits_bitLen (s : State) : s.dropBits.bitLen = 0 := rfl
@[simp] theorem State.dropBits_byteLen (s : State) : s.dropBits.byteLen = s.byteLen := rfl
@[simp] theorem State.dropBits_root (s : State) : s.dropBits.root = s.root := rfl
@[simp] theorem State.dropBits_pqKey (s : State) : s.dropBits.pqKey = s.pqKey := rfl
@[simp] theorem State.dropBits_pqOutKey (s : State) : s.dropBits.pqOutKey = s.pqOutKey := rfl
@[simp] theorem State.dropBits_pqOutTag (s : State) : s.dropBits.pqOutTag = s.pqOutTag := rfl
@[simp] theorem State.dropBits_pqCap (s : State) : s.dropBits.pqCap = s.pqCap := rfl
@[simp] theorem State.dropBits_freq (s : State) : s.dropBits.freq = s.freq := rfl
@[simp] theorem State.dropBits_node (s : State) : s.dropBits.node = s.node := rfl
@[simp] theorem State.dropBits_code (s : State) : s.dropBits.code = s.code := rfl
@[simp] theorem State.dropBits_pq (s : State) : s.dropBits.pq = s.pq := rfl
@[simp] theorem State.dropBits_sym (s : State) : s.dropBits.sym = s.sym := rfl
@[simp] theorem State.dropBits_bit (s : State) : s.dropBits.bit = [] := rfl
@[simp] theorem State.dropBits_byte (s : State) : s.dropBits.byte = s.byte := rfl
@[simp] theorem State.dropBits_params (s : State) : s.dropBits.params = s.params := rfl
@[simp] theorem State.dropBits_draws (s : State) : s.dropBits.draws = s.draws := rfl
@[simp] theorem State.dropBits_script (s : State) : s.dropBits.script = s.script := rfl
@[simp] theorem State.dropBits_responses (s : State) : s.dropBits.responses = s.responses := rfl

@[simp] theorem State.dropBytes_seq (s : State) : s.dropBytes.seq = s.seq := rfl
@[simp] theorem State.dropBytes_done (s : State) : s.dropBytes.done = s.done := rfl
@[simp] theorem State.dropBytes_err (s : State) : s.dropBytes.err = s.err := rfl
@[simp] theorem State.dropBytes_treeValid (s : State) : s.dropBytes.treeValid = s.treeValid := rfl
@[simp] theorem State.dropBytes_codeValid (s : State) : s.dropBytes.codeValid = s.codeValid := rfl
@[simp] theorem State.dropBytes_ie (s : State) : s.dropBytes.ie = s.ie := rfl
@[simp] theorem State.dropBytes_errCode (s : State) : s.dropBytes.errCode = s.errCode := rfl
@[simp] theorem State.dropBytes_errInfo (s : State) : s.dropBytes.errInfo = s.errInfo := rfl
@[simp] theorem State.dropBytes_symLen (s : State) : s.dropBytes.symLen = s.symLen := rfl
@[simp] theorem State.dropBytes_bitLen (s : State) : s.dropBytes.bitLen = s.bitLen := rfl
@[simp] theorem State.dropBytes_byteLen (s : State) : s.dropBytes.byteLen = 0 := rfl
@[simp] theorem State.dropBytes_root (s : State) : s.dropBytes.root = s.root := rfl
@[simp] theorem State.dropBytes_pqKey (s : State) : s.dropBytes.pqKey = s.pqKey := rfl
@[simp] theorem State.dropBytes_pqOutKey (s : State) : s.dropBytes.pqOutKey = s.pqOutKey := rfl
@[simp] theorem State.dropBytes_pqOutTag (s : State) : s.dropBytes.pqOutTag = s.pqOutTag := rfl
@[simp] theorem State.dropBytes_pqCap (s : State) : s.dropBytes.pqCap = s.pqCap := rfl
@[simp] theorem State.dropBytes_freq (s : State) : s.dropBytes.freq = s.freq := rfl
@[simp] theorem State.dropBytes_node (s : State) : s.dropBytes.node = s.node := rfl
@[simp] theorem State.dropBytes_code (s : State) : s.dropBytes.code = s.code := rfl
@[simp] theorem State.dropBytes_pq (s : State) : s.dropBytes.pq = s.pq := rfl
@[simp] theorem State.dropBytes_sym (s : State) : s.dropBytes.sym = s.sym := rfl
@[simp] theorem State.dropBytes_bit (s : State) : s.dropBytes.bit = s.bit := rfl
@[simp] theorem State.dropBytes_byte (s : State) : s.dropBytes.byte = [] := rfl
@[simp] theorem State.dropBytes_params (s : State) : s.dropBytes.params = s.params := rfl
@[simp] theorem State.dropBytes_draws (s : State) : s.dropBytes.draws = s.draws := rfl
@[simp] theorem State.dropBytes_script (s : State) : s.dropBytes.script = s.script := rfl
@[simp] theorem State.dropBytes_responses (s : State) : s.dropBytes.responses = s.responses := rfl

@[simp] theorem State.dropSyms_seq (s : State) : s.dropSyms.seq = s.seq := rfl
@[simp] theorem State.dropSyms_done (s : State) : s.dropSyms.done = s.done := rfl
@[simp] theorem State.dropSyms_err (s : State) : s.dropSyms.err = s.err := rfl
@[simp] theorem State.dropSyms_treeValid (s : State) : s.dropSyms.treeValid = s.treeValid := rfl
@[simp] theorem State.dropSyms_codeValid (s : State) : s.dropSyms.codeValid = s.codeValid := rfl
@[simp] theorem State.dropSyms_ie (s : State) : s.dropSyms.ie = s.ie := rfl
@[simp] theorem State.dropSyms_errCode (s : State) : s.dropSyms.errCode = s.errCode := rfl
@[simp] theorem State.dropSyms_errInfo (s : State) : s.dropSyms.errInfo = s.errInfo := rfl
@[simp] theorem State.dropSyms_symLen (s : State) : s.dropSyms.symLen = 0 := rfl
@[simp] theorem State.dropSyms_bitLen (s : State) : s.dropSyms.bitLen = s.bitLen := rfl
@[simp] theorem State.dropSyms_byteLen (s : State) : s.dropSyms.byteLen = s.byteLen := rfl
@[simp] theorem State.dropSyms_root (s : State) : s.dropSyms.root = s.root := rfl
@[simp] theorem State.dropSyms_pqKey (s : State) : s.dropSyms.pqKey = s.pqKey := rfl
@[simp] theorem State.dropSyms_pqOutKey (s : State) : s.dropSyms.pqOutKey = s.pqOutKey := rfl
@[simp] theorem State.dropSyms_pqOutTag (s : State) : s.dropSyms.pqOutTag = s.pqOutTag := rfl
@[simp] theorem State.dropSyms_pqCap (s : State) : s.dropSyms.pqCap = s.pqCap := rfl
@[simp] theorem State.dropSyms_freq (s : State) : s.dropSyms.freq = s.freq := rfl
@[simp] theorem State.dropSyms_node (s : State) : s.dropSyms.node = s.node := rfl
@[simp] theorem State.dropSyms_code (s : State) : s.dropSyms.code = s.code := rfl
@[simp] theorem State.dropSyms_pq (s : State) : s.dropSyms.pq = s.pq := rfl
@[simp] theorem State.dropSyms_sym (s : State) : s.dropSyms.sym = [] := rfl
@[simp] theorem State.dropSyms_bit (s : State) : s.dropSyms.bit = s.bit := rfl
@[simp] theorem State.dropSyms_byte (s : State) : s.dropSyms.byte = s.byte := rfl
@[simp] theorem State.dropSyms_params (s : State) : s.dropSyms.params = s.params := rfl
@[simp] theorem State.dropSyms_draws (s : State) : s.dropSyms.draws = s.draws := rfl
@[simp] theorem State.dropSyms_script (s : State) : s.dropSyms.script = s.script := rfl
@[simp] theorem State.dropSyms_responses (s : State) : s.dropSyms.responses = s.responses := rfl

@[simp] theorem State.useDraws_seq (s : State) (n : Nat) : (s.useDraws n).seq = s.seq := rfl
@[simp] theorem State.useDraws_done (s : State) (n : Nat) : (s.useDraws n).done = s.done := rfl
@[simp] theorem State.useDraws_err (s : State) (n : Nat) : (s.useDraws n).err = s.err := rfl
@[simp] theorem State.useDraws_treeValid (s : State) (n : Nat) : (s.useDraws n).treeValid = s.treeValid := rfl
@[simp] theorem State.useDraws_codeValid (s : State) (n : Nat) : (s.useDraws n).codeValid = s.codeValid := rfl
@[simp] theorem State.useDraws_ie (s : State) (n : Nat) : (s.useDraws n).ie = s.ie := rfl
@[simp] theorem State.useDraws_errCode (s : State) (n : Nat) : (s.useDraws n).errCode = s.errCode := rfl
@[simp] theorem State.useDraws_errInfo (s : State) (n : Nat) : (s.useDraws n).errInfo = s.errInfo := rfl
@[simp] theorem State.useDraws_symLen (s : State) (n : Nat) : (s.useDraws n).symLen = s.symLen := rfl
@[simp] theorem State.useDraws_bitLen (s : State) (n : Nat) : (s.useDraws n).bitLen = s.bitLen := rfl
@[simp] theorem State.useDraws_byteLen (s : State) (n : Nat) : (s.useDraws n).byteLen = s.byteLen := rfl
@[simp] theorem State.useDraws_root (s : State) (n : Nat) : (s.useDraws n).root = s.root := rfl
@[simp] theorem State.useDraws_pqKey (s : State) (n : Nat) : (s.useDraws n).pqKey = s.pqKey := rfl
@[simp] theorem State.useDraws_pqOutKey (s : State) (n : Nat) : (s.useDraws n).pqOutKey = s.pqOutKey := rfl
@[simp] theorem State.useDraws_pqOutTag (s : State) (n : Nat) : (s.useDraws n).pqOutTag = s.pqOutTag := rfl
@[simp] theorem State.useDraws_pqCap (s : State) (n : Nat) : (s.useDraws n).pqCap = s.pqCap := rfl
@[simp] theorem State.useDraws_freq (s : State) (n : Nat) : (s.useDraws n).freq = s.freq := rfl
@[simp] theorem State.useDraws_node (s : State) (n : Nat) : (s.useDraws n).node = s.node := rfl
@[simp] theorem State.useDraws_code (s : State) (n : Nat) : (s.useDraws n).code = s.code := rfl
@[simp] theorem State.useDraws_pq (s : State) (n : Nat) : (s.useDraws n).pq = s.pq := rfl
@[simp] theorem State.useDraws_sym (s : State) (n : Nat) : (s.useDraws n).sym = s.sym := rfl
@[simp] theorem State.useDraws_bit (s : State) (n : Nat) : (s.useDraws n).bit = s.bit := rfl
@[simp] theorem State.useDraws_byte (s : State) (n : Nat) : (s.useDraws n).byte = s.byte := rfl
@[simp] theorem State.useDraws_params (s : State) (n : Nat) : (s.useDraws n).params = s.params := rfl
@[simp] theorem State.useDraws_draws (s : State) (n : Nat) : (s.useDraws n).draws = s.draws + n := rfl
@[simp] theorem State.useDraws_script (s : State) (n : Nat) : (s.useDraws n).script = s.script := rfl
@[simp] theorem State.useDraws_responses (s : State) (n : Nat) : (s.useDraws n).responses = s.responses := rfl

@[simp] theorem State.respond_seq (s : State) (r : Response) : (s.respond r).seq = s.seq := rfl
@[simp] theorem State.respond_done (s : State) (r : Response) : (s.respond r).done = s.done := rfl
@[simp] theorem State.respond_err (s : State) (r : Response) : (s.respond r).err = s.err := rfl
@[simp] theorem State.respond_treeValid (s : State) (r : Response) : (s.respond r).treeValid = s.treeValid := rfl
@[simp] theorem State.respond_codeValid (s : State) (r : Response) : (s.respond r).codeValid = s.codeValid := rfl
@[simp] theorem State.respond_ie (s : State) (r : Response) : (s.respond r).ie = s.ie := rfl
@[simp] theorem State.respond_errCode (s : State) (r : Response) : (s.respond r).errCode = s.errCode := rfl
@[simp] theorem State.respond_errInfo (s : State) (r : Response) : (s.respond r).errInfo = s.errInfo := rfl
@[simp] theorem State.respond_symLen (s : State) (r : Response) : (s.respond r).symLen = s.symLen := rfl
@[simp] theorem State.respond_bitLen (s : State) (r : Response) : (s.respond r).bitLen = s.bitLen := rfl
@[simp] theorem State.respond_byteLen (s : State) (r : Response) : (s.respond r).byteLen = s.byteLen := rfl
@[simp] theorem State.respond_root (s : State) (r : Response) : (s.respond r).root = s.root := rfl
@[simp] theorem State.respond_pqKey (s : State) (r : Response) : (s.respond r).pqKey = s.pqKey := rfl
@[simp] theorem State.respond_pqOutKey (s : State) (r : Response) : (s.respond r).pqOutKey = s.pqOutKey := rfl
@[simp] theorem State.respond_pqOutTag (s : State) (r : Response) : (s.respond r).pqOutTag = s.pqOutTag := rfl
@[simp] theorem State.respond_pqCap (s : State) (r : Response) : (s.respond r).pqCap = s.pqCap := rfl
@[simp] theorem State.respond_freq (s : State) (r : Response) : (s.respond r).freq = s.freq := rfl
@[simp] theorem State.respond_node (s : State) (r : Response) : (s.respond r).node = s.node := rfl
@[simp] theorem State.respond_code (s : State) (r : Response) : (s.respond r).code = s.code := rfl
@[simp] theorem State.respond_pq (s : State) (r : Response) : (s.respond r).pq = s.pq := rfl
@[simp] theorem State.respond_sym (s : State) (r : Response) : (s.respond r).sym = s.sym := rfl
@[simp] theorem State.respond_bit (s : State) (r : Response) : (s.respond r).bit = s.bit := rfl
@[simp] theorem State.respond_byte (s : State) (r : Response) : (s.respond r).byte = s.byte := rfl
@[simp] theorem State.respond_params (s : State) (r : Response) : (s.respond r).params = s.params := rfl
@[simp] theorem State.respond_draws (s : State) (r : Response) : (s.respond r).draws = s.draws := rfl
@[simp] theorem State.respond_script (s : State) (r : Response) : (s.respond r).script = s.script := rfl
@[simp] theorem State.respond_responses (s : State) (r : Response) :
    (s.respond r).responses = s.responses ++ [r] := rfl

@[simp] theorem State.respondFree_seq (s : State) (w : Nat) : (s.respondFree w).seq = s.seq := rfl
@[simp] theorem State.respondFree_done (s : State) (w : Nat) : (s.respondFree w).done = s.done := rfl
@[simp] theorem State.respondFree_err (s : State) (w : Nat) : (s.respondFree w).err = s.err := rfl
@[simp] theorem State.respondFree_treeValid (s : State) (w : Nat) : (s.respondFree w).treeValid = s.treeValid := rfl
@[simp] theorem State.respondFree_codeValid (s : State) (w : Nat) : (s.respondFree w).codeValid = s.codeValid := rfl
@[simp] theorem State.respondFree_ie (s : State) (w : Nat) : (s.respondFree w).ie = s.ie := rfl
@[simp] theorem State.respondFree_errCode (s : State) (w : Nat) : (s.respondFree w).errCode = s.errCode := rfl
@[simp] theorem State.respondFree_errInfo (s : State) (w : Nat) : (s.respondFree w).errInfo = s.errInfo := rfl
@[simp] theorem State.respondFree_symLen (s : State) (w : Nat) : (s.respondFree w).symLen = s.symLen := rfl
@[simp] theorem State.respondFree_bitLen (s : State) (w : Nat) : (s.respondFree w).bitLen = s.bitLen := rfl
@[simp] theorem State.respondFree_byteLen (s : State) (w : Nat) : (s.respondFree w).byteLen = s.byteLen := rfl
@[simp] theorem State.respondFree_root (s : State) (w : Nat) : (s.respondFree w).root = s.root := rfl
@[simp] theorem State.respondFree_pqKey (s : State) (w : Nat) : (s.respondFree w).pqKey = s.pqKey := rfl
@[simp] theorem State.respondFree_pqOutKey (s : State) (w : Nat) : (s.respondFree w).pqOutKey = s.pqOutKey := rfl
@[simp] theorem State.respondFree_pqOutTag (s : State) (w : Nat) : (s.respondFree w).pqOutTag = s.pqOutTag := rfl
@[simp] theorem State.respondFree_pqCap (s : State) (w : Nat) : (s.respondFree w).pqCap = s.pqCap := rfl
@[simp] theorem State.respondFree_freq (s : State) (w : Nat) : (s.respondFree w).freq = s.freq := rfl
@[simp] theorem State.respondFree_node (s : State) (w : Nat) : (s.respondFree w).node = s.node := rfl
@[simp] theorem State.respondFree_code (s : State) (w : Nat) : (s.respondFree w).code = s.code := rfl
@[simp] theorem State.respondFree_pq (s : State) (w : Nat) : (s.respondFree w).pq = s.pq := rfl
@[simp] theorem State.respondFree_sym (s : State) (w : Nat) : (s.respondFree w).sym = s.sym := rfl
@[simp] theorem State.respondFree_bit (s : State) (w : Nat) : (s.respondFree w).bit = s.bit := rfl
@[simp] theorem State.respondFree_byte (s : State) (w : Nat) : (s.respondFree w).byte = s.byte := rfl
@[simp] theorem State.respondFree_params (s : State) (w : Nat) : (s.respondFree w).params = s.params := rfl
@[simp] theorem State.respondFree_draws (s : State) (w : Nat) : (s.respondFree w).draws = s.draws + 1 := rfl
@[simp] theorem State.respondFree_script (s : State) (w : Nat) : (s.respondFree w).script = s.script := rfl
@[simp] theorem State.respondFree_responses (s : State) (w : Nat) :
    (s.respondFree w).responses = s.responses ++ [⟨false, Config.draw s.draws % 2 ^ w⟩] := rfl

end Sys2Proof.Machine
end

