-- ==== Sys2Proof/Laws/Step.lean ====
section
/-! SUPPORT. What a step, a request and each command can do: one lemma each, which says all of its outcomes. -/

namespace Sys2Proof.Machine

/-- R64: the port's check is the rule's. -/
theorem refused_iff (p : Params) (r : Request) : r.refused p = true ↔ (r.missing p ∨ r.toReadOnly) := by
  obtain ⟨w, sp, i, d⟩ := r
  simp only [Request.refused, Bool.or_eq_true, decide_eq_true_eq, Bool.and_eq_true]
  cases sp
  case csr =>
    have hcsr : ∀ i < 18, (!((Csr.ofIndex i).map Csr.hostWrites).getD false) =
        decide (i ∈ [3, 4, 8, 10, 11, 12, 13, 14, 15, 16, 17]) := by decide
    by_cases h : i < 18
    · simp only [Request.missing, Request.toReadOnly, Space.count, Space.hostWrites, hcsr i h]
      simp [show ¬ 18 ≤ i by omega, show ¬ 17 < i by omega]
    · simp [Request.missing, Space.count, show 18 ≤ i by omega, show 17 < i by omega]
  all_goals simp [Request.missing, Request.toReadOnly, Space.count, Space.hostWrites]

/-- A ready port takes the next request (R62). -/
theorem step_request {s : State} {r : Request} {rest : List HostEvent} (h : s.nextRequest r rest) :
    step s = takeRequest r { s with script := rest } := by
  simp [step, h.1, h.2]

/-- A write to `CMD` is always taken and answered, and offers its word (R23, R101). -/
theorem step_offer {s : State} {w : Word} {rest : List HostEvent} (h : s.offers w rest) :
    step s = acceptWord w (({ s with script := rest } : State).respondFree 32) := by
  rw [step_request h]
  simp [takeRequest, Request.refused, Space.count, Space.hostWrites, Csr.ofIndex, Csr.hostWrites, Request.isCommand]

/-- What an offered word does (R101): nothing, `E_ILLEGAL_CMD`, or its command. -/
theorem acceptWord_cases (w : Word) (s : State) :
    (s.err = true ∧ w ≠ 0x01000000 ∧ acceptWord w s = .next s) ∨
    ((s.err = false ∨ w = 0x01000000) ∧ (∃ e, decode w = .error e) ∧
      acceptWord w s = .next (s.accept.raise .illegalCmd w)) ∨
    ((s.err = false ∨ w = 0x01000000) ∧ ∃ i, decode w = .ok i ∧ acceptWord w s = exec i s.accept) := by
  by_cases h : s.skips w = true
  · left
    have h' := h
    simp only [State.skips, resetWord, Bool.and_eq_true, bne_iff_ne] at h'
    exact ⟨h'.1, h'.2, by rw [acceptWord, if_pos h]⟩
  · right
    have h' : s.err = false ∨ w = 0x01000000 := by
      simp only [State.skips, resetWord, Bool.and_eq_true, bne_iff_ne, not_and_or, not_not] at h
      exact h.imp_left Bool.eq_false_iff.2
    cases hd : decode w with
    | error e => exact Or.inl ⟨h', ⟨e, rfl⟩, by rw [acceptWord, if_neg h, hd]⟩
    | ok i => exact Or.inr ⟨h', i, rfl, by rw [acceptWord, if_neg h, hd]⟩

/-- What a taken request does (R61 to R65). -/
theorem takeRequest_cases (r : Request) (s : State) :
    ((r.missing s.params ∨ r.toReadOnly) ∧ takeRequest r s = .next (s.respond ⟨true, 0⟩)) ∨
    (¬ (r.missing s.params ∨ r.toReadOnly) ∧
      ((r.isCommand = true ∧ takeRequest r s = acceptWord (BitVec.ofNat 32 r.wdata) (s.respondFree 32)) ∨
       (r.isCommand = false ∧ r.write = true ∧ takeRequest r s = .next (s.hostWrite r.space r.index r.wdata)) ∨
       (r.write = false ∧ takeRequest r s = .next (s.hostRead r.space r.index)))) := by
  by_cases h : r.refused s.params = true
  · exact Or.inl ⟨(refused_iff _ _).1 h, by rw [takeRequest, if_pos h]⟩
  · refine Or.inr ⟨fun h' => h ((refused_iff _ _).2 h'), ?_⟩
    by_cases hc : r.isCommand = true
    · exact Or.inl ⟨hc, by rw [takeRequest, if_neg h, if_pos hc]⟩
    · cases hw : r.write with
      | true => exact Or.inr (Or.inl ⟨Bool.eq_false_iff.2 hc, rfl, by rw [takeRequest, if_neg h, if_neg hc, if_pos hw]⟩)
      | false => exact Or.inr (Or.inr ⟨rfl, by rw [takeRequest, if_neg h, if_neg hc, hw, if_neg (by simp)]⟩)

/-- What DERIVE does when R39 holds: the table of the tree's paths, or `E_NO_TREE`. -/
theorem execDerive_cases (s : State) (h : s.TreeInv) :
    (s.treeValid = false ∧ execDerive s = .next (s.dropTable.raise .noTree 0)) ∨
    (s.treeValid = true ∧ ∃ t code, s.tree = some t ∧ t.isInterior = true ∧ t.depth ≤ 255 ∧
      (t.leaves.map Prod.fst).Nodup ∧ (∀ c : Byte, code.read? c.toNat = some (codeOf t c)) ∧
      (s.code.wf Config.alphabet → code.wf Config.alphabet) ∧
      execDerive s = .next { s with code := code, codeValid := true }.complete) := by
  cases hv : s.treeValid with
  | false => exact Or.inl ⟨rfl, by simp [execDerive, hv]⟩
  | true =>
    right
    obtain ⟨⟨t, ht, -, hi⟩, home, nd, -⟩ := h.valid hv
    obtain ⟨hr, hd⟩ := reads_of_treeAt ht
    obtain ⟨code, hw, hc, hwf⟩ := walk_of_reads hr (hr.leaves_nodup home nd) treeBudget [] (unsetTable s.code) hd
    refine ⟨rfl, t, code, ht, hi, Nat.le_of_lt_succ hd, hr.leaves_nodup home nd, fun c => ?_, fun hm => ?_, ?_⟩
    · rw [hc c, codeOf]
      cases t.path? c with
      | some q => simp
      | none => simp [unsetTable, Memory.read?_writePrefix, c.isLt]
    · exact hwf _ le_rfl (Memory.wf_writePrefix hm (by simp))
    · simp [execDerive, hv, hw]

/-- What ENCODE does (R170 to R173). -/
theorem execEncode_cases (s : State) :
    (s.codeValid = false ∧ execEncode s = .next (s.dropBits.raise .noTable 0)) ∨
    (s.codeValid = true ∧ s.params.symCap < s.symLen.toNat ∧ execEncode s = .next (s.dropBits.raise .len s.symLen)) ∨
    (s.codeValid = true ∧ s.symLen.toNat ≤ s.params.symCap ∧
      ((∃ c i, (c = .noCode ∨ c = .overflow) ∧ i < s.symLen.toNat ∧ execEncode s =
          .next ((s.dropBits.useDraws (2 * s.symLen.toNat)).raise c (BitVec.ofNat 32 i))) ∨
       (((s.codeInput s.symLen.toNat).map fun c : Code => c.len.toNat).sum ≤ s.params.bitCap ∧
        (∀ c ∈ s.codeInput s.symLen.toNat, c.len ≠ 0) ∧ execEncode s =
          .next ({ s with
            bit := Memory.listFrom 0 ((s.codeInput s.symLen.toNat).flatMap Code.string)
            bitLen := BitVec.ofNat 32 ((s.codeInput s.symLen.toNat).map fun c : Code => c.len.toNat).sum }.useDraws
              (2 * s.symLen.toNat)).complete))) := by
  cases hv : s.codeValid with
  | false => exact Or.inl ⟨rfl, by simp [execEncode, hv]⟩
  | true =>
    right
    by_cases hn : s.symLen.toNat ≤ s.params.symCap
    · refine Or.inr ⟨rfl, hn, ?_⟩
      rcases encodeLoop_cases s.params.bitCap (s.codeInput s.symLen.toNat) 0 0 (Nat.zero_le _) with
        ⟨h1, h2, h3⟩ | ⟨c, i, h1, h2, -, h3⟩
      · exact Or.inr ⟨by omega, h2, by simp [execEncode, hv, hn, h1, Code.length_string]⟩
      · exact Or.inl ⟨c, i, h2, by simpa [State.codeInput] using h3, by simp [execEncode, hv, hn, h1]⟩
    · exact Or.inl ⟨rfl, by omega, by simp [execEncode, hv, hn]⟩

/-- What DECODE does when R39 holds (R180). -/
theorem execDecode_cases (s : State) (h : s.TreeInv) :
    (s.treeValid = false ∧ execDecode s = .next (s.dropSyms.raise .noTree 0)) ∨
    (s.treeValid = true ∧ s.params.bitCap < s.bitLen.toNat ∧ execDecode s = .next (s.dropSyms.raise .len s.bitLen)) ∨
    (s.treeValid = true ∧ s.bitLen.toNat ≤ s.params.bitCap ∧ ∃ syms last,
      decodeBits s.node s.root (s.bitInput s.bitLen.toNat) s.root = some (syms, last) ∧
      syms.length ≤ s.bitLen.toNat ∧
      ((last ≠ s.root ∧ execDecode s = .next ((s.dropSyms.useDraws s.bitLen.toNat).raise .corrupt
          (BitVec.ofNat 32 syms.length))) ∨
       (last = s.root ∧ s.params.symCap < syms.length ∧ execDecode s =
          .next ((s.dropSyms.useDraws s.bitLen.toNat).raise .overflow (BitVec.ofNat 32 syms.length))) ∨
       (last = s.root ∧ syms.length ≤ s.params.symCap ∧ execDecode s =
          .next ({ s with
            sym := s.sym.writePrefix syms
            symLen := BitVec.ofNat 32 syms.length }.useDraws s.bitLen.toNat).complete))) := by
  cases hv : s.treeValid with
  | false => exact Or.inl ⟨rfl, by simp [execDecode, hv]⟩
  | true =>
    right
    by_cases hn : s.bitLen.toNat ≤ s.params.bitCap
    · obtain ⟨⟨t, ht, -, hi⟩, -⟩ := h.valid hv
      obtain ⟨hr, -⟩ := reads_of_treeAt ht
      obtain ⟨syms, last, hd, hl⟩ := decodeBits_isSome hr hi hr hi (s.bitInput s.bitLen.toNat)
      refine Or.inr ⟨rfl, hn, syms, last, hd, by simpa [State.bitInput] using hl, ?_⟩
      by_cases hc : last = s.root
      · subst hc
        by_cases ho : syms.length ≤ s.params.symCap
        · exact Or.inr (Or.inr ⟨rfl, ho, by simp [execDecode, hv, hn, hd, ho]⟩)
        · exact Or.inr (Or.inl ⟨rfl, by omega, by simp [execDecode, hv, hn, hd, ho]⟩)
      · exact Or.inl ⟨hc, by simp [execDecode, hv, hn, hd, hc]⟩
    · exact Or.inl ⟨rfl, by omega, by simp [execDecode, hv, hn]⟩

end Sys2Proof.Machine
end

