-- ==== Sys2Proof/Laws/Invariant.lean ====
section
/-! SUPPORT. Each command, run on a state that meets the invariant but for `SEQ` (it is BUSY inside a command), answers a
next state that meets it; likewise the host's accesses. -/

namespace Sys2Proof.Machine

/-- The invariant inside a command: all of `State.Inv` but `SEQ` and `DONE`, with no fault recorded. -/
structure State.Running (s : State) : Prop where
  done : s.done = false
  err : s.err = false
  errCode : s.errCode = 0
  errInfo : s.errInfo = 0
  paramsOk : s.params.ok
  mem : s.MemInv
  width : s.WidthInv
  queue : s.QueueInv
  tree : s.TreeInv
  table : s.TableInv

variable {s : State}

theorem State.Running.complete (h : s.Running) : s.complete.Inv :=
  ⟨rfl, h.paramsOk, h.mem, h.width, h.queue,
    ⟨by simp [h.err], fun _ => ⟨h.errCode, h.errInfo⟩, fun e => by simp [h.err] at e⟩,
    ⟨h.tree.valid, h.tree.invalid⟩, h.table⟩

theorem State.Running.raise (h : s.Running) (c : Cause) (info : Word) : (s.raise c info).Inv :=
  ⟨rfl, h.paramsOk, h.mem, h.width, h.queue,
    ⟨by simp [h.done], fun e => by simp at e, fun _ => by cases c <;> simp [Cause.code]⟩,
    ⟨h.tree.valid, h.tree.invalid⟩, h.table⟩

/-- The tree reads the same after an update that leaves `NODE`, `ROOT` and `TREE_VALID`. -/
theorem State.TreeInv.of_eq {t : State} (h : s.TreeInv) (hn : t.node = s.node) (hr : t.root = s.root)
    (hv : t.treeValid = s.treeValid) : t.TreeInv := by
  obtain ⟨h1, h2⟩ := h
  refine ⟨fun e => ?_, fun e => ?_⟩
  · have := h1 (hv ▸ e)
    simpa only [State.tree, State.leavesAtHome, State.treeSlots, hn, hr] using this
  · rw [hr]; exact h2 (hv ▸ e)

theorem State.Running.toReset (h : s.params.ok) : s.toReset.Inv :=
  ⟨rfl, h, ⟨Memory.wf_nil _, Memory.wf_nil _, Memory.wf_nil _, Memory.wf_nil _, Memory.wf_nil _, Memory.wf_nil _⟩,
    ⟨by simp, by simp, by simp, by simp⟩,
    ⟨by simp, by simp, by simp, by simp, by simp⟩,
    ⟨rfl, fun _ => ⟨rfl, rfl⟩, fun e => by simp at e⟩,
    ⟨fun e => by simp at e, fun _ => rfl⟩, fun e => by simp at e⟩

/-- A count read is a listed one or 0 (R36). -/
theorem State.freqAt_lt (h : s.WidthInv) (i : Nat) : s.freqAt i < 2 ^ s.params.fw := by
  unfold State.freqAt
  cases hr : s.freq.read? i with
  | none => simp
  | some v => exact (h.1 _ (Memory.mem_of_read? hr)).2

/-- BUILD's tree meets R39 (R147). -/
theorem State.merged_treeInv (hw : s.WidthInv) (hp : 2 ≤ s.positiveCounts.length) :
    ∃ t, treeAt s.merged.node treeBudget s.merged.root = some t ∧ t.wf = true ∧ t.isInterior = true ∧
      t.leaves.Perm s.positiveCounts ∧ (slotsAt s.merged.node treeBudget s.merged.root).Nodup ∧
      LeavesHome s.merged.node (slotsAt s.merged.node treeBudget s.merged.root) ∧
      256 ≤ s.merged.root.toNat ∧ s.merged.root.toNat ≤ 510 := by
  obtain ⟨t, sl, hr, h1, h2, h3, h4, h5, -⟩ := s.merged_tree (fun i _ => s.freqAt_lt hw i) hp
  obtain ⟨-, -, h6, -⟩ := s.merged_shape hp
  have hl := s.length_positiveCounts
  have hd : t.depth < treeBudget := lt_of_lt_of_le t.depth_lt_leaves (by rw [h3.length_eq]; exact hl)
  obtain ⟨ht, hs⟩ := hr.treeAt _ hd
  exact ⟨t, ht, h1, h2, h3, hs ▸ h4, hs ▸ h5, by omega, by omega⟩

/-- Every command, on a running state, answers a next state that meets the invariant (R39, R41, R120, R262). -/
theorem exec_running (h : s.Running) (i : Instr) : ∃ t, exec i s = .next t ∧ t.Inv := by
  have draws : ∀ {t : State}, t.Running → ∀ n, (t.useDraws n).Running := fun ht n =>
    ⟨ht.done, ht.err, ht.errCode, ht.errInfo, ht.paramsOk, ht.mem, ht.width, ht.queue,
      ht.tree.of_eq rfl rfl rfl, ht.table⟩
  obtain ⟨m1, m2, m3, m4, m5, m6⟩ := h.mem
  obtain ⟨w1, w2, w3, w4⟩ := h.width
  obtain ⟨q1, q2, q3, q4, q5⟩ := h.queue
  have dropTree : s.dropTree.Running :=
    ⟨h.done, h.err, h.errCode, h.errInfo, h.paramsOk, h.mem, h.width, h.queue,
      ⟨fun e => by simp at e, fun _ => rfl⟩, h.table⟩
  have dropTable : s.dropTable.Running :=
    ⟨h.done, h.err, h.errCode, h.errInfo, h.paramsOk, h.mem, h.width, h.queue, h.tree.of_eq rfl rfl rfl,
      fun e => by simp at e⟩
  have dropBits : s.dropBits.Running :=
    ⟨h.done, h.err, h.errCode, h.errInfo, h.paramsOk, ⟨m1, m2, m3, m4, Memory.wf_nil _, m6⟩, h.width, h.queue,
      h.tree.of_eq rfl rfl rfl, h.table⟩
  have dropBytes : s.dropBytes.Running :=
    ⟨h.done, h.err, h.errCode, h.errInfo, h.paramsOk, ⟨m1, m2, m3, m4, m5, Memory.wf_nil _⟩, h.width, h.queue,
      h.tree.of_eq rfl rfl rfl, h.table⟩
  have dropSyms : s.dropSyms.Running :=
    ⟨h.done, h.err, h.errCode, h.errInfo, h.paramsOk, ⟨m1, m2, m3, Memory.wf_nil _, m5, m6⟩, h.width, h.queue,
      h.tree.of_eq rfl rfl rfl, h.table⟩
  cases i with
  | nop => exact ⟨_, rfl, h.complete⟩
  | reset => exact ⟨_, rfl, State.Running.toReset h.paramsOk⟩
  | freqClear =>
    exact ⟨_, rfl, State.Running.complete ⟨h.done, h.err, h.errCode, h.errInfo, h.paramsOk,
      ⟨Memory.wf_nil _, m2, m3, m4, m5, m6⟩, ⟨by simp, w2, w3, w4⟩, h.queue, h.tree.of_eq rfl rfl rfl, h.table⟩⟩
  | freqCount =>
    simp only [exec, execFreqCount]
    split_ifs
    · exact ⟨_, rfl, State.Running.complete (draws (by exact ⟨h.done, h.err, h.errCode, h.errInfo, h.paramsOk,
        ⟨wf_tally _ _, m2, m3, m4, m5, m6⟩, ⟨fun c hc => mem_tally hc, w2, w3, w4⟩, h.queue,
        h.tree.of_eq rfl rfl rfl, h.table⟩) _)⟩
    · exact ⟨_, rfl, h.raise _ _⟩
  | pqInit n9 =>
    simp only [exec, execPqInit]
    split_ifs with hn
    · have e : (BitVec.ofNat 9 n9).toNat = n9 := by simp [Config.pqDepth] at hn ⊢; omega
      exact ⟨_, rfl, State.Running.complete ⟨h.done, h.err, h.errCode, h.errInfo, h.paramsOk, h.mem, h.width,
        ⟨by simp, by simp, by simp, by simpa [e] using hn.1, by simpa [e] using hn.2⟩,
        h.tree.of_eq rfl rfl rfl, h.table⟩⟩
    · exact ⟨_, rfl, h.raise _ _⟩
  | pqAdd n9 =>
    simp only [exec, execPqAdd]
    split_ifs with hn
    · exact ⟨_, rfl, State.Running.complete ⟨h.done, h.err, h.errCode, h.errInfo, h.paramsOk, h.mem, h.width,
        ⟨sorted_pqAdd q1 _ _, fun e he => by
          rcases mem_pqAdd.1 he with rfl | he
          · exact w3
          · exact q2 e he, by simpa [State.pqCount] using hn, q4, q5⟩,
        h.tree.of_eq rfl rfl rfl, h.table⟩⟩
    · exact ⟨_, rfl, h.raise _ _⟩
  | pqRemoveMin =>
    simp only [exec, execPqRemoveMin]
    cases hq : s.pq with
    | nil => exact ⟨_, rfl, h.raise _ _⟩
    | cons e rest =>
      rw [hq] at q1 q2 q3
      refine ⟨_, rfl, State.Running.complete ⟨h.done, h.err, h.errCode, h.errInfo, h.paramsOk, h.mem,
        ⟨w1, w2, w3, q2 e (by simp)⟩,
        ⟨(List.pairwise_cons.1 q1).2, fun a ha => q2 a (by simp [ha]), ?_, q4, q5⟩,
        h.tree.of_eq rfl rfl rfl, h.table⟩⟩
      simp only [List.length_cons] at q3
      simp only
      omega
  | build =>
    simp only [exec, execBuild]
    split_ifs with hp
    · rw [s.positives_eq] at hp
      obtain ⟨t, t1, t2, t3, -, t4, t5, t6, t7⟩ := State.merged_treeInv h.width hp
      obtain ⟨hpq, -⟩ := s.merged_shape hp
      have hnode : s.merged.node.wf Config.nodeMax := by
        refine mergeLoop_wf _ _ _ (Memory.wf_writePrefix m2 (by rw [State.leafNodes, List.length_map, List.length_range]; decide)) ?_
        rw [s.mergeStart_pq, s.mergeStart_next, s.length_leafQueue]
        have := s.length_positiveCounts
        omega
      have hfreq : ∀ c ∈ s.merged.node, c.2.freq < 2 ^ s.params.nfw := by
        refine mergeLoop_freq _ _ _ fun c hc => ?_
        rcases Memory.mem_writePrefix hc with hc | hc
        · obtain ⟨i, -, hi⟩ := List.mem_map.1 hc
          rw [← hi]
          exact lt_of_lt_of_le (s.freqAt_lt h.width i) (Nat.pow_le_pow_right (by omega) (by simp))
        · exact w2 c hc
      exact ⟨_, rfl, State.Running.complete ⟨h.done, h.err, h.errCode, h.errInfo, h.paramsOk,
        ⟨m1, hnode, m3, m4, m5, m6⟩, ⟨w1, hfreq, w3, w4⟩,
        ⟨by simp [hpq], by simp [hpq], by simp [hpq],
          (by decide : 1 ≤ (BitVec.ofNat 9 Config.pqDepth).toNat),
          (by decide : (BitVec.ofNat 9 Config.pqDepth).toNat ≤ 256)⟩,
        ⟨fun _ => ⟨⟨t, t1, t2, t3⟩, t5, t4, t6, t7⟩, fun e => by simp at e⟩, h.table⟩⟩
    · exact ⟨_, rfl, dropTree.raise _ _⟩
  | treeRelease => exact ⟨_, rfl, dropTree.complete⟩
  | derive =>
    rcases execDerive_cases s h.tree with ⟨-, e⟩ | ⟨-, t, code, -, h1, h2, h3, h4, h5, e⟩
    · exact ⟨_, e, dropTable.raise _ _⟩
    · exact ⟨_, e, State.Running.complete ⟨h.done, h.err, h.errCode, h.errInfo, h.paramsOk,
        ⟨m1, m2, h5 m3, m4, m5, m6⟩, h.width, h.queue, h.tree.of_eq rfl rfl rfl, fun _ => ⟨t, h1, h2, h3, h4⟩⟩⟩
  | encode =>
    rcases execEncode_cases s with ⟨-, e⟩ | ⟨-, -, e⟩ | ⟨-, -, ⟨c, i, -, -, e⟩ | ⟨h1, -, e⟩⟩
    · exact ⟨_, e, dropBits.raise _ _⟩
    · exact ⟨_, e, dropBits.raise _ _⟩
    · exact ⟨_, e, (draws dropBits _).raise _ _⟩
    · exact ⟨_, e, State.Running.complete (draws (by exact ⟨h.done, h.err, h.errCode, h.errInfo, h.paramsOk,
        ⟨m1, m2, m3, m4, Memory.wf_listFrom (by rw [length_flatMap_string]; exact h1), m6⟩, h.width, h.queue,
        h.tree.of_eq rfl rfl rfl, h.table⟩) _)⟩
  | pack =>
    simp only [exec, execPack]
    split_ifs with h1 h2
    · exact ⟨_, rfl, State.Running.complete (draws (by exact ⟨h.done, h.err, h.errCode, h.errInfo, h.paramsOk,
        ⟨m1, m2, m3, m4, m5, Memory.wf_writePrefix m6 (by simpa [State.bitInput] using h2)⟩, h.width, h.queue,
        h.tree.of_eq rfl rfl rfl, h.table⟩) _)⟩
    · exact ⟨_, rfl, dropBytes.raise _ _⟩
    · exact ⟨_, rfl, dropBytes.raise _ _⟩
  | unpack =>
    simp only [exec, execUnpack]
    split_ifs with h1 h2
    · exact ⟨_, rfl, State.Running.complete (draws (by exact ⟨h.done, h.err, h.errCode, h.errInfo, h.paramsOk,
        ⟨m1, m2, m3, m4, Memory.wf_writePrefix m5 (by simpa [State.byteInput] using h2), m6⟩, h.width, h.queue,
        h.tree.of_eq rfl rfl rfl, h.table⟩) _)⟩
    · exact ⟨_, rfl, dropBits.raise _ _⟩
    · exact ⟨_, rfl, dropBits.raise _ _⟩
  | decode =>
    rcases execDecode_cases s h.tree with
      ⟨-, e⟩ | ⟨-, -, e⟩ | ⟨-, -, syms, last, -, -, ⟨-, e⟩ | ⟨-, -, e⟩ | ⟨-, h1, e⟩⟩
    · exact ⟨_, e, dropSyms.raise _ _⟩
    · exact ⟨_, e, dropSyms.raise _ _⟩
    · exact ⟨_, e, (draws dropSyms _).raise _ _⟩
    · exact ⟨_, e, (draws dropSyms _).raise _ _⟩
    · exact ⟨_, e, State.Running.complete (draws (by exact ⟨h.done, h.err, h.errCode, h.errInfo, h.paramsOk,
        ⟨m1, m2, m3, Memory.wf_writePrefix m4 h1, m5, m6⟩, h.width, h.queue,
        h.tree.of_eq rfl rfl rfl, h.table⟩) _)⟩

/-- A state of the invariant with no fault, whatever the host's record and the sequencer, is ready to run a command. -/
theorem State.Inv.running {t : State} (h : s.Inv) (he : s.err = false) (ht : t = { s with
    seq := t.seq, done := false, script := t.script, responses := t.responses, draws := t.draws }) : t.Running := by
  rw [ht]
  exact ⟨rfl, he, (h.status.2.1 he).1, (h.status.2.1 he).2, h.paramsOk, h.mem, h.width, h.queue,
    h.tree.of_eq rfl rfl rfl, h.table⟩

/-- The invariant does not speak of the host's record or of the count of free values. -/
theorem State.Inv.record {t : State} (h : s.Inv) (ht : t = { s with
    script := t.script, responses := t.responses, draws := t.draws }) : t.Inv := by
  rw [ht]
  exact ⟨h.seqIdle, h.paramsOk, h.mem, h.width, h.queue, h.status, h.tree.of_eq rfl rfl rfl, h.table⟩

/-- A host write that passed the checks keeps the invariant (R63, R65). -/
theorem State.Inv.writeElement (h : s.Inv) (sp : Space) (i v : Nat) (hi : i < sp.count s.params) :
    (s.writeElement sp i v).Inv := by
  obtain ⟨m1, m2, m3, m4, m5, m6⟩ := h.mem
  obtain ⟨w1, w2, w3, w4⟩ := h.width
  cases sp with
  | csr =>
    simp only [State.writeElement]
    cases Csr.ofIndex i with
    | none => exact h
    | some c =>
      cases c <;> try exact h
      case status =>
        simp only [State.writeCsr]
        split_ifs
        · exact ⟨h.seqIdle, h.paramsOk, h.mem, h.width, h.queue, ⟨rfl, h.status.2⟩,
            h.tree.of_eq rfl rfl rfl, h.table⟩
        · exact h
      case pqKey =>
        exact ⟨h.seqIdle, h.paramsOk, h.mem, ⟨w1, w2, Nat.mod_lt _ (by positivity), w4⟩, h.queue, h.status,
          h.tree.of_eq rfl rfl rfl, h.table⟩
      all_goals
        exact ⟨h.seqIdle, h.paramsOk, h.mem, h.width, h.queue, h.status, h.tree.of_eq rfl rfl rfl, h.table⟩
  | freq =>
    exact ⟨h.seqIdle, h.paramsOk, ⟨wf_storeCount m1 hi v, m2, m3, m4, m5, m6⟩,
      ⟨fun c hc => (mem_storeCount hc).elim (w1 c) id, w2, w3, w4⟩, h.queue, h.status,
      h.tree.of_eq rfl rfl rfl, h.table⟩
  | node => exact h
  | code => exact h
  | sym =>
    exact ⟨h.seqIdle, h.paramsOk, ⟨m1, m2, m3, Memory.wf_insert m4 hi _, m5, m6⟩, h.width, h.queue, h.status,
      h.tree.of_eq rfl rfl rfl, h.table⟩
  | bit =>
    exact ⟨h.seqIdle, h.paramsOk, ⟨m1, m2, m3, m4, Memory.wf_insert m5 hi _, m6⟩, h.width, h.queue, h.status,
      h.tree.of_eq rfl rfl rfl, h.table⟩
  | byte =>
    exact ⟨h.seqIdle, h.paramsOk, ⟨m1, m2, m3, m4, m5, Memory.wf_insert m6 hi _⟩, h.width, h.queue, h.status,
      h.tree.of_eq rfl rfl rfl, h.table⟩

end Sys2Proof.Machine
end

