-- ==== Sys2Proof/Laws/Order.lean ====
section
/-! SUPPORT. The order in which BUILD's queue stands and what each merge takes from it (42_tree_builder.md R141, R143 to
R145, with the tie rule R128). -/

namespace Sys2Proof.Machine

/-- R141: an entry added later than all others keeps the builder's order. -/
theorem buildOrder_pqAdd {q : List Entry} (h : BuildOrder q) (k : Nat) (t : Link)
    (hnew : ∀ e ∈ q, e.tag.toNat < t.toNat) : BuildOrder (pqAdd q k t) := by
  have sorted : Sorted q := h.imp fun hab => by omega
  obtain ⟨before, after, rfl, e, hb, ha⟩ := pqAdd_split sorted k t
  obtain ⟨h1, h2, h3⟩ := List.pairwise_append.1 h
  rw [e]
  refine List.pairwise_append.2 ⟨h1, List.pairwise_cons.2 ⟨fun b hb' => .inl (ha b hb'), h2⟩, fun a ha' b hb' => ?_⟩
  rcases List.mem_cons.1 hb' with rfl | hb'
  · have := hb a ha'
    have := hnew a (by simp [ha'])
    simp only
    omega
  · exact h3 a ha' b hb'

/-- R140, R141: the leaves of the first `n` symbols, added in ascending order, stand in the builder's order. -/
theorem leafQueue_order (s : State) (n : Nat) (hn : n ≤ 256) :
    BuildOrder ((List.range n).foldl s.addLeaf []) ∧
    ((List.range n).foldl s.addLeaf []).Perm
      (((List.range n).filter fun i => decide (0 < s.freqAt i)).map fun i => ⟨s.freqAt i, BitVec.ofNat 9 i⟩) := by
  induction n with
  | zero => exact ⟨List.Pairwise.nil, by simp⟩
  | succ n ih =>
    obtain ⟨h1, h2⟩ := ih (by omega)
    simp only [List.range_succ, List.foldl_append, List.foldl_cons, List.foldl_nil, List.filter_append, List.map_append,
      State.addLeaf]
    by_cases hp : 0 < s.freqAt n
    · rw [if_pos hp]
      refine ⟨buildOrder_pqAdd h1 _ _ fun e he => ?_, (pqAdd_perm _ _ _).trans ?_⟩
      · obtain ⟨i, hi, rfl⟩ := List.mem_map.1 (h2.mem_iff.1 he)
        have := List.mem_range.1 (List.mem_of_mem_filter hi)
        simp only [BitVec.toNat_ofNat]
        omega
      · simpa [hp] using (h2.cons _).trans (List.perm_append_singleton _ _).symm
    · rw [if_neg hp]
      simpa [hp] using And.intro h1 h2

/-- R145: the loop writes no slot below the next free one. -/
theorem mergeLoop_keeps (p : Params) (turns : Nat) (m : Merge) (j : Nat) (hj : j < m.next) :
    (mergeLoop p turns m).node.read? j = m.node.read? j := by
  induction turns generalizing m with
  | zero => rfl
  | succ turns ih =>
    obtain ⟨node, pq, next, root⟩ := m
    match pq with
    | [] => rfl
    | [a] => rfl
    | a :: b :: rest =>
      simp only [mergeLoop]
      simp only at hj
      rw [ih _ (by simp only; omega), Memory.read?_insert, if_neg (by omega)]

/-- R143 to R145: the queue before each merge, and what the merge does: the first two entries become the LEFT and the RIGHT
child of the next slot, which is added in their place. `k` is the number of merges. -/
theorem mergeLoop_trace (p : Params) (k turns : Nat) (m : Merge) (hk : m.pq.length = k + 1) (ht : k + 1 ≤ turns)
    (order : BuildOrder m.pq) (tags : ∀ e ∈ m.pq, e.tag.toNat < m.next) (slots : m.next + k ≤ 512)
    (fits : (m.pq.map Entry.key).sum < 2 ^ p.nfw) :
    ∃ queue : Nat → List Entry, queue 0 = m.pq ∧ (∀ j, j ≤ k → BuildOrder (queue j)) ∧
      (∀ j, j < k → ∃ a b rest, queue j = a :: b :: rest ∧
        (mergeLoop p turns m).node.read? (m.next + j) = some ⟨a.key + b.key, .interior, 0, a.tag, b.tag⟩ ∧
        (queue (j + 1)).Perm (⟨a.key + b.key, BitVec.ofNat 9 (m.next + j)⟩ :: rest)) ∧
      (queue k).map Entry.tag = [(mergeLoop p turns m).root] := by
  induction k generalizing turns m with
  | zero =>
    obtain ⟨turns, rfl⟩ : ∃ t, turns = t + 1 := ⟨turns - 1, by omega⟩
    obtain ⟨node, pq, next, root⟩ := m
    obtain ⟨a, rfl⟩ := List.length_eq_one_iff.1 hk
    exact ⟨fun _ => [a], rfl, fun _ _ => order, fun j hj => absurd hj (by omega), rfl⟩
  | succ k ih =>
    obtain ⟨turns, rfl⟩ : ∃ t, turns = t + 1 := ⟨turns - 1, by omega⟩
    obtain ⟨node, pq, next, root⟩ := m
    match pq, hk with
    | a :: b :: rest, hk =>
      simp only [List.length_cons] at hk
      simp only [List.map_cons, List.sum_cons] at fits
      simp only at slots tags
      have sum : truncKey p (a.key + b.key) = a.key + b.key := Nat.mod_eq_of_lt (by omega)
      have slot : (BitVec.ofNat 9 next).toNat = next := by simp only [BitVec.toNat_ofNat]; omega
      have restTags : ∀ e ∈ rest, e.tag.toNat < next := fun e he => tags e (by simp [he])
      have added := pqAdd_perm rest (a.key + b.key) (BitVec.ofNat 9 next)
      obtain ⟨queue, h0, h1, h2, h3⟩ := ih turns ⟨node.insert next (mergeNode p a b),
        pqAdd rest (truncKey p (a.key + b.key)) (BitVec.ofNat 9 next), next + 1, root⟩
        (by simp only [length_pqAdd]; omega) (by omega)
        (buildOrder_pqAdd (List.pairwise_cons.1 (List.pairwise_cons.1 order).2).2 _ _ (by rw [slot]; exact restTags))
        (fun e he => by
          rcases mem_pqAdd.1 he with rfl | he
          · simp only [slot]; omega
          · have := restTags e he; simp only; omega)
        (by simp only; omega)
        (by simp only [sum]; rw [(added.map Entry.key).sum_eq]; simp only [List.map_cons, List.sum_cons]; omega)
      simp only [sum] at h0 h2 h3
      have same : ∀ j, next + 1 + j = next + (j + 1) := fun j => by omega
      simp only [same] at h2
      simp only [mergeLoop, sum]
      refine ⟨fun j => j.casesOn (a :: b :: rest) queue, rfl, fun j hj => ?_, fun j hj => ?_, h3⟩
      · cases j with
        | zero => exact order
        | succ j => exact h1 j (by omega)
      · cases j with
        | zero =>
          refine ⟨a, b, rest, rfl, ?_, by rw [← h0] at added; exact added⟩
          rw [mergeLoop_keeps _ _ _ _ (by simp), Memory.read?_insert, if_pos (Nat.add_zero _), mergeNode, sum]
        | succ j => exact h2 j (by omega)

/-- R141, R143 to R145: the merges of a BUILD over `n` leaves. -/
theorem State.merged_trace (s : State) (hf : ∀ i, i < 256 → s.freqAt i < 2 ^ s.params.fw)
    (h : 2 ≤ s.positiveCounts.length) : ∃ queue : Nat → List Entry,
      (queue 0).Perm (s.positiveCounts.map fun c => ⟨c.2, BitVec.ofNat 9 c.1.toNat⟩) ∧
      (∀ j, j < s.positiveCounts.length → BuildOrder (queue j)) ∧
      (∀ j, j + 1 < s.positiveCounts.length → ∃ a b rest, queue j = a :: b :: rest ∧
        s.merged.node.read? (256 + j) = some ⟨a.key + b.key, .interior, 0, a.tag, b.tag⟩ ∧
        (queue (j + 1)).Perm (⟨a.key + b.key, BitVec.ofNat 9 (256 + j)⟩ :: rest)) ∧
      (queue (s.positiveCounts.length - 1)).map Entry.tag = [s.merged.root] := by
  obtain ⟨order, leaves⟩ := leafQueue_order s Config.alphabet (le_refl _)
  change BuildOrder s.leafQueue at order
  change s.leafQueue.Perm _ at leaves
  obtain ⟨cands, forest, -, -, -, -⟩ := s.mergeStart_forest hf
  have most := s.length_positiveCounts
  have fits : (s.mergeStart.pq.map Entry.key).sum < 2 ^ s.params.nfw := by
    rw [← forest.queue, List.map_map]
    exact forest.fits
  obtain ⟨queue, h0, h1, h2, h3⟩ := mergeLoop_trace s.params (s.positiveCounts.length - 1) Config.alphabet s.mergeStart
    (by rw [s.mergeStart_pq, s.length_leafQueue]; omega) (by simp only [Config.alphabet]; omega)
    (by rw [s.mergeStart_pq]; exact order)
    (by
      rw [s.mergeStart_pq, s.mergeStart_next]
      intro e he
      obtain ⟨i, hi, rfl⟩ := List.mem_map.1 (leaves.mem_iff.1 he)
      have := List.mem_range.1 (List.mem_of_mem_filter hi)
      simp only [Config.alphabet] at this
      simp only [BitVec.toNat_ofNat]
      omega)
    (by rw [s.mergeStart_next]; omega) fits
  rw [s.mergeStart_next] at h2
  refine ⟨queue, ?_, fun j hj => h1 j (by omega), fun j hj => h2 j (by omega), h3⟩
  rw [h0, s.mergeStart_pq]
  refine leaves.trans (List.Perm.of_eq ?_)
  simp only [State.positiveCounts, List.map_map]
  refine List.map_congr_left fun i hi => ?_
  have := List.mem_range.1 (List.mem_of_mem_filter hi)
  simp only [Config.alphabet] at this
  simp only [Function.comp, BitVec.toNat_ofNat, Nat.mod_eq_of_lt this]

end Sys2Proof.Machine
end

