-- ==== Sys2Proof/Machine/Script.lean ====
section
/-! DEFINITION. The host-script notation (30_encoding.md R99) and its pseudo-commands (R100), as lists of host events. No
step reads this file: a program is what stands in `State.script` (log 1). -/

namespace Sys2Proof.Machine

/-- `wr SPACE[index], value` (R99). -/
def wr (sp : Space) (i v : Nat) : HostEvent := .request ⟨true, sp, i, v⟩

/-- `rd SPACE[index]` (R99). -/
def rd (sp : Space) (i : Nat) : HostEvent := .request ⟨false, sp, i, 0⟩

/-- A mnemonic's line: a write of the command's word to `CSR[CMD]` (R99). -/
def issue (i : Instr) : HostEvent := wr .csr 0 (encode i).toNat

/-- Writes of a sequence of values to a space from index `k` on. -/
def wrFrom (sp : Space) : Nat → List Nat → List HostEvent
  | _, [] => []
  | k, v :: l => wr sp k v :: wrFrom sp (k + 1) l

/-- `ldsym` (R100). -/
def ldsym (l : List Byte) : List HostEvent := wrFrom .sym 0 (l.map BitVec.toNat) ++ [wr .csr 5 l.length]

/-- `ldbits` (R100). -/
def ldbits (l : List Bool) : List HostEvent := wrFrom .bit 0 (l.map Bool.toNat) ++ [wr .csr 6 l.length]

/-- `ldbytes` (R100). -/
def ldbytes (l : List Byte) : List HostEvent := wrFrom .byte 0 (l.map BitVec.toNat) ++ [wr .csr 7 l.length]

/-- `ldfreq` (R100). -/
def ldfreq (l : List (Byte × Nat)) : List HostEvent :=
  issue .freqClear :: l.map (fun c => wr .freq c.1.toNat c.2)

/-- `COMPRESS` (R100). -/
def compress : List HostEvent := [issue .freqCount, issue .build, issue .derive, issue .encode, issue .pack]

/-- `DECOMPRESS n` (R100): the host restores the true bit length between UNPACK and DECODE (R255). -/
def decompress (n : Nat) : List HostEvent := [issue .unpack, wr .csr 6 n, issue .decode]

end Sys2Proof.Machine
end

