-- ==== Sys2Proof/Tests/Slice0.lean ====
section
/-! SUPPORT. The model's own tests. Expected values are those of spec/95_test_vectors.md (the vector is named) or of the
rule's own example; the last part shows for every statement with hypotheses a state that meets them. -/

namespace Sys2Proof.Tests

open Sys2Proof.Machine

/-! ## Helpers -/

/-- Whether a meaning answered a next state that passes a check. -/
def nextWith (r : Result) (check : State → Bool) : Bool :=
  match r with
  | .next t => check t
  | .fault _ => false
  | .refused _ => false

/-- The next state, or the given one if there is none. -/
def after (i : Instr) (s : State) : State :=
  match exec i s with
  | .next t => t
  | .fault _ => s
  | .refused _ => s

theorem exec_eq_after {i : Instr} {s : State} (h : nextWith (exec i s) (fun _ => true) = true) :
    exec i s = .next (after i s) := by
  unfold after
  cases hx : exec i s <;> simp_all [nextWith]

/-- The reset state with a script. -/
def scripted (l : List HostEvent) : State := { State.reset with script := l }

/-- A host write of a word to `CMD`. -/
def cmd (w : Word) : HostEvent := .request ⟨true, .csr, 0, w.toNat⟩

/-- The tree of vector X7: a = "00", b = "01", c = "1", with its code table. -/
def abc : State := { State.reset with
  treeValid := true
  codeValid := true
  root := 257
  freq := [(97, 1), (98, 1), (99, 3)]
  node := [(97, ⟨1, .leaf, 97, 511, 511⟩), (98, ⟨1, .leaf, 98, 511, 511⟩), (99, ⟨3, .leaf, 99, 511, 511⟩),
    (256, ⟨2, .interior, 0, 97, 98⟩), (257, ⟨5, .interior, 0, 256, 99⟩)]
  code := (List.range 256).map (fun i => (i,
    if i = 97 then Code.ofPath [false, false] else if i = 98 then Code.ofPath [false, true]
    else if i = 99 then Code.ofPath [true] else Code.unset)) }

/-- The tree of vector X7 as a value. -/
def abcTree : HTree := .interior 5 (.interior 2 (.leaf 97 1) (.leaf 98 1)) (.leaf 99 3)

/-- `abc` with the symbols "cab" in `SYM`. -/
def abcSyms : State := { abc with sym := [(0, 99), (1, 97), (2, 98)], symLen := 3 }

/-- `abc` with a bit string in `BIT`. -/
def abcBits (l : List Bool) : State :=
  { abc with bit := Memory.listFrom 0 l, bitLen := BitVec.ofNat 32 l.length }

/-! ## Well-formedness and decoding -/

/-- R100's expansions, on the smallest inputs. -/
theorem test_script : ldsym [97] = [.request ⟨true, .sym, 0, 0x61⟩, .request ⟨true, .csr, 5, 1⟩] ∧
    ldbits [false, true] =
      [.request ⟨true, .bit, 0, 0⟩, .request ⟨true, .bit, 1, 1⟩, .request ⟨true, .csr, 6, 2⟩] ∧
    ldfreq [(120, 7)] = [.request ⟨true, .csr, 0, 0x10000000⟩, .request ⟨true, .freq, 0x78, 7⟩] ∧
    compress = [0x11000000, 0x30000000, 0x32000000, 0x40000000, 0x41000000].map (fun w => .request ⟨true, .csr, 0, w⟩) ∧
    decompress 18 = [.request ⟨true, .csr, 0, 0x42000000⟩, .request ⟨true, .csr, 6, 18⟩,
      .request ⟨true, .csr, 0, 0x43000000⟩] := by decide

theorem test_wellFormed_pqInit_range : wellFormed (.pqInit 511) = true ∧ wellFormed (.pqInit 512) = false := by decide
theorem test_wellFormed_pqAdd_range : wellFormed (.pqAdd 511) = true ∧ wellFormed (.pqAdd 512) = false := by decide

/-- R94, format Z of every family, bit by bit: op, then 24 zero bits. -/
theorem test_decode_formatZ :
    decode 0b00000000000000000000000000000000 = .ok .nop ∧
    decode 0b00000001000000000000000000000000 = .ok .reset ∧
    decode 0b00010000000000000000000000000000 = .ok .freqClear ∧
    decode 0b00010001000000000000000000000000 = .ok .freqCount ∧
    decode 0b00100010000000000000000000000000 = .ok .pqRemoveMin ∧
    decode 0b00110000000000000000000000000000 = .ok .build ∧
    decode 0b00110001000000000000000000000000 = .ok .treeRelease ∧
    decode 0b00110010000000000000000000000000 = .ok .derive ∧
    decode 0b01000000000000000000000000000000 = .ok .encode ∧
    decode 0b01000001000000000000000000000000 = .ok .pack ∧
    decode 0b01000010000000000000000000000000 = .ok .unpack ∧
    decode 0b01000011000000000000000000000000 = .ok .decode := by decide

/-- R92, vectors A6: op, 15 zero bits, the nine operand bits. -/
theorem test_decode_formatI9 :
    decode 0b00100000000000000000000000000100 = .ok (.pqInit 4) ∧
    decode 0b00100000000000000000000111111111 = .ok (.pqInit 511) ∧
    decode 0b00100000000000000000000100000000 = .ok (.pqInit 256) ∧
    decode 0b00100001000000000000000000001010 = .ok (.pqAdd 10) ∧
    decode 0b00100001000000000000000111111111 = .ok (.pqAdd 511) := by decide

/-- Vectors A5: each illegal word and why. -/
theorem test_decode_illegal :
    decode 0x00000001 = .error (.immNotZero 0x00 1) ∧ decode 0x02000000 = .error (.undefinedOp 0x02) ∧
    decode 0x30000001 = .error (.immNotZero 0x30 1) ∧ decode 0x20000200 = .error (.immNotZero 0x20 0x200) ∧
    decode 0x21FFFFFF = .error (.immNotZero 0x21 0xFFFFFF) ∧ decode 0x44000000 = .error (.undefinedOp 0x44) ∧
    decode 0xFFFFFFFF = .error (.undefinedOp 0xFF) := by decide

theorem test_decodeTableWord : decodeTableWord 32 0x20000003 = some (.pqInit 3) ∧
    decodeTableWord 32 0x02000000 = none := by decide

/-! ## One step each -/

/-- Vector A1. -/
theorem test_reset_status : State.reset.readElement .csr 1 = some 0x10 ∧
    State.reset.readElement .csr 8 = some 511 := by decide

/-- Vector A2. -/
theorem test_nop : nextWith (step (State.reset.withFetchWord 32 0x00000000)) (fun t => t.status == 0x11) = true := by
  decide

/-- Vector A5, first row. -/
theorem test_illegal_word : nextWith (step (scripted [cmd 0x00000001]))
    (fun t => t.status == 0x12 && t.errCode == 1 && t.errInfo == 1) = true := by decide

/-- Vector A7: `0x01000001` is skipped, not faulted, while `ERR = 1`. -/
theorem test_skipped : nextWith (step { scripted [cmd 0x01000001] with err := true, errCode := 5 })
    (fun t => t.err && t.errCode == 5 && t.errInfo == 0 && !t.done) = true := by decide

/-- R111's example. -/
theorem test_reset_command : nextWith (exec .reset { State.reset with err := true, errCode := 5, ie := true })
    (fun t => t.status == 0x10 && t.errCode == 0 && !t.irq) = true := by decide

/-- Vector A3: writing `0xFFFFFFFE` to `STATUS` changes nothing, writing 1 clears `DONE`. -/
theorem test_done_w1c :
    nextWith (step { scripted [.request ⟨true, .csr, 1, 0xFFFFFFFE⟩] with done := true }) (fun t => t.done) = true ∧
    nextWith (step { scripted [.request ⟨true, .csr, 1, 1⟩] with done := true }) (fun t => !t.done) = true := by decide

/-- Vector A8: a missing element and a read-only location are refused. -/
theorem test_refused :
    nextWith (step (scripted [.request ⟨false, .node, 511, 0⟩])) (fun t => t.responses == [⟨true, 0⟩]) = true ∧
    nextWith (step (scripted [.request ⟨true, .csr, 8, 0⟩])) (fun t => t.responses == [⟨true, 0⟩]) = true := by decide

/-- Vector V1's first two elements: the layout of a leaf and of an interior node. -/
theorem test_node_layout : (Node.mk 5 .leaf 0x61 511 511).toNat = 0x2987FFFF ∧
    (Node.mk 14 .interior 0 0x61 0x62).toNat = 0x7400C262 := by decide

/-- Vector V1: `CODE[0x61]` is `0x26` followed by 63 zero hex digits. -/
theorem test_code_layout : (Code.ofPath [true, true, false, false]).toNat = 0x26 * 16 ^ 63 := by decide

/-- R190. -/
theorem test_freqClear : nextWith (exec .freqClear { State.reset with freq := [(0x61, 3)] })
    (fun t => t.freqAt 0x61 == 0 && t.done) = true := by decide

/-- Vector F3: byte values 0 and 255. -/
theorem test_freqCount : nextWith (exec .freqCount
    { State.reset with sym := [(0, 0x00), (1, 0xFF), (2, 0x00)], symLen := 3, freq := [(7, 9)] })
    (fun t => t.freqAt 0 == 2 && t.freqAt 255 == 1 && t.freqAt 7 == 0) = true := by decide

/-- Vector F4: the length fault leaves the table. -/
theorem test_freqCount_len : nextWith (exec .freqCount { State.reset with freq := [(1, 9)], symLen := 65537 })
    (fun t => t.errCode == 9 && t.errInfo == 65537 && t.freqAt 1 == 9) = true := by decide

/-- Vectors Q6. -/
theorem test_pqInit_bad :
    nextWith (exec (.pqInit 0) State.reset) (fun t => t.errCode == 2 && t.errInfo == 0x20000000) = true ∧
    nextWith (exec (.pqInit 257) State.reset)
      (fun t => t.errCode == 2 && t.errInfo == 0x20000101 && t.pqCap == 256) = true := by decide

/-- Vector Q2. -/
theorem test_pqInit_then_full :
    nextWith (exec (.pqAdd 7) (after (.pqInit 1) State.reset)) (fun t => t.status == 0x21) = true ∧
    nextWith (exec (.pqAdd 8) { State.reset with pqCap := 1, pq := [⟨0, 7⟩] })
      (fun t => t.errCode == 3 && t.errInfo == 1 && t.status == 0x22) = true := by decide

/-- Program P5: the key 7 goes behind the key 7 already there; vector Q1's fourth add goes between. -/
theorem test_pqAdd_ties :
    nextWith (exec (.pqAdd 11) { State.reset with pqKey := 7, pq := [⟨7, 10⟩] })
      (fun t => t.pq == [⟨7, 10⟩, ⟨7, 11⟩]) = true ∧
    nextWith (exec (.pqAdd 4) { State.reset with pqKey := 3, pq := [⟨3, 2⟩, ⟨5, 1⟩, ⟨5, 3⟩] })
      (fun t => t.pq == [⟨3, 2⟩, ⟨3, 4⟩, ⟨5, 1⟩, ⟨5, 3⟩]) = true := by decide

/-- Program P5 and vector Q3. -/
theorem test_pqRemoveMin :
    nextWith (exec .pqRemoveMin { State.reset with pq := [⟨2, 12⟩, ⟨7, 10⟩] })
      (fun t => t.pqOutKey == 2 && t.pqOutTag == 12 && t.pq == [⟨7, 10⟩]) = true ∧
    nextWith (exec .pqRemoveMin State.reset) (fun t => t.errCode == 4 && t.errInfo == 0) = true := by decide

/-- Vector T5: a leaf ties with an interior node and comes out first. -/
theorem test_build_tie : nextWith (exec .build { State.reset with freq := [(97, 1), (98, 1), (99, 2)] })
    (fun t => t.node.read? 256 == some ⟨2, .interior, 0, 97, 98⟩ &&
      t.node.read? 257 == some ⟨4, .interior, 0, 99, 256⟩ && t.root == 257 && t.status == 0x15) = true := by
  decide +kernel

/-- Vector T9. -/
theorem test_build_one_symbol : nextWith (exec .build { State.reset with freq := [(97, 5)], root := 300 })
    (fun t => t.errCode == 5 && t.errInfo == 1 && t.root == 511 && t.node == []) = true := by decide +kernel

/-- Vector T13. -/
theorem test_treeRelease : nextWith (exec .treeRelease abc)
    (fun t => t.root == 511 && t.status == 0x19 && t.node == abc.node) = true := by decide

/-- Vector X7's codes, written over an empty table. -/
theorem test_derive : nextWith (exec .derive { abc with code := [], codeValid := false })
    (fun t => t.code == abc.code && t.codeValid) = true := by decide +kernel

/-- Vector T14. -/
theorem test_derive_no_tree : nextWith (exec .derive State.reset)
    (fun t => t.errCode == 6 && t.status == 0x12) = true := by decide

/-- "cab" is "1", "00", "01". -/
theorem test_encode : nextWith (exec .encode abcSyms)
    (fun t => t.bit == Memory.listFrom 0 [true, false, false, false, true] && t.bitLen == 5) = true := by
  decide +kernel

/-- Vectors E4 and E7: no code at position 1; no room at position 1. -/
theorem test_encode_faults :
    nextWith (exec .encode { abcSyms with sym := [(0, 99), (1, 122), (2, 98)], bitLen := 9 })
      (fun t => t.errCode == 8 && t.errInfo == 1 && t.bitLen == 0) = true ∧
    nextWith (exec .encode { abcSyms with params := { State.reset.params with bitCap := 2 } })
      (fun t => t.errCode == 10 && t.errInfo == 1) = true := by decide +kernel

/-- Vector S1. -/
theorem test_pack : nextWith (exec .pack (abcBits [true, false, true, false, true, false, true]))
    (fun t => t.byte == [(0, 0xAA)] && t.byteLen == 1) = true := by decide +kernel

/-- Vectors K5 and K10: one bit goes to the top of the byte, later bytes stay. -/
theorem test_pack_one_bit : nextWith (exec .pack { abcBits [true] with byte := [(0, 0x11), (1, 0x22)] })
    (fun t => t.byte == [(0, 0x80), (1, 0x22)]) = true := by decide +kernel

/-- Vector K2, its last byte. -/
theorem test_unpack : nextWith (exec .unpack { State.reset with byte := [(0, 0xCD)], byteLen := 1 })
    (fun t => t.bit == Memory.listFrom 0 [true, true, false, false, true, true, false, true] && t.bitLen == 8) = true := by
  decide +kernel

/-- Vector K9. -/
theorem test_unpack_overflow : nextWith (exec .unpack
    { State.reset with params := ⟨32, 65536, 16, 4⟩, byte := [(0, 1), (1, 2), (2, 3)], byteLen := 3 })
    (fun t => t.errCode == 10 && t.errInfo == 24 && t.bitLen == 0) = true := by decide

/-- Vectors X7 (the message "c" at its true length) and X10 (later symbols stay). -/
theorem test_decode : nextWith (exec .decode { abcBits [true] with sym := [(0, 122), (1, 122)] })
    (fun t => t.sym == [(0, 99), (1, 122)] && t.symLen == 1) = true := by decide +kernel

/-- Vector X7: the padding does not decode. -/
theorem test_decode_corrupt :
    nextWith (exec .decode (abcBits [true, false, false, false, false, false, false, false]))
      (fun t => t.errCode == 11 && t.errInfo == 4 && t.symLen == 0) = true := by decide +kernel

/-! ## Witnesses: states that meet the statements' hypotheses -/

/-- `abc` meets every invariant, with both valid flags set. -/
theorem abc_inv : abc.Inv where
  seqIdle := rfl
  paramsOk := by decide +kernel
  mem := by decide +kernel
  width := by decide +kernel
  queue := by decide +kernel
  status := by decide
  tree := ⟨fun _ => ⟨⟨abcTree, by decide +kernel, by decide, rfl⟩, by
      have h : abc.treeSlots = [257, 256, 97, 98, 99] := by decide +kernel
      intro i hi n hn hk
      rw [h] at hi
      have key : ∀ i ∈ [257, 256, 97, 98, 99], ∀ n ∈ abc.node.read? i, n.kind = .leaf → n.sym.toNat = i := by decide
      exact key i hi n hn hk,
    by decide +kernel, by decide, by decide⟩, fun h => absurd h (by decide)⟩
  table := fun _ => ⟨abcTree, rfl, by decide, by decide, by decide +kernel⟩

theorem witness_DecodeOfEncodeIsTheCommand : WellFormed (.pqAdd 511) ∧ WellFormed .build := by decide

theorem witness_EncodeOfDecodeIsTheWord : decode 0x210001FF = .ok (.pqAdd 511) := by decide

theorem witness_IllegalWordsFault : (scripted [cmd 0x20000200]).offers 0x20000200 [] ∧
    (scripted [cmd 0x20000200]).err = false ∧ decode 0x20000200 = .error (.immNotZero 0x20 0x200) := by decide

theorem witness_StepRunsTheOfferedCommand : (scripted [cmd 0x30000000]).offers 0x30000000 [] ∧
    (scripted [cmd 0x30000000]).err = false ∧ decode 0x30000000 = .ok .build ∧
    { scripted [cmd 0x01000000] with err := true }.offers 0x01000000 [] := by decide

theorem witness_PlacedWordRunsNext : State.reset.err = false ∧ decodeTableWord 32 0x43000000 = some .decode := by decide

theorem witness_CommandsAreSkippedWhileFaulted : { scripted [cmd 0x00000000] with err := true }.offers 0 [] ∧
    (0 : Word) ≠ 0x01000000 := by decide

theorem witness_EventsOutsideCommands : State.reset.script = [] ∧
    { scripted [cmd 0] with seq := .busy }.script = [.request ⟨true, .csr, 0, 0⟩] ∧
    (scripted [.rst]).script = [.rst] := by decide

theorem witness_OneResponsePerRequest : (scripted [cmd 0]).nextRequest ⟨true, .csr, 0, 0⟩ [] ∧
    nextWith (step (scripted [cmd 0])) (fun _ => true) = true := by decide

/-- A missing element, a read-only location, and a request that is neither, at the edges of R64. -/
theorem witness_RefusedAccessesChangeNothing :
    (scripted [.request ⟨false, .csr, 18, 0⟩]).nextRequest ⟨false, .csr, 18, 0⟩ [] ∧
    Request.missing State.reset.params ⟨false, .csr, 18, 0⟩ ∧ Request.missing State.reset.params ⟨false, .sym, 65536, 0⟩ ∧
    Request.toReadOnly ⟨true, .node, 0, 0⟩ ∧ Request.toReadOnly ⟨true, .csr, 3, 0⟩ ∧
    ¬ Request.missing State.reset.params ⟨true, .csr, 17, 0⟩ ∧ ¬ Request.toReadOnly ⟨false, .csr, 17, 0⟩ ∧
    nextWith (step (scripted [.request ⟨false, .csr, 17, 0⟩])) (fun _ => true) = true := by decide

/-- A specified element and an unspecified one. -/
theorem witness_ReadsAnswerTheElement :
    (scripted [.request ⟨false, .freq, 255, 0⟩]).nextRequest ⟨false, .freq, 255, 0⟩ [] ∧
    ¬ Request.missing State.reset.params ⟨false, .freq, 255, 0⟩ ∧ State.reset.readElement .freq 255 = some 0 ∧
    ¬ Request.missing State.reset.params ⟨false, .node, 510, 0⟩ ∧ State.reset.readElement .node 510 = none := by decide

/-- The last slot and the last entry, with vector V1's layouts. -/
theorem witness_NodeAndCodeElementsAsRead :
    (scripted [.request ⟨false, .node, 510, 0⟩]).nextRequest ⟨false, .node, 510, 0⟩ [] ∧
    { State.reset with node := [(510, ⟨14, .interior, 0, 97, 98⟩)] }.readElement .node 510 = some 0x7400C262 ∧
    (scripted [.request ⟨false, .code, 255, 0⟩]).nextRequest ⟨false, .code, 255, 0⟩ [] ∧
    { State.reset with code := [(255, Code.ofPath [true, true, false, false])] }.readElement .code 255 =
      some (0x26 * 16 ^ 63) := by decide +kernel

theorem witness_StatusRegister :
    (scripted [.request ⟨true, .csr, 1, 1⟩]).nextRequest ⟨true, .csr, 1, 1⟩ [] := by decide

theorem witness_ControlRegisterAndInterruptLine :
    (scripted [.request ⟨true, .csr, 2, 3⟩]).nextRequest ⟨true, .csr, 2, 3⟩ [] := by decide

/-- A buffer element, a count and a register. -/
theorem witness_PlainWritesStoreOneElement :
    (scripted [.request ⟨true, .sym, 65535, 7⟩]).nextRequest ⟨true, .sym, 65535, 7⟩ [] ∧
    Request.toPlain ⟨true, .sym, 65535, 7⟩ ∧ ¬ Request.missing State.reset.params ⟨true, .sym, 65535, 7⟩ ∧
    Request.toPlain ⟨true, .freq, 0, 0⟩ ∧ Request.toPlain ⟨true, .csr, 9, 1⟩ := by decide

theorem witness_AcceptedCommandEndsDoneOrFaulted : (scripted [cmd 0x32000000]).offers 0x32000000 [] ∧
    (0x32000000 : Word) ≠ 0x01000000 ∧ nextWith (step (scripted [cmd 0x32000000])) (fun t => t.err) = true ∧
    nextWith (step (scripted [cmd 0])) (fun t => t.done) = true := by decide

theorem witness_OnlyListedCommandsWrite : nextWith (exec .derive abc) (fun _ => true) = true ∧
    nextWith (exec .pack (abcBits [true])) (fun _ => true) = true := by decide +kernel

theorem witness_FaultingCommandLeaves : State.reset.err = false ∧
    nextWith (exec .encode State.reset) (fun t => t.err) = true ∧
    nextWith (exec .decode State.reset) (fun t => t.err) = true ∧
    nextWith (exec .build State.reset) (fun t => t.err) = true := by decide +kernel

theorem witness_FaultIsStickyUntilReset : { scripted [cmd 0] with err := true }.err = true ∧
    nextWith (step { scripted [cmd 0] with err := true }) (fun t => t.err) = true := by decide

theorem witness_FreqCountTallies : abcSyms.params.ok ∧ abcSyms.symLen.toNat ≤ abcSyms.params.symCap ∧
    { State.reset with symLen := 65537 }.params.symCap < { State.reset with symLen := 65537 }.symLen.toNat := by decide

theorem witness_PqAddInsertsBehindEqualKeys :
    let s : State := { State.reset with pq := [⟨3, 2⟩, ⟨5, 1⟩], pqCap := 3, pqKey := 3 }
    s.pq.Pairwise (fun a b => a.key ≤ b.key) ∧ s.pq.length < s.pqCap.toNat ∧
    { s with pqCap := 2 }.pq.length = { s with pqCap := 2 }.pqCap.toNat := by decide

theorem witness_PqRemoveMinTakesTheFirst :
    let s : State := { State.reset with pq := [⟨3, 2⟩, ⟨5, 1⟩] }
    s.pq = ⟨3, 2⟩ :: [⟨5, 1⟩] ∧ s.pq.Pairwise (fun a b => a.key ≤ b.key) ∧ State.reset.pq = [] := by decide

theorem witness_BuildNeedsTwoSymbols : { State.reset with freq := [(97, 5)] }.positiveCounts.length < 2 := by decide

/-- For the statements about a BUILD that completes. -/
theorem witness_Build : (∀ i, i < 256 → abc.freqAt i < 2 ^ abc.params.fw) ∧ abc.positiveCounts.length = 3 ∧
    nextWith (exec .build abc) (fun t => t.tree == some abcTree && t.root == 257) = true ∧
    abcTree.leaves.Perm abc.positiveCounts := by decide +kernel

/-- Vector T5 meets the hypotheses with a tie between a leaf and an interior node, and its first merge with one between two
leaves. -/
theorem witness_BuildMergesExactSums :
    let s : State := { State.reset with freq := [(97, 1), (98, 1), (99, 2)] }
    (∀ i, i < 256 → s.freqAt i < 2 ^ s.params.fw) ∧ s.positiveCounts = [(97, 1), (98, 1), (99, 2)] ∧
    BuildOrder [⟨1, 97⟩, ⟨1, 98⟩, ⟨2, 99⟩] ∧ BuildOrder [⟨2, 99⟩, ⟨2, 256⟩] ∧
    nextWith (exec .build s) (fun t => t.root == 257) = true := by decide +kernel

theorem witness_BuildDependsOnFreqOnly : abc.params.fw = { abc with node := [], root := 511 }.params.fw ∧
    (∀ i, i < 256 → abc.freqAt i = { abc with node := [], root := 511 }.freqAt i) ∧
    2 ≤ abc.positiveCounts.length := ⟨rfl, fun _ _ => rfl, by decide +kernel⟩

theorem witness_DeriveRecordsThePaths : abc.TreeInv ∧ abc.treeValid = true ∧ State.reset.TreeInv ∧
    State.reset.treeValid = false :=
  ⟨abc_inv.tree, rfl, ⟨fun h => absurd h (by decide), fun _ => rfl⟩, rfl⟩

theorem witness_CodesArePrefixFree : abc.TableInv ∧ abc.codeValid = true ∧ (97 : Byte) ≠ 98 ∧
    abc.code.read? 97 = some (Code.ofPath [false, false]) ∧ abc.code.read? 98 = some (Code.ofPath [false, true]) ∧
    (Code.ofPath [false, false]).len ≠ 0 ∧ (Code.ofPath [false, true]).len ≠ 0 :=
  ⟨abc_inv.table, rfl, by decide, by decide +kernel, by decide +kernel, by decide, by decide⟩

theorem witness_EncodeConcatenatesTheCodes : abcSyms.params.ok ∧ abcSyms.codeValid = true ∧
    abcSyms.symLen.toNat ≤ abcSyms.params.symCap ∧
    (∀ c ∈ abcSyms.codeInput abcSyms.symLen.toNat, c.len ≠ 0) ∧
    ((abcSyms.codeInput abcSyms.symLen.toNat).map (fun c => c.len.toNat)).sum ≤ abcSyms.params.bitCap := by
  decide +kernel

/-- Position 1 without a code, and position 1 without room. -/
theorem witness_EncodeFaultsAtTheFirstBadSymbol :
    let s : State := { abcSyms with sym := [(0, 99), (1, 122), (2, 98)] }
    let u : State := { abcSyms with params := { State.reset.params with bitCap := 2 } }
    (s.codeInput 3)[1]? = some Code.unset ∧ (∀ a ∈ (s.codeInput 3).take 1, a.len ≠ 0) ∧
    (((s.codeInput 3).take 1).map (fun a => a.len.toNat)).sum ≤ s.params.bitCap ∧ Code.unset.len = 0 ∧
    (u.codeInput 3)[1]? = some (Code.ofPath [false, false]) ∧ (∀ a ∈ (u.codeInput 3).take 1, a.len ≠ 0) ∧
    (((u.codeInput 3).take 1).map (fun a => a.len.toNat)).sum ≤ u.params.bitCap ∧
    (Code.ofPath [false, false]).len ≠ 0 ∧
    u.params.bitCap < (((u.codeInput 3).take 2).map (fun a => a.len.toNat)).sum := by decide +kernel

/-- "cab" is the bits 1 00 01; with room for two symbols only it does not fit. -/
theorem witness_DecodeInvertsTheCodes :
    let s : State := abcBits [true, false, false, false, true]
    let q : List Byte := [99, 97, 98]
    s.params.ok ∧ s.treeValid = true ∧ s.tree = some abcTree ∧ s.bitLen.toNat ≤ s.params.bitCap ∧
    (∀ c ∈ q, (abcTree.path? c).isSome = true) ∧
    s.bitInput s.bitLen.toNat = q.flatMap (fun c => (abcTree.path? c).getD []) ∧
    q.length ≤ s.params.symCap ∧
    { s with params := ⟨32, 2, 524288, 65536⟩ }.params.ok ∧
    { s with params := ⟨32, 2, 524288, 65536⟩ }.params.symCap < q.length := by decide +kernel

theorem witness_abcBits_treeInv (l : List Bool) : (abcBits l).TreeInv :=
  ⟨fun h => abc_inv.tree.valid h, fun h => absurd h (by show ¬ (true = false); decide)⟩

theorem witness_DecodeDetectsABrokenCode :
    let s : State := abcBits [true, false]
    s.params.ok ∧ s.treeValid = true ∧ s.tree = some abcTree ∧ s.bitLen.toNat ≤ s.params.bitCap ∧
    (∀ a ∈ [(99 : Byte)], (abcTree.path? a).isSome = true) ∧ abcTree.path? 98 = some ([false] ++ [true]) ∧
    s.bitInput s.bitLen.toNat = [(99 : Byte)].flatMap (fun a => (abcTree.path? a).getD []) ++ [false] := by
  decide +kernel

/-- "c" and five padding zeros end inside a code, behind two more symbols; "c" and two spell one more symbol, which does not
fit when there is room for one; a tree with a leaf left of the root. -/
theorem witness_PaddingIsDecodedAsData :
    let s : State := abcBits [true, false, false, false, false, false]
    let u : State := { abcBits [true, false, false] with params := ⟨32, 1, 524288, 65536⟩ }
    s.params.ok ∧ s.treeValid = true ∧ s.tree = some abcTree ∧ s.bitLen.toNat ≤ s.params.bitCap ∧
    (∀ a ∈ [(99 : Byte)], (abcTree.path? a).isSome = true) ∧
    s.bitInput s.bitLen.toNat = [(99 : Byte)].flatMap (fun a => (abcTree.path? a).getD []) ++ List.replicate 5 false ∧
    [(97 : Byte), 97].flatMap (fun a => (abcTree.path? a).getD []) ++ [false] = List.replicate 5 false ∧
    abcTree.path? 97 = some ([false] ++ [false]) ∧
    nextWith (exec .decode s) (fun t => t.errCode == 11 && t.errInfo == 3) = true ∧
    nextWith (exec .decode (abcBits [true, false, false])) (fun t => t.sym == [(0, 99), (1, 97)]) = true ∧
    u.params.ok ∧ nextWith (exec .decode u) (fun t => t.errCode == 10 && t.errInfo == 2) = true ∧
    (HTree.interior 9 (.leaf 121 2) (.leaf 120 7)).path? 121 = some [false] := by
  decide +kernel

theorem witness_AbsentInputAndLengthFaults : State.reset.codeValid = false ∧ State.reset.treeValid = false ∧
    { abc with symLen := 65537 }.params.symCap < { abc with symLen := 65537 }.symLen.toNat ∧
    { abc with bitLen := 524289 }.params.bitCap < { abc with bitLen := 524289 }.bitLen.toNat := by decide

/-- The three cases of PACK. -/
theorem witness_PackPutsEightBitsToAByte :
    State.reset.params.ok ∧
    { State.reset with bitLen := 524289 }.params.bitCap < { State.reset with bitLen := 524289 }.bitLen.toNat ∧
    (⟨32, 65536, 64, 2⟩ : Params).ok ∧ (18 + 7) / 8 > 2 ∧ 18 ≤ 64 ∧
    (abcBits [true]).bitLen.toNat ≤ (abcBits [true]).params.bitCap ∧
    ((abcBits [true]).bitLen.toNat + 7) / 8 ≤ (abcBits [true]).params.byteCap := by decide

/-- The three cases of UNPACK. -/
theorem witness_UnpackTakesTheBitsOfTheBytes :
    { State.reset with byteLen := 65537 }.params.byteCap < { State.reset with byteLen := 65537 }.byteLen.toNat ∧
    (⟨32, 65536, 16, 4⟩ : Params).ok ∧ 3 ≤ 4 ∧ 16 < 8 * 3 ∧
    { State.reset with byteLen := 1 }.byteLen.toNat ≤ State.reset.params.byteCap ∧
    8 * { State.reset with byteLen := 1 }.byteLen.toNat ≤ State.reset.params.bitCap := by decide

theorem witness_PackAndUnpackRoundTrip :
    let s : State := abcBits [true, false, true]
    let u : State := { State.reset with byte := [(0, 0xAA)], byteLen := 1 }
    s.params.ok ∧ s.bitLen.toNat ≤ s.params.bitCap ∧ (s.bitLen.toNat + 7) / 8 ≤ s.params.byteCap ∧
    8 * ((s.bitLen.toNat + 7) / 8) ≤ s.params.bitCap ∧
    (∀ i, i < s.bitLen.toNat → (s.bit.read? i).isSome = true) ∧
    u.byteLen.toNat ≤ u.params.byteCap ∧ 8 * u.byteLen.toNat ≤ u.params.bitCap ∧
    (∀ k, k < u.byteLen.toNat → (u.byte.read? k).isSome = true) := by decide

/-- `abcSyms` runs through FREQ_COUNT, BUILD, DERIVE and ENCODE without a fault. -/
theorem witness_CompressThenDecodeRoundTrip :
    abcSyms.err = false ∧ abcSyms.symLen.toNat ≤ abcSyms.params.symCap ∧
    (∀ i, i < abcSyms.symLen.toNat → (abcSyms.sym.read? i).isSome = true) ∧
    (0 < abcSyms.symLen.toNat ∧ 1 < abcSyms.symLen.toNat ∧ abcSyms.sym.read? 0 ≠ abcSyms.sym.read? 1) ∧
    (let s1 := after .freqCount abcSyms
     let s2 := after .build s1
     let s3 := after .derive s2
     let s4 := after .encode s3
     nextWith (exec .freqCount abcSyms) (fun _ => true) && nextWith (exec .build s1) (fun _ => true) &&
       nextWith (exec .derive s2) (fun _ => true) && nextWith (exec .encode s3) (fun _ => true) && !s4.err) = true := by
  decide +kernel

/-- What `abcSyms` packs, a block with the same counts and bytes unpacks without a fault. -/
theorem witness_AnotherBlockDecompresses :
    (let s1 := after .freqCount abcSyms
     let s4 := after .encode (after .derive (after .build s1))
     let s5 := after .pack s4
     let r : State := { State.reset with freq := s1.freq, byte := s5.byte, byteLen := s5.byteLen }
     let r1 := after .build r
     let r2 := after .unpack r1
     nextWith (exec .pack s4) (fun _ => true) && !s5.err && nextWith (exec .build r) (fun _ => true) &&
       nextWith (exec .unpack r1) (fun _ => true) && !r2.err && s5.byteLen == 1 && s4.bitLen == 5) = true := by
  decide +kernel

theorem witness_abcSyms_inv : abcSyms.Inv where
  seqIdle := rfl
  paramsOk := abc_inv.paramsOk
  mem := by decide +kernel
  width := abc_inv.width
  queue := abc_inv.queue
  status := abc_inv.status
  tree := ⟨fun h => abc_inv.tree.valid h, fun h => absurd h (by decide)⟩
  table := abc_inv.table

theorem witness_InputsReadWhatWasWritten : (1 : Nat) < 3 ∧ abcSyms.sym.read? 1 = some 97 ∧
    abcSyms.code.read? 97 = some (Code.ofPath [false, false]) ∧ (abcBits [true]).bit.read? 0 = some true ∧
    { State.reset with byte := [(0, 5)] }.byte.read? 0 = some (5 : Byte) := by decide +kernel

theorem witness_TreeAndTableHaveTheirOwnCommands :
    nextWith (step { abc with script := [cmd 0x31000000] }) (fun t => !t.treeValid && t.root == 511) = true ∧
    nextWith (step { abc with script := [cmd 0x40000000] }) (fun t => t.treeValid && t.node == abc.node) = true := by
  decide +kernel

/-- The invariant is met by states whose next event is a command, a plain access, or `rst`. -/
theorem witness_StepKeepsTheInvariant : { abcSyms with script := [cmd 0x40000000] }.Inv ∧
    nextWith (step { abcSyms with script := [cmd 0x40000000] }) (fun t => t.done) = true :=
  ⟨{ witness_abcSyms_inv with
      tree := ⟨fun h => witness_abcSyms_inv.tree.valid h, fun h => absurd h (by decide)⟩ }, by decide +kernel⟩

end Sys2Proof.Tests
end

section
/-! SUPPORT. Host reads (20_memory.md R61 to R64): the step that takes a read, and what the read answers. -/

namespace Sys2Proof.Machine

/-- R64: a read is refused only for a missing element, since no read is to a read-only location. -/
theorem refused_read_iff {p : Params} {r : Request} (hread : r.write = false) :
    r.refused p = true ↔ r.missing p := by
  simp [refused_iff, Request.toReadOnly, hread]

/-- The step of a ready port whose next request reads an existing element (R62, R63). -/
theorem step_read {s : State} {r : Request} {rest : List HostEvent} (h : s.nextRequest r rest)
    (hread : r.write = false) (hexists : ¬ r.missing s.params) :
    step s = .next (({ s with script := rest } : State).hostRead r.space r.index) := by
  have hpass : ¬ r.refused s.params = true := mt (refused_read_iff hread).1 hexists
  rw [step_request h]
  simp [takeRequest, Request.isCommand, hpass, hread]

/-- A specified element is answered and nothing but the response is added (R63). -/
theorem State.hostRead_of_some {s : State} {sp : Space} {i v : Nat} (h : s.readElement sp i = some v) :
    s.hostRead sp i = s.respond ⟨false, v⟩ := by
  rw [State.hostRead, h]

/-- An unspecified element is answered by a free value of its width (R18, R63). -/
theorem State.hostRead_of_none {s : State} {sp : Space} {i : Nat} (h : s.readElement sp i = none) :
    s.hostRead sp i = s.respondFree (sp.width s.params i) := by
  rw [State.hostRead, h]

/-- What a read finds does not depend on the host's coming events: `script` is the model's own field (log 1). -/
theorem State.readElement_script (s : State) (rest : List HostEvent) (sp : Space) (i : Nat) :
    ({ s with script := rest } : State).readElement sp i = s.readElement sp i := by
  cases sp <;> rfl

/-- Settles O12: the step is the host read, and the read answers the element if there is one and the next free value,
cut to the element's width, if there is none. -/
theorem readsAnswerTheElement : Obligations.ReadsAnswerTheElement := by
  intro s sp i d rest h hexists
  rw [step_read h rfl hexists]
  constructor
  · intro v hv
    rw [State.hostRead_of_some ((s.readElement_script rest sp i).trans hv)]
    rfl
  · intro hnone
    rw [State.hostRead_of_none ((s.readElement_script rest sp i).trans hnone)]
    exact ⟨Config.draw s.draws % 2 ^ sp.width s.params i, Nat.mod_lt _ (Nat.two_pow_pos _), rfl⟩

end Sys2Proof.Machine
end

section
/-! SUPPORT. What the host's next event can do to the state (20_memory.md R61 to R65, 70_reset_and_hazards.md R250), said
once: `rst`, an offered command word, or an access that touches only what the host may write. -/

namespace Sys2Proof.Machine

/-- `t` is `s` but for what an access of the host can change: the locations the host may write (R60, R64 (b)), `DONE`
(R24), and the model's record of the port (log 1, log 4). -/
abbrev State.AccessFrame (s t : State) : Prop :=
  t = { s with
    done := t.done, ie := t.ie, symLen := t.symLen, bitLen := t.bitLen, byteLen := t.byteLen, pqKey := t.pqKey
    freq := t.freq, sym := t.sym, bit := t.bit, byte := t.byte
    script := t.script, responses := t.responses, draws := t.draws }

section
variable {s t : State} (h : s.AccessFrame t)
include h

theorem State.AccessFrame.err : t.err = s.err := (congrArg State.err h :)
theorem State.AccessFrame.errCode : t.errCode = s.errCode := (congrArg State.errCode h :)
theorem State.AccessFrame.errInfo : t.errInfo = s.errInfo := (congrArg State.errInfo h :)
theorem State.AccessFrame.treeValid : t.treeValid = s.treeValid := (congrArg State.treeValid h :)
theorem State.AccessFrame.codeValid : t.codeValid = s.codeValid := (congrArg State.codeValid h :)
theorem State.AccessFrame.root : t.root = s.root := (congrArg State.root h :)
theorem State.AccessFrame.node : t.node = s.node := (congrArg State.node h :)
theorem State.AccessFrame.code : t.code = s.code := (congrArg State.code h :)

end

/-- R24: a write to `STATUS` clears `DONE` when bit 0 is 1 and does nothing else. -/
theorem State.writeCsr_status (s : State) (v : Nat) :
    s.writeCsr .status v = { s with done := s.done && !v.testBit 0 } := by
  cases hv : v.testBit 0 with
  | false => simp [State.writeCsr, hv]
  | true => simp [State.writeCsr, hv]

/-- R65: the store of a host write stays within the locations the host may write and `DONE`. -/
theorem State.writeElement_accessFrame (s : State) (sp : Space) (i v : Nat) :
    s.AccessFrame (s.writeElement sp i v) := by
  cases sp with
  | csr =>
    simp only [State.writeElement]
    cases Csr.ofIndex i with
    | none => rfl
    | some c =>
      cases c
      case status =>
        change s.AccessFrame (s.writeCsr .status v)
        rw [s.writeCsr_status]
      all_goals rfl
  | freq => rfl
  | node => rfl
  | code => rfl
  | sym => rfl
  | bit => rfl
  | byte => rfl

/-- R63: a read changes nothing but the model's record of the port and its count of free values (log 1, log 4). -/
theorem State.hostRead_eq (s : State) (sp : Space) (i : Nat) :
    s.hostRead sp i = { s with
      script := (s.hostRead sp i).script
      responses := (s.hostRead sp i).responses, draws := (s.hostRead sp i).draws } := by
  cases hv : s.readElement sp i with
  | none => rw [State.hostRead_of_none hv]; rfl
  | some v => rw [State.hostRead_of_some hv]; rfl

/-- The request that offers a command is a write to index 0 of `CSR` (R23). -/
theorem Request.eq_of_isCommand {r : Request} (h : r.isCommand = true) : r = ⟨true, .csr, 0, r.wdata⟩ := by
  obtain ⟨write, space, index, wdata⟩ := r
  simpa [Request.isCommand, and_assoc] using h

/-- R61 to R65: a taken request offers a word to the core or is an access. -/
theorem takeRequest_offer_or_access (r : Request) (s : State) :
    (r = ⟨true, .csr, 0, r.wdata⟩ ∧
      takeRequest r s = acceptWord (BitVec.ofNat 32 r.wdata) (s.respondFree 32)) ∨
    ∃ t, takeRequest r s = .next t ∧ s.AccessFrame t := by
  rcases takeRequest_cases r s with ⟨-, e⟩ | ⟨-, ⟨hc, e⟩ | ⟨-, -, e⟩ | ⟨-, e⟩⟩
  · exact .inr ⟨_, e, rfl⟩
  · exact .inl ⟨Request.eq_of_isCommand hc, e⟩
  · refine .inr ⟨_, e, ?_⟩
    rw [State.hostWrite]
    exact congrArg (State.respondFree · _) (s.writeElement_accessFrame r.space r.index r.wdata)
  · refine .inr ⟨_, e, ?_⟩
    rw [s.hostRead_eq]

/-- R62, R235, R250: a step gives the reset state, holds the state, or takes the next request. -/
theorem step_cases (s : State) :
    (∃ rest, s.script = .rst :: rest ∧ step s = .next ({ s with script := rest } : State).toReset) ∨
    step s = .next s ∨
    ∃ r rest, s.nextRequest r rest ∧ step s = takeRequest r { s with script := rest } := by
  match hs : s.script with
  | [] => exact .inr (.inl (by simp [step, hs]))
  | .rst :: rest => exact .inl ⟨rest, rfl, by simp [step, hs]⟩
  | .request r :: rest =>
    by_cases hq : s.seq = .busy
    · exact .inr (.inl (by simp [step, hs, hq]))
    · have hidle : s.seq = .idle := by
        cases h : s.seq with
        | idle => rfl
        | busy => exact absurd h hq
      exact .inr (.inr ⟨r, rest, ⟨hidle, hs⟩, step_request ⟨hidle, hs⟩⟩)

/-- A step asserts `rst`, offers a word to the core, or changes only what an access can change. -/
theorem step_reset_offer_or_access (s : State) :
    (∃ rest, s.script = .rst :: rest ∧ step s = .next ({ s with script := rest } : State).toReset) ∨
    (∃ v rest, s.script = .request ⟨true, .csr, 0, v⟩ :: rest ∧
      step s = acceptWord (BitVec.ofNat 32 v) (({ s with script := rest } : State).respondFree 32)) ∨
    ∃ t, step s = .next t ∧ s.AccessFrame t := by
  rcases step_cases s with hrst | hold | ⟨r, rest, ⟨-, hs⟩, e⟩
  · exact .inl hrst
  · exact .inr (.inr ⟨s, hold, rfl⟩)
  · rcases takeRequest_offer_or_access r { s with script := rest } with ⟨hr, e'⟩ | ⟨t, e', ht⟩
    · exact .inr (.inl ⟨r.wdata, rest, hr ▸ hs, e.trans e'⟩)
    · exact .inr (.inr ⟨t, e.trans e', ht⟩)

/-- The step of a ready port whose next request is a write that passes the checks and offers no command (R63, R65). -/
theorem step_write {s : State} {r : Request} {rest : List HostEvent} (h : s.nextRequest r rest)
    (hwrite : r.write = true) (hpass : ¬ (r.missing s.params ∨ r.toReadOnly)) (haccess : r.isCommand = false) :
    step s = .next (({ s with script := rest } : State).hostWrite r.space r.index r.wdata) := by
  have hpass' : ¬ r.refused s.params = true := mt (refused_iff s.params r).1 hpass
  rw [step_request h]
  simp [takeRequest, hpass', haccess, hwrite]

/-- R101, R225: a word that is not skipped and decodes runs its command. -/
theorem acceptWord_of_decode {s : State} {w : Word} {i : Instr} (h : s.err = false ∨ w = 0x01000000)
    (hd : decode w = .ok i) : acceptWord w s = exec i s.accept := by
  rcases acceptWord_cases w s with ⟨herr, hw, -⟩ | ⟨-, ⟨e, he⟩, -⟩ | ⟨-, j, hj, e⟩
  · exact absurd (h.resolve_left (by simp [herr])) hw
  · simp [hd] at he
  · rw [e, Except.ok.inj (hj.symm.trans hd)]

/-- R225: while `ERR = 1` a word that is not RESET's is skipped. -/
theorem acceptWord_of_err {s : State} {w : Word} (herr : s.err = true) (hw : w ≠ 0x01000000) :
    acceptWord w s = .next s := by
  rcases acceptWord_cases w s with ⟨-, -, e⟩ | ⟨h, -⟩ | ⟨h, -⟩
  · exact e
  · exact absurd (h.resolve_left (by simp [herr])) hw
  · exact absurd (h.resolve_left (by simp [herr])) hw

/-- Settles O6: the taken write to `CMD` is accepted, and `started` is the state it is accepted in. -/
theorem stepRunsTheOfferedCommand : Obligations.StepRunsTheOfferedCommand := by
  intro s w rest i h herr hd
  exact (step_offer h).trans (acceptWord_of_decode herr hd)

/-- Settles O20: an access keeps the three fault registers, and of the offered words only RESET is not skipped. -/
theorem faultIsStickyUntilReset : Obligations.FaultIsStickyUntilReset := by
  intro s t herr ht
  rcases step_reset_offer_or_access s with ⟨rest, hs, -⟩ | ⟨v, rest, hs, e⟩ | ⟨u, e, hu⟩
  · exact .inr (.inl ⟨rest, hs⟩)
  · by_cases hw : BitVec.ofNat 32 v = (0x01000000 : Word)
    · exact .inr (.inr ⟨v, rest, hs, hw⟩)
    · cases (e.trans (acceptWord_of_err herr hw)).symm.trans ht
      exact .inl ⟨herr, rfl, rfl⟩
  · cases e.symm.trans ht
    exact .inl ⟨hu.err.trans herr, hu.errCode, hu.errInfo⟩

end Sys2Proof.Machine
end

section
/-! SUPPORT. The invariant of every state between two steps (10_state.md R24 to R41, 41_priority_queue.md R120): the reset
state meets it, and each step answers a next state that meets it. -/

namespace Sys2Proof.Machine

/-- R64 (a): a request that misses no element names one of its space. -/
theorem Request.index_lt_count {p : Params} {r : Request} (h : ¬ r.missing p) : r.index < r.space.count p := by
  obtain ⟨write, space, index, wdata⟩ := r
  cases space
  case csr => exact Nat.lt_succ_of_le (Nat.le_of_not_lt h)
  all_goals exact Nat.lt_of_not_le h

/-- Only `SEQ` and `DONE` change when a command is accepted (R101), so a command starts from a running state. -/
theorem State.Inv.accept {s : State} (h : s.Inv) (herr : s.err = false) : s.accept.Running :=
  h.running herr rfl

/-- R101, R225: an offered word is skipped, illegal, or a command, and each leaves the invariant. -/
theorem acceptWord_inv {s : State} (h : s.Inv) (w : Word) : ∃ t, acceptWord w s = .next t ∧ t.Inv := by
  cases herr : s.err with
  | false =>
    rcases acceptWord_cases w s with ⟨-, -, e⟩ | ⟨-, -, e⟩ | ⟨-, i, -, e⟩
    · exact ⟨s, e, h⟩
    · exact ⟨_, e, (h.accept herr).raise _ _⟩
    · exact e ▸ exec_running (h.accept herr) i
  | true =>
    by_cases hw : w = 0x01000000
    · have hreset : decode w = .ok .reset := hw ▸ by decide
      exact ⟨_, acceptWord_of_decode (.inr hw) hreset, State.Running.toReset h.paramsOk⟩
    · exact ⟨s, acceptWord_of_err herr hw, h⟩

/-- R61 to R65: a taken request leaves the invariant. -/
theorem takeRequest_inv {s : State} (h : s.Inv) (r : Request) : ∃ t, takeRequest r s = .next t ∧ t.Inv := by
  rcases takeRequest_cases r s with ⟨-, e⟩ | ⟨hpass, ⟨-, e⟩ | ⟨-, -, e⟩ | ⟨-, e⟩⟩
  · exact ⟨_, e, h.record rfl⟩
  · exact e ▸ acceptWord_inv (h.record rfl) _
  · have hindex : r.index < r.space.count s.params := Request.index_lt_count fun hmissing => hpass (.inl hmissing)
    exact ⟨_, e, (h.writeElement r.space r.index r.wdata hindex).record rfl⟩
  · exact ⟨_, e, h.record (s.hostRead_eq r.space r.index)⟩

/-- The step lemma of the invariant: there is a next state and it meets the invariant again. -/
theorem step_inv {s : State} (h : s.Inv) : ∃ t, step s = .next t ∧ t.Inv := by
  rcases step_cases s with ⟨rest, -, e⟩ | e | ⟨r, rest, -, e⟩
  · exact ⟨_, e, State.Running.toReset h.paramsOk⟩
  · exact ⟨s, e, h⟩
  · exact e ▸ takeRequest_inv (h.record rfl) r

/-- Settles O54: the next state of `step_inv` is the only one. -/
theorem stepKeepsTheInvariant : Obligations.StepKeepsTheInvariant := by
  intro s t h ht
  obtain ⟨u, hu, hinv⟩ := step_inv h
  cases hu.symm.trans ht
  exact hinv

/-- Settles O55: `step_inv` without what it says of the next state. -/
theorem stepNeverStops : Obligations.StepNeverStops := by
  intro s h
  obtain ⟨t, ht, -⟩ := step_inv h
  exact ⟨t, ht⟩

/-- Settles O53: the reset state is the reset of itself, and its parameters are the defaults of R7. -/
theorem resetMeetsTheInvariant : Obligations.ResetMeetsTheInvariant :=
  State.Running.toReset (s := State.reset) (by decide)

end Sys2Proof.Machine
end

section
/-! SUPPORT. The word of a decoded command (30_encoding.md R94, R95). -/

namespace Sys2Proof

/-- R94: a row's command is encoded as the row's match, plus the operand in format I9. -/
theorem encode_of_row {r : Row} (hr : r ∈ rows) (n : Nat) :
    (r.mask = maskZ → encode (r.instr n) = r.matchWord) ∧
      (r.mask = maskI9 → encode (r.instr n) = r.matchWord + BitVec.ofNat 32 n) := by
  have hne : maskZ ≠ maskI9 := by decide
  simp only [rows, List.mem_cons, List.not_mem_nil, or_false] at hr
  rcases hr with rfl | rfl | rfl | rfl | rfl | rfl | rfl | rfl | rfl | rfl | rfl | rfl | rfl | rfl <;>
    simp [encode, hne, hne.symm]

/-- R95: a word that decodes is the word of its command. -/
theorem encode_of_decode {w : Word} {i : Instr} (h : decode w = .ok i) : encode i = w := by
  rcases decode_cases w with ⟨r, hr, hit, e⟩ | ⟨-, e⟩
  · obtain rfl : i = r.instr (w.toNat % 512) := Except.ok.inj (h.symm.trans e)
    obtain ⟨encodeZ, encodeI9⟩ := encode_of_row hr (w.toNat % 512)
    rcases (rows_hit hr w).1 hit with ⟨hm, hw⟩ | ⟨hm, hw⟩
    · rw [encodeZ hm, BitVec.eq_of_toNat_eq hw]
    · rw [encodeI9 hm]
      apply BitVec.eq_of_toNat_eq
      have hlt := w.isLt
      rw [BitVec.toNat_add, BitVec.toNat_ofNat, ← hw]
      omega
  · exact absurd (h.symm.trans e) (by simp)

end Sys2Proof
end

section
/-! SUPPORT. Which commands write the tree and which the code table (10_state.md R39, R41). -/

namespace Sys2Proof.Machine

/-- The tree's registers and its store are those of `s`. -/
abbrev State.SameTree (s t : State) : Prop := t.node = s.node ∧ t.root = s.root ∧ t.treeValid = s.treeValid

/-- The code table and its flag are those of `s`. -/
abbrev State.SameTable (s t : State) : Prop := t.code = s.code ∧ t.codeValid = s.codeValid

/-- DECODE ends with its symbols stored, or with `SYM` dropped and a fault (R180, R223). -/
theorem execDecode_next {s t : State} (h : execDecode s = .next t) :
    (∃ (syms : List Byte) (n : Nat), t = ({ s with
      sym := s.sym.writePrefix syms, symLen := BitVec.ofNat 32 syms.length }.useDraws n).complete) ∨
    ∃ n c info, t = (s.dropSyms.useDraws n).raise c info := by
  simp only [execDecode] at h
  split at h
  · split at h
    · split at h
      · cases h
      · split at h
        · split at h <;> cases h
          · exact .inl ⟨_, _, rfl⟩
          · exact .inr ⟨_, _, _, rfl⟩
        · cases h
          exact .inr ⟨_, _, _, rfl⟩
    · cases h
      exact .inr ⟨0, _, _, rfl⟩
  · cases h
    exact .inr ⟨0, _, _, rfl⟩

/-- DERIVE writes `CODE` and `CODE_VALID` only (R160, R223). -/
theorem execDerive_sameTree {s t : State} (h : execDerive s = .next t) : s.SameTree t := by
  simp only [execDerive] at h
  split at h
  · split at h <;> cases h
    exact ⟨rfl, rfl, rfl⟩
  · cases h
    exact ⟨rfl, rfl, rfl⟩

/-- BUILD does not write the code table (R140, R223). -/
theorem execBuild_sameTable {s t : State} (h : execBuild s = .next t) : s.SameTable t := by
  simp only [execBuild] at h
  split at h <;> cases h <;> exact ⟨rfl, rfl⟩

/-- R39, R41, R94: the commands that write neither the tree nor the code table. -/
theorem exec_sameTree_sameTable {i : Instr} {s t : State} (h : exec i s = .next t)
    (hi : i ∉ [.build, .treeRelease, .derive, .reset]) : s.SameTree t ∧ s.SameTable t := by
  cases i
  case build | treeRelease | derive | reset => simp at hi
  case nop | freqClear => cases h; exact ⟨⟨rfl, rfl, rfl⟩, rfl, rfl⟩
  case freqCount | pqInit | pqAdd | pack | unpack =>
    simp only [exec, execFreqCount, execPqInit, execPqAdd, execPack, execUnpack] at h
    split_ifs at h <;> cases h <;> exact ⟨⟨rfl, rfl, rfl⟩, rfl, rfl⟩
  case pqRemoveMin =>
    simp only [exec, execPqRemoveMin] at h
    split at h <;> cases h <;> exact ⟨⟨rfl, rfl, rfl⟩, rfl, rfl⟩
  case encode =>
    rcases execEncode_cases s with ⟨-, e⟩ | ⟨-, -, e⟩ | ⟨-, -, ⟨_, _, -, -, e⟩ | ⟨-, -, e⟩⟩ <;>
      cases e.symm.trans h <;> exact ⟨⟨rfl, rfl, rfl⟩, rfl, rfl⟩
  case decode =>
    rcases execDecode_next h with ⟨_, _, rfl⟩ | ⟨_, _, _, rfl⟩ <;> exact ⟨⟨rfl, rfl, rfl⟩, rfl, rfl⟩

/-- R39, R94: of the commands, BUILD, TREE_RELEASE and RESET alone write the tree. -/
theorem exec_sameTree {i : Instr} {s t : State} (h : exec i s = .next t) :
    s.SameTree t ∨ i ∈ [.build, .treeRelease, .reset] := by
  by_cases hi : i ∈ [.build, .treeRelease, .derive, .reset]
  · simp only [List.mem_cons, List.not_mem_nil, or_false] at hi
    rcases hi with rfl | rfl | rfl | rfl
    · exact .inr (by decide)
    · exact .inr (by decide)
    · exact .inl (execDerive_sameTree h)
    · exact .inr (by decide)
  · exact .inl (exec_sameTree_sameTable h hi).1

/-- R41, R94: of the commands, DERIVE and RESET alone write the code table. -/
theorem exec_sameTable {i : Instr} {s t : State} (h : exec i s = .next t) :
    s.SameTable t ∨ i ∈ [.derive, .reset] := by
  by_cases hi : i ∈ [.build, .treeRelease, .derive, .reset]
  · simp only [List.mem_cons, List.not_mem_nil, or_false] at hi
    rcases hi with rfl | rfl | rfl | rfl
    · exact .inl (execBuild_sameTable h)
    · cases h
      exact .inl ⟨rfl, rfl⟩
    · exact .inr (by decide)
    · exact .inr (by decide)
  · exact .inl (exec_sameTree_sameTable h hi).2

/-- An offered word changes the tree or the table only as the command it is the word of (R94, R101). -/
theorem acceptWord_sameTree_sameTable {w : Word} {s t : State} (h : acceptWord w s = .next t) :
    (s.SameTree t ∨ w ∈ [(0x30000000 : Word), 0x31000000, 0x01000000]) ∧
      (s.SameTable t ∨ w ∈ [(0x32000000 : Word), 0x01000000]) := by
  rcases acceptWord_cases w s with ⟨-, -, e⟩ | ⟨-, -, e⟩ | ⟨-, i, hd, e⟩
  · cases e.symm.trans h
    exact ⟨.inl ⟨rfl, rfl, rfl⟩, .inl ⟨rfl, rfl⟩⟩
  · cases e.symm.trans h
    exact ⟨.inl ⟨rfl, rfl, rfl⟩, .inl ⟨rfl, rfl⟩⟩
  · have hexec : exec i s.accept = .next t := e.symm.trans h
    rw [← encode_of_decode hd]
    exact ⟨(exec_sameTree hexec).imp id fun hi => List.mem_map_of_mem (f := encode) hi,
      (exec_sameTable hexec).imp id fun hi => List.mem_map_of_mem (f := encode) hi⟩

/-- Settles O52: an access keeps the tree and the table, and an offered word writes them only as BUILD, TREE_RELEASE,
DERIVE or RESET. -/
theorem treeAndTableHaveTheirOwnCommands : Obligations.TreeAndTableHaveTheirOwnCommands := by
  intro s t ht
  rcases step_reset_offer_or_access s with ⟨rest, hs, -⟩ | ⟨v, rest, hs, e⟩ | ⟨u, e, hu⟩
  · exact ⟨.inr (.inl ⟨rest, hs⟩), .inr (.inl ⟨rest, hs⟩)⟩
  · obtain ⟨tree, table⟩ := acceptWord_sameTree_sameTable (e.symm.trans ht)
    exact ⟨tree.imp id fun hw => .inr ⟨v, rest, hs, hw⟩, table.imp id fun hw => .inr ⟨v, rest, hs, hw⟩⟩
  · cases e.symm.trans ht
    exact ⟨.inl ⟨hu.node, hu.root, hu.treeValid⟩, .inl ⟨hu.code, hu.codeValid⟩⟩

end Sys2Proof.Machine
end

section
/-! SUPPORT. The control and status registers as the host reads and writes them (10_state.md R22 to R33, R49). -/

namespace Sys2Proof.Machine

/-- Six flags in the bits 0 to 5 of a number, as `STATUS` holds them (R24). -/
theorem testBit_sixFlags : ∀ a b c d e f : Bool,
    let v := a.toNat + 2 * b.toNat + 4 * c.toNat + 8 * d.toNat + 16 * e.toNat + 32 * f.toNat
    v < 64 ∧ v.testBit 0 = a ∧ v.testBit 1 = b ∧ v.testBit 2 = c ∧ v.testBit 3 = d ∧ v.testBit 4 = e ∧
      v.testBit 5 = f := by
  decide

/-- R24: the fields of `STATUS`, with zeros above them. -/
theorem State.testBit_status (s : State) :
    s.status.testBit 0 = s.done ∧ s.status.testBit 1 = s.err ∧ s.status.testBit 2 = s.treeValid ∧
      s.status.testBit 3 = s.codeValid ∧ s.status.testBit 4 = s.pqEmpty ∧ s.status.testBit 5 = s.pqFull ∧
      ∀ j, 6 ≤ j → s.status.testBit j = false := by
  obtain ⟨hlt, h0, h1, h2, h3, h4, h5⟩ :=
    testBit_sixFlags s.done s.err s.treeValid s.codeValid s.pqEmpty s.pqFull
  refine ⟨h0, h1, h2, h3, h4, h5, fun j hj => Nat.testBit_lt_two_pow ?_⟩
  calc s.status < 2 ^ 6 := hlt
    _ ≤ 2 ^ j := Nat.pow_le_pow_right (by decide) hj

/-- Settles O14: `STATUS` is read field by field, and the write is an access of the port. -/
theorem statusRegister : Obligations.StatusRegister := by
  constructor
  · intro s
    obtain ⟨h0, h1, h2, h3, h4, h5, hhigh⟩ := s.testBit_status
    refine ⟨s.status, rfl, h0, h1, h2, h3, h4.trans ?_, h5.trans ?_, hhigh⟩
    · rw [State.pqEmpty, State.pqCount, beq_eq_decide]
    · rw [State.pqFull, State.pqCount, beq_eq_decide]
  · intro s v rest h
    have hpass : ¬ (Request.missing s.params ⟨true, .csr, 1, v⟩ ∨ Request.toReadOnly ⟨true, .csr, 1, v⟩) := by
      simp [Request.missing, Request.toReadOnly]
    refine ⟨Config.draw s.draws % 2 ^ 32, (step_write h rfl hpass rfl).trans ?_⟩
    change Host.Outcome.next ((({ s with script := rest } : State).writeCsr .status v).respondFree 32) = _
    rw [State.writeCsr_status]
    rfl

/-- Settles O15: the write to `CTRL` is an access of the port, and `IE` is read as a number. -/
theorem controlRegisterAndInterruptLine : Obligations.ControlRegisterAndInterruptLine := by
  constructor
  · intro s v rest h
    have hpass : ¬ (Request.missing s.params ⟨true, .csr, 2, v⟩ ∨ Request.toReadOnly ⟨true, .csr, 2, v⟩) := by
      simp [Request.missing, Request.toReadOnly]
    refine ⟨Config.draw s.draws % 2 ^ 32, _, step_write h rfl hpass rfl, ?_, rfl⟩
    change some (v.testBit 0).toNat = some (v % 2)
    rw [Nat.toNat_testBit, pow_zero, Nat.div_one]
  · intro s
    simp [State.irq]

/-- Settles O13: each index selects its register, whose read value is its field. -/
theorem csrReadValues : Obligations.CsrReadValues := by
  intro s
  have hctrl : s.readElement .csr 2 = some (if s.ie then 1 else 0) := by
    cases h : s.ie <;> simp [State.readElement, Csr.ofIndex, State.readCsr, h]
  exact ⟨rfl, hctrl, rfl, rfl, rfl, rfl, rfl, rfl, rfl, rfl, rfl, rfl, rfl, rfl, rfl, rfl, rfl⟩

/-- Settles O21: the reset state is a constant, its counts are 0 and its five other memories list nothing. -/
theorem resetStateValues : Obligations.ResetStateValues := by
  have registers : State.reset.readElement .csr 1 = some 0x10 ∧ State.reset.irq = false ∧
      State.reset.busy = false ∧ State.reset.reqReady = true := by decide
  obtain ⟨hstatus, hirq, hbusy, hready⟩ := registers
  exact ⟨rfl, rfl, rfl, rfl, rfl, rfl, hstatus, rfl, rfl, rfl, rfl, rfl, rfl, rfl, rfl, rfl, rfl, rfl, rfl,
    fun _ => rfl, rfl, hirq, hbusy, hready, fun _ => ⟨rfl, rfl, rfl, rfl, rfl⟩⟩

end Sys2Proof.Machine
end

section
/-! SUPPORT. The numbers of `NODE` and `CODE` elements, and what a command reads of a written element (10_state.md R37,
R40, R43 to R45, R254). -/

namespace Sys2Proof.Machine

/-- R37: the fields of a `NODE` element, from the bottom up. -/
theorem Node.toNat_fields (n : Node) :
    n.toNat % 2 ^ 9 = n.right.toNat ∧ n.toNat / 2 ^ 9 % 2 ^ 9 = n.left.toNat ∧
      n.toNat / 2 ^ 18 % 2 ^ 8 = n.sym.toNat ∧ n.toNat / 2 ^ 26 % 2 = n.kind.bit ∧ n.toNat / 2 ^ 27 = n.freq := by
  have hright := n.right.isLt
  have hleft := n.left.isLt
  have hsym := n.sym.isLt
  have hkind : n.kind.bit < 2 := by cases n.kind <;> decide
  simp only [Node.toNat]
  omega

/-- R37: an element whose frequency fits `NFW` bits fits `NFW + 27`. -/
theorem Node.toNat_lt {n : Node} {nfw : Nat} (h : n.freq < 2 ^ nfw) : n.toNat < 2 ^ (nfw + 27) := by
  obtain ⟨-, -, -, -, hfreq⟩ := n.toNat_fields
  rw [pow_add, ← Nat.div_lt_iff_lt_mul (by positivity), hfreq]
  exact h

/-- R40: `LEN` lies above the 255 bits of `BITS`. -/
theorem Code.toNat_eq (c : Code) : c.toNat = 2 ^ 255 * c.len.toNat + c.bits.toNat := by
  rw [Code.toNat, mul_comm]

theorem Code.toNat_div (c : Code) : c.toNat / 2 ^ 255 = c.len.toNat := by
  rw [c.toNat_eq, Nat.mul_add_div (by positivity), Nat.div_eq_of_lt c.bits.isLt, add_zero]

theorem Code.testBit_toNat (c : Code) {j : Nat} (hj : j < 255) : c.toNat.testBit j = c.bits.getLsbD j := by
  rw [c.toNat_eq, Nat.testBit_two_pow_mul_add _ c.bits.isLt, if_pos hj]
  rfl

/-- R40: an element of `CODE` fits its 8 bits of `LEN` and 255 bits of `BITS`. -/
theorem Code.toNat_lt (c : Code) : c.toNat < 2 ^ 263 := by
  rw [show 263 = 8 + 255 from rfl, pow_add, ← Nat.div_lt_iff_lt_mul (by positivity), c.toNat_div]
  exact c.len.isLt

/-- The step that reads a specified element: its number is the answer (R63). -/
theorem step_read_some {s : State} {sp : Space} {i d v : Nat} {rest : List HostEvent}
    (h : s.nextRequest ⟨false, sp, i, d⟩ rest) (hexists : ¬ Request.missing s.params ⟨false, sp, i, d⟩)
    (hv : s.readElement sp i = some v) :
    step s = .next { s with script := rest, responses := s.responses ++ [⟨false, v⟩] } :=
  (readsAnswerTheElement s sp i d rest h hexists).1 v hv

/-- Settles O56: the answer is the element's number, whose fields are those of the layouts. -/
theorem nodeAndCodeElementsAsRead : Obligations.NodeAndCodeElementsAsRead := by
  constructor
  · intro s i d rest n h hi hn
    obtain ⟨hright, hleft, hsym, hkind, hfreq⟩ := n.toNat_fields
    have hbit : n.kind.bit = if n.kind = .interior then 1 else 0 := by cases n.kind <;> rfl
    exact ⟨n.toNat, step_read_some h (Nat.not_le.2 hi) (by simp [State.readElement, hn]), hright, hleft, hsym,
      hkind.trans hbit, hfreq, Node.toNat_lt⟩
  · intro s i d rest c h hi hc
    exact ⟨c.toNat, step_read_some h (Nat.not_le.2 hi) (by simp [State.readElement, hc]), c.toNat_div,
      fun j hj => c.testBit_toNat (by omega), c.toNat_lt⟩

/-- Settles O51: position `i` of an input is the element `i` of its space, and a written element is no free value. -/
theorem inputsReadWhatWasWritten : Obligations.InputsReadWhatWasWritten := by
  intro s n i hi
  refine ⟨fun y hy => ⟨?_, fun e he => ?_⟩, fun b hb => ?_, fun y hy => ?_⟩
  · simp [State.symInput, State.symAt, hi, hy]
  · simp [State.codeInput, State.codeAt, State.symAt, hi, hy, he]
  · simp [State.bitInput, State.bitAt, hi, hb]
  · simp [State.byteInput, State.byteAt, hi, hy]

end Sys2Proof.Machine
end

section
/-! SUPPORT. BUILD's tree, DERIVE's table and its codes (10_state.md R39 to R41, R147, R160, R162). -/

namespace Sys2Proof.Machine

/-- R140: with at least two positive counts BUILD completes with what the merge loop ends with. -/
theorem execBuild_of_two {s : State} (h : 2 ≤ s.positiveCounts.length) :
    execBuild s = .next ({ s with
      node := s.merged.node, pq := s.merged.pq, pqCap := BitVec.ofNat 9 Config.pqDepth
      root := s.merged.root, treeValid := true } : State).complete := by
  rw [execBuild, if_pos (s.positives_eq ▸ h)]

/-- Settles O33: the merge loop's tree has fewer than 256 levels, so the store reads as that tree. -/
theorem buildTreeIsWellFormed : Obligations.BuildTreeIsWellFormed := by
  intro s hfits htwo
  obtain ⟨tr, slots, hreads, hwf, hinterior, hleaves, hnodup, hhome, hfreq, -⟩ := s.merged_tree hfits htwo
  have hdepth : tr.depth < treeBudget :=
    lt_of_lt_of_le tr.depth_lt_leaves (hleaves.length_eq ▸ s.length_positiveCounts)
  obtain ⟨htree, rfl⟩ := hreads.treeAt treeBudget hdepth
  exact ⟨_, tr, execBuild_of_two htwo, htree, hwf, hinterior, hleaves, hnodup, hhome, hfreq⟩

/-- Settles O37: DERIVE's table is `codeOf` the tree, whose paths have at least one turn and at most its depth. -/
theorem deriveRecordsThePaths : Obligations.DeriveRecordsThePaths := by
  intro s h
  rcases execDerive_cases s h with ⟨hinvalid, e⟩ | ⟨hvalid, tr, code, htree, hinterior, hdepth, -, hcode, -, e⟩
  · exact ⟨fun hv => absurd (hinvalid.symm.trans hv) (by decide), fun _ => e⟩
  · refine ⟨fun _ => ⟨_, tr, htree, e, fun c p hp => ?_, fun c hnone => ?_, rfl⟩,
      fun hv => absurd (hvalid.symm.trans hv) (by decide)⟩
    · have hlen : p.length ≤ 255 := (tr.path?_length c p hp).trans hdepth
      have hpos : 1 ≤ p.length := List.length_pos_iff.2 (HTree.path?_ne_nil hinterior hp)
      refine ⟨Code.ofPath p, ?_, hpos, hlen, Code.ofPath_len p hlen, left255_bit p hlen⟩
      simpa [codeOf, hp] using hcode c
    · simpa [codeOf, hnone, Code.unset] using hcode c

/-- R40, R160: a code of at least one bit in a tree's table is the path to its symbol's leaf. -/
theorem path?_of_codeOf {t : HTree} (hdepth : t.depth ≤ 255) {c : Byte} (hset : (codeOf t c).len ≠ 0) :
    t.path? c = some (codeOf t c).string := by
  cases hp : t.path? c with
  | none => simp [codeOf, hp, Code.unset] at hset
  | some p => simp [codeOf, hp, Code.ofPath_string p ((t.path?_length c p hp).trans hdepth)]

/-- Settles O38: the codes are paths of one tree, and no path to a leaf goes on to another leaf. -/
theorem codesArePrefixFree : Obligations.CodesArePrefixFree := by
  intro s h hvalid c c' e e' hne he he' hset hset' hstart
  obtain ⟨t, -, hdepth, -, htable⟩ := h hvalid
  obtain rfl : codeOf t c = e := Option.some.inj ((htable c).symm.trans he)
  obtain rfl : codeOf t c' = e' := Option.some.inj ((htable c').symm.trans he')
  exact hne (t.path?_prefixFree (path?_of_codeOf hdepth hset) (path?_of_codeOf hdepth hset') hstart)

end Sys2Proof.Machine
end

section
/-! SUPPORT. How a command ends and what it leaves of the port (30_encoding.md R101, 60_exceptions.md R222): it completes
or faults from a state in which only its own registers and memories have changed. -/

namespace Sys2Proof.Machine

/-- `u` is `s` but for what the meaning of a command other than RESET can write before the command ends (R94). -/
abbrev State.CommandFrame (s u : State) : Prop :=
  u = { s with
    treeValid := u.treeValid, codeValid := u.codeValid, symLen := u.symLen, bitLen := u.bitLen, byteLen := u.byteLen
    root := u.root, pqOutKey := u.pqOutKey, pqOutTag := u.pqOutTag, pqCap := u.pqCap
    freq := u.freq, node := u.node, code := u.code, pq := u.pq, sym := u.sym, bit := u.bit, byte := u.byte
    draws := u.draws }

/-- The responses and the host's events still to come are those of `s` (R61, log 1). -/
abbrev State.SameRecord (s t : State) : Prop := t.script = s.script ∧ t.responses = s.responses

/-- `t` is the completion or a fault entry of a command that started in `s` (R101, R222). -/
def State.EndsIn (s t : State) : Prop :=
  ∃ u : State, (t = u.complete ∨ ∃ c info, t = u.raise c info) ∧ s.CommandFrame u

section
variable {s t : State} (h : s.EndsIn t)
include h

/-- R101, R222: both ends leave the port ready. -/
theorem State.EndsIn.seq : t.seq = .idle := by
  obtain ⟨u, rfl | ⟨c, info, rfl⟩, -⟩ := h <;> rfl

theorem State.EndsIn.ie : t.ie = s.ie := by
  obtain ⟨u, rfl | ⟨c, info, rfl⟩, hu⟩ := h <;> exact (congrArg State.ie hu :)

theorem State.EndsIn.sameRecord : s.SameRecord t := by
  obtain ⟨u, rfl | ⟨c, info, rfl⟩, hu⟩ := h <;> exact ⟨(congrArg State.script hu :), (congrArg State.responses hu :)⟩

/-- A completion sets `DONE` and leaves `ERR`; a fault sets `ERR` and leaves `DONE` (R101, R222). -/
theorem State.EndsIn.done (hdone : s.done = false) (herr : s.err = false) : t.done = !t.err := by
  obtain ⟨u, rfl | ⟨c, info, rfl⟩, hu⟩ := h
  · have : u.err = false := (congrArg State.err hu).trans herr
    simp [this]
  · have : u.done = false := (congrArg State.done hu).trans hdone
    simp [this]

end

/-- DERIVE completes with its table, or faults (R160). -/
theorem execDerive_endsIn {s t : State} (h : execDerive s = .next t) : s.EndsIn t := by
  simp only [execDerive] at h
  split at h
  · split at h <;> cases h
    exact ⟨_, .inl rfl, rfl⟩
  · cases h
    exact ⟨_, .inr ⟨_, _, rfl⟩, rfl⟩

/-- R101, R222: every command but RESET completes or faults. -/
theorem exec_endsIn {i : Instr} {s t : State} (h : exec i s = .next t) (hi : i ≠ .reset) : s.EndsIn t := by
  cases i
  case reset => exact absurd rfl hi
  case nop | freqClear | treeRelease => cases h; exact ⟨_, .inl rfl, rfl⟩
  case freqCount | pqInit | pqAdd | build =>
    simp only [exec, execFreqCount, execPqInit, execPqAdd, execBuild] at h
    split_ifs at h <;> cases h
    · exact ⟨_, .inl rfl, rfl⟩
    · exact ⟨_, .inr ⟨_, _, rfl⟩, rfl⟩
  case pqRemoveMin =>
    simp only [exec, execPqRemoveMin] at h
    split at h <;> cases h
    · exact ⟨_, .inr ⟨_, _, rfl⟩, rfl⟩
    · exact ⟨_, .inl rfl, rfl⟩
  case derive => exact execDerive_endsIn h
  case encode =>
    rcases execEncode_cases s with ⟨-, e⟩ | ⟨-, -, e⟩ | ⟨-, -, ⟨_, _, -, -, e⟩ | ⟨-, -, e⟩⟩ <;> cases e.symm.trans h
    · exact ⟨_, .inr ⟨_, _, rfl⟩, rfl⟩
    · exact ⟨_, .inr ⟨_, _, rfl⟩, rfl⟩
    · exact ⟨_, .inr ⟨_, _, rfl⟩, rfl⟩
    · exact ⟨_, .inl rfl, rfl⟩
  case pack | unpack =>
    simp only [exec, execPack, execUnpack] at h
    split_ifs at h <;> cases h
    · exact ⟨_, .inl rfl, rfl⟩
    · exact ⟨_, .inr ⟨_, _, rfl⟩, rfl⟩
    · exact ⟨_, .inr ⟨_, _, rfl⟩, rfl⟩
  case decode =>
    rcases execDecode_next h with ⟨_, _, rfl⟩ | ⟨_, _, _, rfl⟩
    · exact ⟨_, .inl rfl, rfl⟩
    · exact ⟨_, .inr ⟨_, _, rfl⟩, rfl⟩

/-- R96, R101: with `ERR = 0` a word that is not RESET's ends as a command does; an illegal one faults. -/
theorem acceptWord_endsIn {w : Word} {s t : State} (h : acceptWord w s = .next t) (herr : s.err = false)
    (hw : w ≠ 0x01000000) : s.accept.EndsIn t := by
  rcases acceptWord_cases w s with ⟨herr', -⟩ | ⟨-, -, e⟩ | ⟨-, i, hd, e⟩
  · exact absurd (herr.symm.trans herr') (by decide)
  · cases e.symm.trans h
    exact ⟨_, .inr ⟨_, _, rfl⟩, rfl⟩
  · refine exec_endsIn (e.symm.trans h) ?_
    rintro rfl
    exact hw (encode_of_decode hd).symm

/-- Settles O17: the offered word starts from `DONE = 0` and `ERR = 0`, and its end sets exactly one of them. -/
theorem acceptedCommandEndsDoneOrFaulted : Obligations.AcceptedCommandEndsDoneOrFaulted := by
  intro s t w rest h herr hw ht
  have hend := acceptWord_endsIn ((step_offer h).symm.trans ht) herr hw
  have hdone : t.done = !t.err := hend.done rfl herr
  refine ⟨hend.seq, hdone, hend.ie, ?_, hend.sameRecord.1⟩
  rw [State.irq, hdone, Bool.not_or_self, Bool.and_true]
  exact hend.ie

end Sys2Proof.Machine
end

section
/-! SUPPORT. The port's events and responses (20_memory.md R61 to R65, 70_reset_and_hazards.md R250): what each event does
to a ready, a busy and an idle block, and the one response to a taken request. -/

namespace Sys2Proof.Machine

/-- R235: with no event left a step holds the state. -/
theorem step_of_script_nil {s : State} (h : s.script = []) : step s = .next s := by
  simp [step, h]

/-- R62: a request waits while `SEQ = BUSY`. -/
theorem step_of_busy {s : State} {r : Request} {rest : List HostEvent} (h : s.script = .request r :: rest)
    (hbusy : s.seq = .busy) : step s = .next s := by
  simp [step, h, hbusy]

/-- R250, R252: `rst` gives the reset state whatever `SEQ` is. -/
theorem step_rst {s : State} {rest : List HostEvent} (h : s.script = .rst :: rest) :
    step s = .next ({ s with script := rest } : State).toReset := by
  simp [step, h]

/-- Settles O9: one lemma per event; `toReset` keeps the model's own fields. -/
theorem eventsOutsideCommands : Obligations.EventsOutsideCommands :=
  ⟨fun _ => step_of_script_nil, fun _ _ _ => step_of_busy, fun _ _ => step_rst⟩

/-- R65: a write to a CSR changes only `DONE` and the registers the host may write. -/
theorem State.writeCsr_eq (s : State) (c : Csr) (v : Nat) :
    s.writeCsr c v = { s with
      done := (s.writeCsr c v).done, ie := (s.writeCsr c v).ie, symLen := (s.writeCsr c v).symLen
      bitLen := (s.writeCsr c v).bitLen, byteLen := (s.writeCsr c v).byteLen, pqKey := (s.writeCsr c v).pqKey } := by
  cases c
  case status => rw [State.writeCsr_status]
  all_goals rfl

/-- The store of a host write gives no response of its own. -/
theorem State.writeElement_sameRecord (s : State) (sp : Space) (i v : Nat) :
    s.SameRecord (s.writeElement sp i v) := by
  cases sp with
  | csr =>
    simp only [State.writeElement]
    cases Csr.ofIndex i with
    | none => exact ⟨rfl, rfl⟩
    | some c =>
      change s.SameRecord (s.writeCsr c v)
      rw [State.writeCsr_eq]
      exact ⟨rfl, rfl⟩
  | _ => exact ⟨rfl, rfl⟩

/-- From `s` to `t` one response was given, after all earlier ones, and no event of the host was taken (R61). -/
def State.Answers (s t : State) (err : Bool) : Prop :=
  t.script = s.script ∧ ∃ v, t.responses = s.responses ++ [⟨err, v⟩]

/-- R63: a read is answered with `err = 0`. -/
theorem State.hostRead_answers (s : State) (sp : Space) (i : Nat) : s.Answers (s.hostRead sp i) false := by
  cases hv : s.readElement sp i with
  | none => rw [State.hostRead_of_none hv]; exact ⟨rfl, _, rfl⟩
  | some v => rw [State.hostRead_of_some hv]; exact ⟨rfl, v, rfl⟩

/-- R63: a write that passes the checks is answered with `err = 0`. -/
theorem State.hostWrite_answers (s : State) (sp : Space) (i v : Nat) : s.Answers (s.hostWrite sp i v) false := by
  obtain ⟨hscript, hresponses⟩ := s.writeElement_sameRecord sp i v
  exact ⟨hscript, _, by rw [State.hostWrite, State.respondFree_responses, hresponses]⟩

/-- A command gives no response of its own, RESET included (R101, log 1). -/
theorem acceptWord_sameRecord {w : Word} {s t : State} (h : acceptWord w s = .next t) : s.SameRecord t := by
  rcases acceptWord_cases w s with ⟨-, -, e⟩ | ⟨-, -, e⟩ | ⟨-, i, -, e⟩
  · cases e.symm.trans h
    exact ⟨rfl, rfl⟩
  · cases e.symm.trans h
    exact ⟨rfl, rfl⟩
  · have hexec : exec i s.accept = .next t := e.symm.trans h
    by_cases hi : i = .reset
    · subst hi
      cases hexec
      exact ⟨rfl, rfl⟩
    · exact (exec_endsIn hexec hi).sameRecord

/-- R64: a refused request is answered with `err = 1`, `rdata = 0`, and changes no state. -/
theorem step_refused {s : State} {r : Request} {rest : List HostEvent} (h : s.nextRequest r rest)
    (hrefused : r.missing s.params ∨ r.toReadOnly) :
    step s = .next (({ s with script := rest } : State).respond ⟨true, 0⟩) := by
  have hcheck : r.refused s.params = true := (refused_iff _ _).2 hrefused
  rw [step_request h, takeRequest, if_pos hcheck]

/-- R61, R63, R101: a request that passes the checks of R64 is answered once, with `err = 0`. -/
theorem takeRequest_answers {r : Request} {s t : State} (hpass : ¬ (r.missing s.params ∨ r.toReadOnly))
    (h : takeRequest r s = .next t) : s.Answers t false := by
  rcases takeRequest_cases r s with ⟨hrefused, -⟩ | ⟨-, ⟨-, e⟩ | ⟨-, -, e⟩ | ⟨-, e⟩⟩
  · exact absurd hrefused hpass
  · obtain ⟨hscript, hresponses⟩ := acceptWord_sameRecord (e.symm.trans h)
    exact ⟨hscript, _, hresponses⟩
  · cases e.symm.trans h
    exact s.hostWrite_answers _ _ _
  · cases e.symm.trans h
    exact s.hostRead_answers _ _

/-- The step of a ready port whose next request passes the checks: one response, with `err = 0`. -/
theorem step_answers {s t : State} {r : Request} {rest : List HostEvent} (h : s.nextRequest r rest)
    (hpass : ¬ (r.missing s.params ∨ r.toReadOnly)) (ht : step s = .next t) :
    State.Answers { s with script := rest } t false :=
  takeRequest_answers (s := { s with script := rest }) hpass ((step_request h).symm.trans ht)

/-- Settles O10: a refused request is answered by the check, and every other by its access or its command's start. -/
theorem oneResponsePerRequest : Obligations.OneResponsePerRequest := by
  intro s t r rest h ht
  by_cases hrefused : r.missing s.params ∨ r.toReadOnly
  · cases (step_refused h hrefused).symm.trans ht
    exact ⟨rfl, ⟨true, 0⟩, rfl, iff_of_true rfl hrefused⟩
  · obtain ⟨hscript, v, hresponses⟩ := step_answers h hrefused ht
    exact ⟨hscript, ⟨false, v⟩, hresponses, iff_of_false Bool.false_ne_true hrefused⟩

/-- Settles O11: a refused request only adds its response, and every other is answered with `err = 0`. -/
theorem refusedAccessesChangeNothing : Obligations.RefusedAccessesChangeNothing := by
  constructor
  · intro s r rest h hrefused
    exact step_refused h hrefused
  · intro s t r rest h hexists hwritable ht
    exact (step_answers h (not_or.2 ⟨hexists, hwritable⟩) ht).2

end Sys2Proof.Machine
end

section
/-! SUPPORT. Host writes to the locations that store the whole element and do nothing else (20_memory.md R63, R65,
48_arithmetic_and_access.md R273). -/

namespace Sys2Proof.Machine

/-- R22: the index of a register is below 18, and different indices select different registers. -/
theorem Csr.ofIndex_inj {i j : Nat} {c : Csr} (hi : Csr.ofIndex i = some c) (hj : Csr.ofIndex j = some c) : i = j := by
  have below : ∀ k, Csr.ofIndex k = some c → k < 18 := by
    intro k hk
    by_contra hge
    obtain ⟨m, rfl⟩ := Nat.exists_eq_add_of_le' (Nat.le_of_not_lt hge)
    cases hk
  have inj : ∀ i < 18, ∀ j < 18, Csr.ofIndex i = Csr.ofIndex j → i = j := by decide
  exact inj i (below i hi) j (below j hj) (hi.trans hj.symm)

/-- The registers in which a host write stores its whole data (R28, R30, R65). -/
abbrev Csr.Plain (c : Csr) : Prop := c = .symLen ∨ c = .bitLen ∨ c = .byteLen ∨ c = .pqKey

/-- R22: the indices 5, 6, 7 and 9 are those of the plain registers. -/
theorem Csr.ofIndex_plain {i : Nat} (h : i ∈ [5, 6, 7, 9]) : ∃ c, Csr.ofIndex i = some c ∧ c.Plain := by
  simp only [List.mem_cons, List.not_mem_nil, or_false] at h
  rcases h with rfl | rfl | rfl | rfl
  · exact ⟨.symLen, rfl, .inl rfl⟩
  · exact ⟨.bitLen, rfl, .inr (.inl rfl)⟩
  · exact ⟨.byteLen, rfl, .inr (.inr (.inl rfl))⟩
  · exact ⟨.pqKey, rfl, .inr (.inr (.inr rfl))⟩

/-- R28, R30: a plain register reads back the low bits of what was written. -/
theorem State.readCsr_writeCsr_self (s : State) {c : Csr} (hc : c.Plain) (v : Nat) :
    (s.writeCsr c v).readCsr c = v % 2 ^ c.width s.params := by
  rcases hc with rfl | rfl | rfl | rfl
  · exact BitVec.toNat_ofNat v 32
  · exact BitVec.toNat_ofNat v 32
  · exact BitVec.toNat_ofNat v 32
  · rfl

/-- R65: a write to a plain register leaves the read value of every other register. -/
theorem State.readCsr_writeCsr_of_ne (s : State) {c c' : Csr} (hc : c.Plain) (hne : c' ≠ c) (v : Nat) :
    (s.writeCsr c v).readCsr c' = s.readCsr c' := by
  rcases hc with rfl | rfl | rfl | rfl
  · cases c' with
    | symLen => exact absurd rfl hne
    | _ => rfl
  · cases c' with
    | bitLen => exact absurd rfl hne
    | _ => rfl
  · cases c' with
    | byteLen => exact absurd rfl hne
    | _ => rfl
  · cases c' with
    | pqKey => exact absurd rfl hne
    | _ => rfl

/-- The store of a write to an existing CSR is the register's. -/
theorem State.writeElement_csr (s : State) {i : Nat} {c : Csr} (hi : Csr.ofIndex i = some c) (v : Nat) :
    s.writeElement .csr i v = s.writeCsr c v := by
  simp only [State.writeElement, hi]

/-- R65: the CSRs as read after a write to a plain register. -/
theorem State.readElement_writeElement_csr (s : State) {i : Nat} (hi : i ∈ [5, 6, 7, 9]) (v j : Nat) :
    (s.writeElement .csr i v).readElement .csr j =
      if j = i then some (v % 2 ^ Space.csr.width s.params i) else s.readElement .csr j := by
  obtain ⟨c, hindex, hc⟩ := Csr.ofIndex_plain hi
  rw [s.writeElement_csr hindex]
  by_cases hj : j = i
  · subst hj
    simp [State.readElement, Space.width, hindex, s.readCsr_writeCsr_self hc]
  · rw [if_neg hj]
    cases hc' : Csr.ofIndex j with
    | none => simp [State.readElement, hc']
    | some c' =>
      have hne : c' ≠ c := by
        rintro rfl
        exact hj (Csr.ofIndex_inj hc' hindex)
      simp [State.readElement, hc', s.readCsr_writeCsr_of_ne hc hne]

/-- R65: a space as read after a write to one of its plain locations. -/
theorem State.readElement_writeElement (s : State) {r : Request} (hplain : r.toPlain) (v j : Nat) :
    (s.writeElement r.space r.index v).readElement r.space j =
      if j = r.index then some (v % 2 ^ r.space.width s.params r.index) else s.readElement r.space j := by
  rcases hplain with h | h | h | h | ⟨h, hi⟩ <;> rw [h]
  · simp only [State.readElement, State.writeElement, State.freqAt, read?_storeCount, apply_ite some]
    rfl
  · simp only [State.readElement, State.writeElement, Memory.read?_insert, apply_ite (Option.map BitVec.toNat)]
    rfl
  · simp only [State.readElement, State.writeElement, Memory.read?_insert, apply_ite (Option.map Bool.toNat),
      Option.map_some, Nat.toNat_testBit, pow_zero, Nat.div_one]
    rfl
  · simp only [State.readElement, State.writeElement, Memory.read?_insert, apply_ite (Option.map BitVec.toNat)]
    rfl
  · exact s.readElement_writeElement_csr hi v j

/-- R65: a write to one space leaves what every read of another space finds. -/
theorem State.readElement_writeElement_of_ne (s : State) {sp sp' : Space} (hne : sp' ≠ sp) (i v j : Nat) :
    (s.writeElement sp i v).readElement sp' j = s.readElement sp' j := by
  cases sp with
  | csr =>
    simp only [State.writeElement]
    cases Csr.ofIndex i with
    | none => rfl
    | some c =>
      change (s.writeCsr c v).readElement sp' j = _
      rw [State.writeCsr_eq]
      cases sp' with
      | csr => exact absurd rfl hne
      | _ => rfl
  | freq =>
    cases sp' with
    | freq => exact absurd rfl hne
    | _ => rfl
  | sym =>
    cases sp' with
    | sym => exact absurd rfl hne
    | _ => rfl
  | bit =>
    cases sp' with
    | bit => exact absurd rfl hne
    | _ => rfl
  | byte =>
    cases sp' with
    | byte => exact absurd rfl hne
    | _ => rfl
  | node => rfl
  | code => rfl

/-- A read finds nothing of the model's record of the port (log 1, log 4). -/
theorem State.readElement_respondFree (s : State) (width : Nat) (sp : Space) (i : Nat) :
    (s.respondFree width).readElement sp i = s.readElement sp i := by
  cases sp <;> rfl

/-- R65: a write to a plain location changes nothing but the spaces and registers of plain locations. The response and
its free value, which follow the store, are left open here (log 11). -/
theorem State.writeElement_plainFrame (s : State) {r : Request} (hplain : r.toPlain) (v : Nat) :
    let t := s.writeElement r.space r.index v
    t = { s with
      freq := t.freq, sym := t.sym, bit := t.bit, byte := t.byte
      symLen := t.symLen, bitLen := t.bitLen, byteLen := t.byteLen, pqKey := t.pqKey
      responses := t.responses, draws := t.draws } := by
  rcases hplain with h | h | h | h | ⟨h, hi⟩ <;> rw [h]
  · rfl
  · rfl
  · rfl
  · rfl
  · obtain ⟨c, hindex, hc⟩ := Csr.ofIndex_plain hi
    rw [s.writeElement_csr hindex]
    rcases hc with rfl | rfl | rfl | rfl <;> rfl

/-- R23, R64 (b): a plain location is not read-only and is not `CMD`. -/
theorem Request.not_toReadOnly_and_not_command_of_toPlain {r : Request} (hplain : r.toPlain) :
    ¬ r.toReadOnly ∧ r.isCommand = false := by
  obtain ⟨write, space, index, wdata⟩ := r
  simp only [Request.toPlain, Request.toReadOnly, Request.isCommand] at hplain ⊢
  rcases hplain with rfl | rfl | rfl | rfl | ⟨rfl, hi⟩
  · simp
  · simp
  · simp
  · simp
  · simp only [List.mem_cons, List.not_mem_nil, or_false] at hi
    rcases hi with rfl | rfl | rfl | rfl <;> simp

/-- Settles O16: the step stores the element and answers; the answer is not seen by a read. -/
theorem plainWritesStoreOneElement : Obligations.PlainWritesStoreOneElement := by
  intro s r rest h hwrite hplain hexists
  obtain ⟨hwritable, haccess⟩ := Request.not_toReadOnly_and_not_command_of_toPlain hplain
  refine ⟨_, step_write h hwrite (not_or.2 ⟨hexists, hwritable⟩) haccess, ?_, fun sp i hne => ?_, ?_⟩
  · rw [State.hostWrite, State.readElement_respondFree, State.readElement_writeElement _ hplain, if_pos rfl]
  · rw [State.hostWrite, State.readElement_respondFree, ← s.readElement_script rest]
    by_cases hsp : sp = r.space
    · subst hsp
      have hi : i ≠ r.index := fun hi => hne (hi ▸ rfl)
      rw [State.readElement_writeElement _ hplain, if_neg hi]
    · exact State.readElement_writeElement_of_ne _ hsp _ _ _
  · exact congrArg (State.respondFree · (r.space.width s.params r.index))
      (State.writeElement_plainFrame { s with script := rest } hplain r.wdata)

end Sys2Proof.Machine
end

section
/-! SUPPORT. The encoder and the decoder are inverse to each other on the well-formed commands and the words that decode
(30_encoding.md R91 to R95). -/

namespace Sys2Proof

/-- R94: the word of a well-formed command hits a row that makes the command of it. -/
theorem encodesToRow (i : Instr) : Laws.EncodesToRow.Statement i := by
  cases i with
  | nop => exact Laws.EncodesToRow.nop
  | reset => exact Laws.EncodesToRow.reset
  | freqClear => exact Laws.EncodesToRow.freqClear
  | freqCount => exact Laws.EncodesToRow.freqCount
  | pqInit n9 => exact Laws.EncodesToRow.pqInit n9
  | pqAdd n9 => exact Laws.EncodesToRow.pqAdd n9
  | pqRemoveMin => exact Laws.EncodesToRow.pqRemoveMin
  | build => exact Laws.EncodesToRow.build
  | treeRelease => exact Laws.EncodesToRow.treeRelease
  | derive => exact Laws.EncodesToRow.derive
  | encode => exact Laws.EncodesToRow.encode
  | pack => exact Laws.EncodesToRow.pack
  | unpack => exact Laws.EncodesToRow.unpack
  | decode => exact Laws.EncodesToRow.decode

/-- R95: the row that the word of a command hits is the only one, so decoding gives the command back. -/
theorem decode_encode {i : Instr} (h : WellFormed i) : decode (encode i) = .ok i := by
  obtain ⟨r, hr, hit, hinstr⟩ := encodesToRow i h
  rw [decode_of_hit hr hit, ← n9Field_eq, hinstr]

/-- R93: a row makes a well-formed command of any nine operand bits. -/
theorem wellFormed_of_row {r : Row} (hr : r ∈ rows) {n : Nat} (hn : n < 512) : WellFormed (r.instr n) := by
  simp only [rows, List.mem_cons, List.not_mem_nil, or_false] at hr
  rcases hr with rfl | rfl | rfl | rfl | rfl | rfl | rfl | rfl | rfl | rfl | rfl | rfl | rfl | rfl <;>
    simp [WellFormed, wellFormed, hn]

/-- R93, R95: a word decodes to a well-formed command only. -/
theorem wellFormed_of_decode {w : Word} {i : Instr} (h : decode w = .ok i) : WellFormed i := by
  rcases decode_cases w with ⟨r, hr, -, e⟩ | ⟨-, e⟩
  · cases h.symm.trans e
    exact wellFormed_of_row hr (Nat.mod_lt _ (by decide))
  · cases h.symm.trans e

/-- Settles O2: the word hits its command's row, and no other. -/
theorem decodeOfEncodeIsTheCommand : Obligations.DecodeOfEncodeIsTheCommand :=
  fun _ => decode_encode

/-- Settles O3: the row that hits a word has the bits of the word but for the operand's, which are below 512. -/
theorem encodeOfDecodeIsTheWord : Obligations.EncodeOfDecodeIsTheWord :=
  fun _ _ h => ⟨wellFormed_of_decode h, encode_of_decode h⟩

/-- Settles O1: each word is the word of a well-formed command. -/
theorem sampleWordsDecode : Obligations.SampleWordsDecode :=
  ⟨decode_encode (i := .nop) rfl, decode_encode (i := .reset) rfl, decode_encode (i := .freqCount) rfl,
    decode_encode (i := .pqInit 256) rfl, decode_encode (i := .pqAdd 511) rfl, decode_encode (i := .pqRemoveMin) rfl,
    decode_encode (i := .build) rfl, decode_encode (i := .derive) rfl, decode_encode (i := .encode) rfl,
    decode_encode (i := .pack) rfl, decode_encode (i := .unpack) rfl, decode_encode (i := .decode) rfl⟩

end Sys2Proof
end

section
/-! SUPPORT. Which words are commands and which are illegal, by their `op` and `imm` fields (30_encoding.md R95, R96),
and what an offered word that runs no command does (R96, R225). -/

namespace Sys2Proof

/-- A hit in the form of R94. -/
theorem Row.hits_iff (r : Row) (w : Word) : r.hits w = true ↔ w &&& r.mask = r.matchWord := by
  rw [Row.hits, beq_iff_eq]

/-- R96: a word is illegal exactly when no row hits it. -/
theorem decode_isError_iff (w : Word) : (∃ e, decode w = .error e) ↔ ¬ ∃ r ∈ rows, r.hits w = true := by
  rcases decode_cases w with ⟨r, hr, hit, e⟩ | ⟨hmiss, e⟩
  · refine iff_of_false ?_ (not_not.2 ⟨r, hr, hit⟩)
    rintro ⟨e', he'⟩
    cases e.symm.trans he'
  · refine iff_of_true ⟨_, e⟩ ?_
    rintro ⟨r, hr, hit⟩
    exact Bool.false_ne_true ((hmiss r hr).symm.trans hit)

/-- Settles O4: at most one row hits a word, since the rows' `op` fields differ. -/
theorem everyWordIsOneCommandOrIllegal : Obligations.EveryWordIsOneCommandOrIllegal := by
  refine ⟨fun w => ?_, List.pairwise_map.1 rows_ops⟩
  rcases decode_cases w with ⟨r, hr, hit, e⟩ | ⟨hmiss, e⟩
  · refine .inl ⟨r, hr, (r.hits_iff w).1 hit, fun r' hr' hit' => ?_, e⟩
    rw [hit_unique hr' hr ((r'.hits_iff w).2 hit') hit]
  · refine .inr ⟨fun r hr hit => ?_, _, e⟩
    exact Bool.false_ne_true ((hmiss r hr).symm.trans ((r.hits_iff w).2 hit))

/-- The `op` fields of the rows of one format (R91, R92). -/
def opsOf (mask : Word) : List Nat := (rows.filter (fun r => r.mask == mask)).map (fun r => r.matchWord.toNat / 2 ^ 24)

theorem mem_opsOf {mask : Word} {op : Nat} :
    op ∈ opsOf mask ↔ ∃ r ∈ rows, r.mask = mask ∧ r.matchWord.toNat / 2 ^ 24 = op := by
  simp only [opsOf, List.mem_map, List.mem_filter, beq_iff_eq, and_assoc]

/-- R91, R94: the `op` fields of the format-Z commands. -/
theorem opsOf_maskZ :
    opsOf maskZ = [0x00, 0x01, 0x10, 0x11, 0x22, 0x30, 0x31, 0x32, 0x40, 0x41, 0x42, 0x43] := by decide

/-- R92, R94: the `op` fields of the format-I9 commands. -/
theorem opsOf_maskI9 : opsOf maskI9 = [0x20, 0x21] := by decide

/-- R91, R92: the bits of a row's match below `op` are 0. -/
theorem matchWord_imm {r : Row} (hr : r ∈ rows) : r.matchWord.toNat % 2 ^ 24 = 0 := by
  revert r
  simp [rows]

/-- R91, R92, R95: a row hits the words with its `op` whose `imm` is 0 but for the operand bits of format I9. -/
theorem hits_iff_fields {r : Row} (hr : r ∈ rows) (w : Word) :
    r.hits w = true ↔ r.matchWord.toNat / 2 ^ 24 = w.toNat / 2 ^ 24 ∧
      (r.mask = maskZ ∧ w.toNat % 2 ^ 24 = 0 ∨ r.mask = maskI9 ∧ w.toNat % 2 ^ 24 < 512) := by
  have himm := matchWord_imm hr
  have hitZ : w.toNat = r.matchWord.toNat ↔
      r.matchWord.toNat / 2 ^ 24 = w.toNat / 2 ^ 24 ∧ w.toNat % 2 ^ 24 = 0 := by omega
  have hitI9 : w.toNat / 512 * 512 = r.matchWord.toNat ↔
      r.matchWord.toNat / 2 ^ 24 = w.toNat / 2 ^ 24 ∧ w.toNat % 2 ^ 24 < 512 := by omega
  rw [rows_hit hr, hitZ, hitI9, and_left_comm, and_left_comm (a := r.mask = maskI9), ← and_or_left]

/-- R95: the legal words by their fields. -/
theorem exists_hit_iff (w : Word) : (∃ r ∈ rows, r.hits w = true) ↔
    w.toNat / 2 ^ 24 ∈ opsOf maskZ ∧ w.toNat % 2 ^ 24 = 0 ∨
      w.toNat / 2 ^ 24 ∈ opsOf maskI9 ∧ w.toNat % 2 ^ 24 < 512 := by
  simp only [mem_opsOf]
  constructor
  · rintro ⟨r, hr, hit⟩
    obtain ⟨hop, ⟨hm, himm⟩ | ⟨hm, himm⟩⟩ := (hits_iff_fields hr w).1 hit
    · exact .inl ⟨⟨r, hr, hm, hop⟩, himm⟩
    · exact .inr ⟨⟨r, hr, hm, hop⟩, himm⟩
  · rintro (⟨⟨r, hr, hm, hop⟩, himm⟩ | ⟨⟨r, hr, hm, hop⟩, himm⟩)
    · exact ⟨r, hr, (hits_iff_fields hr w).2 ⟨hop, .inl ⟨hm, himm⟩⟩⟩
    · exact ⟨r, hr, (hits_iff_fields hr w).2 ⟨hop, .inr ⟨hm, himm⟩⟩⟩

/-- R96: the illegal words by their fields: an `op` of no row, or one whose format does not allow the `imm`. -/
theorem decode_isError_iff_fields (w : Word) : (∃ e, decode w = .error e) ↔
    (¬ (w.toNat / 2 ^ 24 ∈ opsOf maskZ ∨ w.toNat / 2 ^ 24 ∈ opsOf maskI9) ∨
      (w.toNat / 2 ^ 24 ∈ opsOf maskZ ∧ w.toNat % 2 ^ 24 ≠ 0) ∨
      (w.toNat / 2 ^ 24 ∈ opsOf maskI9 ∧ 512 ≤ w.toNat % 2 ^ 24)) := by
  have hdisjoint : ∀ op ∈ opsOf maskZ, op ∉ opsOf maskI9 := by decide
  have hformat := hdisjoint (w.toNat / 2 ^ 24)
  rw [decode_isError_iff, exists_hit_iff, ← not_lt]
  tauto

namespace Machine

/-- R96, R101: an accepted word that does not decode faults. -/
theorem acceptWord_of_illegal {s : State} {w : Word} (h : s.err = false) (hd : ∃ e, decode w = .error e) :
    acceptWord w s = .next (s.accept.raise .illegalCmd w) := by
  obtain ⟨e, he⟩ := hd
  rcases acceptWord_cases w s with ⟨herr, -⟩ | ⟨-, -, e⟩ | ⟨-, i, hi, -⟩
  · exact absurd (h.symm.trans herr) Bool.false_ne_true
  · exact e
  · cases he.symm.trans hi

/-- Settles O5: the legal words are those of the two formats, and a faulting word's row of R223 is empty. -/
theorem illegalWordsFault : Obligations.IllegalWordsFault := by
  constructor
  · intro w
    rw [decode_isError_iff_fields, opsOf_maskZ, opsOf_maskI9, ← List.mem_append]
    simp only [List.cons_append, List.nil_append, List.mem_cons, List.not_mem_nil, or_false]
    omega
  · intro s w rest h herr hd
    exact (step_offer h).trans (acceptWord_of_illegal herr hd)

/-- Settles O8: a skipped word leaves the state in which its request has been answered. -/
theorem commandsAreSkippedWhileFaulted : Obligations.CommandsAreSkippedWhileFaulted := by
  intro s w rest h herr hw
  exact (step_offer h).trans (acceptWord_of_err herr hw)

end Machine

end Sys2Proof
end

section
/-! SUPPORT. The frame of each command (30_encoding.md R94, column "writes"). -/

namespace Sys2Proof.Machine

/-- `s` with the state that the command `i` may write taken from `t` (R94, R223). RESET writes all of it. -/
def State.withWrites (i : Instr) (s t : State) : State :=
  match i with
  | .nop => s
  | .reset => t
  | .freqClear => { s with freq := t.freq }
  | .freqCount => { s with freq := t.freq }
  | .pqInit _ => { s with pq := t.pq, pqCap := t.pqCap }
  | .pqAdd _ => { s with pq := t.pq }
  | .pqRemoveMin => { s with pq := t.pq, pqOutKey := t.pqOutKey, pqOutTag := t.pqOutTag }
  | .build => { s with node := t.node, pq := t.pq, pqCap := t.pqCap, root := t.root, treeValid := t.treeValid }
  | .treeRelease => { s with root := t.root, treeValid := t.treeValid }
  | .derive => { s with code := t.code, codeValid := t.codeValid }
  | .encode => { s with bit := t.bit, bitLen := t.bitLen }
  | .pack => { s with byte := t.byte, byteLen := t.byteLen }
  | .unpack => { s with bit := t.bit, bitLen := t.bitLen }
  | .decode => { s with sym := t.sym, symLen := t.symLen }

/-- `t` is `u` but for what starting and ending a command writes (R101, R222) and the count of free values (log 4). -/
abbrev State.LifeFrame (u t : State) : Prop :=
  t = { u with
    seq := t.seq, done := t.done, err := t.err, errCode := t.errCode, errInfo := t.errInfo, draws := t.draws }

/-- DERIVE writes `CODE` and `CODE_VALID` (R160, R223). -/
theorem execDerive_writes {s t : State} (h : execDerive s = .next t) : (s.withWrites .derive t).LifeFrame t := by
  simp only [execDerive] at h
  split at h
  · split at h <;> cases h
    rfl
  · cases h
    rfl

/-- R94: every command writes its own state, and beside it only what starting and ending a command writes. -/
theorem exec_writes {i : Instr} {s t : State} (h : exec i s = .next t) : (s.withWrites i t).LifeFrame t := by
  cases i
  case nop | reset | freqClear | treeRelease => cases h; rfl
  case freqCount | pqInit | pqAdd | build | pack | unpack =>
    simp only [exec, execFreqCount, execPqInit, execPqAdd, execBuild, execPack, execUnpack] at h
    split_ifs at h <;> cases h <;> rfl
  case pqRemoveMin =>
    simp only [exec, execPqRemoveMin] at h
    split at h <;> cases h <;> rfl
  case derive => exact execDerive_writes h
  case encode =>
    rcases execEncode_cases s with ⟨-, e⟩ | ⟨-, -, e⟩ | ⟨-, -, ⟨_, _, -, -, e⟩ | ⟨-, -, e⟩⟩ <;>
      cases e.symm.trans h <;> rfl
  case decode =>
    rcases execDecode_next h with ⟨_, _, rfl⟩ | ⟨_, _, _, rfl⟩ <;> rfl

/-! What no command but its writers changes, one lemma per group of R94's column. -/

section
variable {i : Instr} {s t : State}

theorem State.withWrites_freq (hreset : i ≠ .reset) (hclear : i ≠ .freqClear) (hcount : i ≠ .freqCount) :
    (s.withWrites i t).freq = s.freq := by
  cases i
  case reset | freqClear | freqCount => contradiction
  all_goals rfl

theorem State.withWrites_node (hreset : i ≠ .reset) (hbuild : i ≠ .build) : (s.withWrites i t).node = s.node := by
  cases i
  case reset | build => contradiction
  all_goals rfl

theorem State.withWrites_table (hreset : i ≠ .reset) (hderive : i ≠ .derive) :
    (s.withWrites i t).code = s.code ∧ (s.withWrites i t).codeValid = s.codeValid := by
  cases i
  case reset | derive => contradiction
  all_goals exact ⟨rfl, rfl⟩

theorem State.withWrites_root (hreset : i ≠ .reset) (hbuild : i ≠ .build) (hrelease : i ≠ .treeRelease) :
    (s.withWrites i t).root = s.root ∧ (s.withWrites i t).treeValid = s.treeValid := by
  cases i
  case reset | build | treeRelease => contradiction
  all_goals exact ⟨rfl, rfl⟩

theorem State.withWrites_pqCap (hreset : i ≠ .reset) (hbuild : i ≠ .build) (hinit : ∀ n, i ≠ .pqInit n) :
    (s.withWrites i t).pqCap = s.pqCap := by
  cases i
  case reset | build => contradiction
  case pqInit n => exact absurd rfl (hinit n)
  all_goals rfl

theorem State.withWrites_pq (hreset : i ≠ .reset) (hbuild : i ≠ .build) (hremove : i ≠ .pqRemoveMin)
    (hinit : ∀ n, i ≠ .pqInit n) (hadd : ∀ n, i ≠ .pqAdd n) : (s.withWrites i t).pq = s.pq := by
  cases i
  case reset | build | pqRemoveMin => contradiction
  case pqInit n => exact absurd rfl (hinit n)
  case pqAdd n => exact absurd rfl (hadd n)
  all_goals rfl

theorem State.withWrites_pqOut (hreset : i ≠ .reset) (hremove : i ≠ .pqRemoveMin) :
    (s.withWrites i t).pqOutKey = s.pqOutKey ∧ (s.withWrites i t).pqOutTag = s.pqOutTag := by
  cases i
  case reset | pqRemoveMin => contradiction
  all_goals exact ⟨rfl, rfl⟩

theorem State.withWrites_syms (hreset : i ≠ .reset) (hdecode : i ≠ .decode) :
    (s.withWrites i t).sym = s.sym ∧ (s.withWrites i t).symLen = s.symLen := by
  cases i
  case reset | decode => contradiction
  all_goals exact ⟨rfl, rfl⟩

theorem State.withWrites_bits (hreset : i ≠ .reset) (hencode : i ≠ .encode) (hunpack : i ≠ .unpack) :
    (s.withWrites i t).bit = s.bit ∧ (s.withWrites i t).bitLen = s.bitLen := by
  cases i
  case reset | encode | unpack => contradiction
  all_goals exact ⟨rfl, rfl⟩

theorem State.withWrites_bytes (hreset : i ≠ .reset) (hpack : i ≠ .pack) :
    (s.withWrites i t).byte = s.byte ∧ (s.withWrites i t).byteLen = s.byteLen := by
  cases i
  case reset | pack => contradiction
  all_goals exact ⟨rfl, rfl⟩

/-- No command but RESET writes what the host alone writes, the parameters, or the model's record of the port. -/
theorem State.withWrites_hostState (hreset : i ≠ .reset) :
    (s.withWrites i t).pqKey = s.pqKey ∧ (s.withWrites i t).ie = s.ie ∧ (s.withWrites i t).params = s.params ∧
      (s.withWrites i t).script = s.script ∧ (s.withWrites i t).responses = s.responses := by
  cases i
  case reset => contradiction
  all_goals exact ⟨rfl, rfl, rfl, rfl, rfl⟩

end

/-- Settles O18: a command's next state agrees with `withWrites` on every piece of state the statement names. -/
theorem onlyListedCommandsWrite : Obligations.OnlyListedCommandsWrite := by
  intro i s t h hreset
  rw [exec_writes h]
  exact ⟨State.withWrites_freq hreset, State.withWrites_node hreset, State.withWrites_table hreset,
    State.withWrites_root hreset, State.withWrites_pqCap hreset,
    fun hbuild hremove => State.withWrites_pq hreset hbuild hremove, State.withWrites_pqOut hreset,
    State.withWrites_syms hreset, State.withWrites_bits hreset, State.withWrites_bytes hreset,
    State.withWrites_hostState hreset⟩

end Sys2Proof.Machine
end

section
/-! SUPPORT. The control commands NOP and RESET (40_control.md R110, R111, 60_exceptions.md R226). -/

namespace Sys2Proof.Machine

/-- Settles O22: NOP is completion alone, and completion writes `DONE` and `SEQ`. -/
theorem nopCompletes : Obligations.NopCompletes :=
  fun _ => rfl

/-- R94, R95: RESET has one word, and that word decodes to it. -/
theorem decode_eq_reset_iff (w : Word) : decode w = .ok .reset ↔ w = 0x01000000 := by
  constructor
  · intro h
    exact (encode_of_decode h).symm
  · rintro rfl
    exact decode_encode (i := .reset) rfl

/-- R24, R49: after a reset only `PQ_EMPTY` of `STATUS` is 1, whatever the model's own fields hold. -/
@[simp] theorem State.toReset_status (s : State) : s.toReset.status = 0x10 := by
  have hreset : s.toReset.status = State.reset.status := rfl
  rw [hreset]
  decide

/-- R48, R49: a reset lowers the interrupt line. -/
@[simp] theorem State.toReset_irq (s : State) : s.toReset.irq = false := by
  simp [State.irq]

/-- R101, R111, R226: the offered word of RESET resets the block, whatever `ERR` is; the model's own fields stay. -/
theorem step_reset_offer {s : State} {rest : List HostEvent} (h : s.offers 0x01000000 rest) :
    step s = .next (s.started rest).toReset :=
  (step_offer h).trans (acceptWord_of_decode (.inr rfl) ((decode_eq_reset_iff _).2 rfl))

/-- Settles O23: the RESET word is never skipped, and `toReset` is the reset state but for the model's own fields. -/
theorem resetCommandGivesResetState : Obligations.ResetCommandGivesResetState := by
  refine ⟨fun s => ⟨s.toReset, rfl, rfl⟩, ?_, decode_eq_reset_iff⟩
  intro s rest h
  exact ⟨_, step_reset_offer h, congrArg some (State.toReset_status _), State.toReset_irq _, rfl, rfl, rfl, rfl⟩

end Sys2Proof.Machine
end

section
/-! SUPPORT. The queue's commands (41_priority_queue.md R125 to R127), an equation for each way one ends, and the two
orders its entries stand in: the stable sort of what was added (R120, R128), and the builder's (R141, R143 to R145). -/

namespace Sys2Proof.Machine

/-- R125: PQ_INIT with a capacity the queue can have. -/
theorem execPqInit_of_valid {n9 : Nat} (s : State) (h : 1 ≤ n9 ∧ n9 ≤ 256) :
    execPqInit n9 s = .next ({ s with pq := [], pqCap := BitVec.ofNat 9 n9 } : State).complete :=
  if_pos h

/-- R125: PQ_INIT with any other operand. -/
theorem execPqInit_of_invalid {n9 : Nat} (s : State) (h : ¬ (1 ≤ n9 ∧ n9 ≤ 256)) :
    execPqInit n9 s = .next (s.raise .arg (encode (.pqInit n9))) :=
  if_neg h

/-- R99: the word of PQ_INIT as a number. -/
theorem encode_pqInit_toNat {n9 : Nat} (h : n9 < 512) : (encode (.pqInit n9)).toNat = 0x20000000 + n9 := by
  simp only [encode, BitVec.toNat_add, BitVec.toNat_ofNat, BitVec.reduceToNat]
  omega

/-- R126: PQ_ADD while the queue has room. -/
theorem execPqAdd_of_room (n9 : Nat) {s : State} (h : s.pq.length < s.pqCap.toNat) :
    execPqAdd n9 s = .next ({ s with pq := pqAdd s.pq s.pqKey (BitVec.ofNat 9 n9) } : State).complete :=
  if_pos h

/-- R126: PQ_ADD on a full queue. -/
theorem execPqAdd_of_full (n9 : Nat) {s : State} (h : ¬ s.pq.length < s.pqCap.toNat) :
    execPqAdd n9 s = .next (s.raise .pqFull (BitVec.ofNat 32 s.pq.length)) :=
  if_neg h

/-- R127: PQ_REMOVE_MIN takes the first entry. -/
theorem execPqRemoveMin_of_cons {s : State} {e : Entry} {rest : List Entry} (h : s.pq = e :: rest) :
    execPqRemoveMin s =
      .next ({ s with pq := rest, pqOutKey := e.key, pqOutTag := e.tag } : State).complete := by
  simp only [execPqRemoveMin, h]

/-- R127: PQ_REMOVE_MIN on an empty queue. -/
theorem execPqRemoveMin_of_nil {s : State} (h : s.pq = []) : execPqRemoveMin s = .next (s.raise .pqEmpty 0) := by
  simp only [execPqRemoveMin, h]

/-- The entries of one key, in the order they stand: what R128 speaks of. -/
abbrev withKey (k : Nat) (q : List Entry) : List Entry := q.filter (fun e => e.key = k)

/-- R128: an added entry stands behind those of its key, and no other key's entries move. -/
theorem withKey_pqAdd {q : List Entry} (h : Sorted q) (e : Entry) (k : Nat) :
    withKey k (pqAdd q e.key e.tag) = withKey k (q ++ [e]) := by
  obtain ⟨before, after, hq, hadd, -, hafter⟩ := pqAdd_split h e.key e.tag
  rw [hadd, hq]
  by_cases hk : e.key = k
  · subst hk
    have none_after : withKey e.key after = [] := List.filter_eq_nil_iff.2 fun b hb => by
      have := hafter b hb
      simp only [decide_eq_true_eq]
      omega
    simp [none_after]
  · simp [hk]

/-- The entries of each key are all the entries. -/
theorem mem_iff_of_withKey {q q' : List Entry} (same : ∀ k, withKey k q = withKey k q') (e : Entry) :
    e ∈ q ↔ e ∈ q' := by
  simpa using congrArg (e ∈ ·) (same e.key)

/-- In a sorted list the first entry has the smallest key. -/
theorem head_key_le {a e : Entry} {q : List Entry} (h : Sorted (a :: q)) (he : e ∈ a :: q) : a.key ≤ e.key := by
  rcases List.mem_cons.1 he with rfl | he
  · exact le_refl _
  · exact List.rel_of_pairwise_cons h he

/-- A sorted list is determined by its entries of each key: the first entries have one key, so they are the same. -/
theorem sorted_eq_of_withKey {q q' : List Entry} (h : Sorted q) (h' : Sorted q')
    (same : ∀ k, withKey k q = withKey k q') : q = q' := by
  have mem := mem_iff_of_withKey same
  induction q generalizing q' with
  | nil => exact (List.eq_nil_iff_forall_not_mem.2 fun e he => by simpa using (mem e).2 he).symm
  | cons a q ih =>
    match q' with
    | [] => exact absurd ((mem a).1 (by simp)) (by simp)
    | b :: q' =>
      have key : a.key = b.key :=
        le_antisymm (head_key_le h ((mem b).2 (by simp))) (head_key_le h' ((mem a).1 (by simp)))
      obtain ⟨rfl, -⟩ : a = b ∧ _ := by simpa [key] using same b.key
      have rest : ∀ k, withKey k q = withKey k q' := fun k => by
        by_cases hk : a.key = k
        · simpa [hk] using same k
        · simpa [hk] using same k
      rw [ih h.of_cons h'.of_cons rest (mem_iff_of_withKey rest)]

/-- The order of R120 as `mergeSort` takes it. -/
abbrev keyLe (a b : Entry) : Bool := decide (a.key ≤ b.key)

theorem keyLe_trans (a b c : Entry) : keyLe a b = true → keyLe b c = true → keyLe a c = true := by
  simpa using le_trans

theorem keyLe_total (a b : Entry) : (keyLe a b || keyLe b a) = true := by
  simpa using le_total a.key b.key

/-- R120: the sort is in the queue's order. -/
theorem sorted_mergeSort (l : List Entry) : Sorted (l.mergeSort keyLe) := by
  simpa using List.pairwise_mergeSort keyLe_trans keyLe_total l

/-- R128: the sort is stable: the entries of one key are a sorted sublist, which the sort keeps. -/
theorem withKey_mergeSort (l : List Entry) (k : Nat) : withKey k (l.mergeSort keyLe) = withKey k l := by
  have sorted : (withKey k l).Pairwise (fun a b => keyLe a b = true) := by
    refine List.pairwise_of_forall_mem_list fun a ha b hb => ?_
    simp only [List.mem_filter, decide_eq_true_eq] at ha hb ⊢
    omega
  have sub : (withKey k l).Sublist (l.mergeSort keyLe) :=
    List.sublist_mergeSort keyLe_trans keyLe_total sorted List.filter_sublist
  have := sub.filter (fun e => e.key = k)
  rw [List.filter_filter] at this
  simp only [Bool.and_self] at this
  exact (this.eq_of_length ((List.mergeSort_perm l keyLe).filter _).length_eq.symm).symm

/-- R120, R128: adding one after another to a sorted queue keeps it sorted, and its entries of each key in the order they
came. -/
theorem foldl_pqAdd (l : List Entry) {q : List Entry} (h : Sorted q) :
    Sorted (l.foldl (fun q e => pqAdd q e.key e.tag) q) ∧
    ∀ k, withKey k (l.foldl (fun q e => pqAdd q e.key e.tag) q) = withKey k (q ++ l) := by
  induction l generalizing q with
  | nil => exact ⟨h, by simp⟩
  | cons e l ih =>
    obtain ⟨hs, hk⟩ := ih (sorted_pqAdd h e.key e.tag)
    refine ⟨hs, fun k => (hk k).trans ?_⟩
    have := withKey_pqAdd h e k
    simp only [withKey, List.filter_append] at this ⊢
    rw [this, List.append_assoc, ← List.filter_append]
    rfl

/-- Settles O29: both lists are sorted and hold the entries of each key in the order they were added. -/
theorem queueIsTheStableSort : Obligations.QueueIsTheStableSort := by
  intro l
  obtain ⟨hs, hk⟩ := foldl_pqAdd l (q := []) List.Pairwise.nil
  exact sorted_eq_of_withKey hs (sorted_mergeSort l) fun k => (hk k).trans (withKey_mergeSort l k).symm

/-- Settles O27: `pqAdd` splits a sorted queue at the new key; a full queue holds at most 511 entries. -/
theorem pqAddInsertsBehindEqualKeys : Obligations.PqAddInsertsBehindEqualKeys := by
  intro n9 s hn hs hcap
  constructor
  · intro hroom
    obtain ⟨before, after, hq, hadd, hbefore, hafter⟩ := pqAdd_split hs s.pqKey (BitVec.ofNat 9 n9)
    refine ⟨before, after, ⟨s.pqKey, BitVec.ofNat 9 n9⟩, ?_, hq, rfl, Nat.mod_eq_of_lt hn, hbefore, hafter⟩
    rw [← hadd]
    exact execPqAdd_of_room n9 hroom
  · intro hfull
    refine ⟨_, execPqAdd_of_full n9 (by omega), ?_⟩
    have := s.pqCap.isLt
    rw [BitVec.toNat_ofNat]
    omega

/-- Settles O32: the slots are `merged_tree`'s, the order of the queue `merged_trace`'s. -/
theorem buildMergesExactSums : Obligations.BuildMergesExactSums := by
  intro s t hfits htwo hbuild
  obtain rfl : _ = t := Host.Outcome.next.inj ((execBuild_of_two htwo).symm.trans hbuild)
  obtain ⟨-, -, -, -, -, -, -, -, -, -, hslots, -⟩ := s.merged_tree hfits htwo
  obtain ⟨-, hnext, hroot, -, -⟩ := s.merged_shape htwo
  refine ⟨fun j hj hjroot => hslots j hj ?_, s.merged_trace hfits htwo⟩
  have hle : j ≤ s.merged.root.toNat := hjroot
  omega

/-- Settles O26: the operands of PQ_INIT that are a capacity fit `PQ_CAP`, and all fit the command word. -/
theorem pqInitSetsCapacity : Obligations.PqInitSetsCapacity := by
  intro n9 s hn
  constructor
  · intro hlow hhigh
    have hcap : (BitVec.ofNat 9 n9).toNat = n9 := Nat.mod_eq_of_lt hn
    have hfull : (0 == (BitVec.ofNat 9 n9).toNat) = false := by
      rw [hcap, beq_eq_false_iff_ne]
      omega
    exact ⟨_, execPqInit_of_valid s ⟨hlow, hhigh⟩, hcap, rfl, hfull, rfl⟩
  · intro hbad
    exact ⟨_, execPqInit_of_invalid s (by omega), encode_pqInit_toNat hn⟩

/-- Settles O28: no key of a sorted queue is below the first. -/
theorem pqRemoveMinTakesTheFirst : Obligations.PqRemoveMinTakesTheFirst := by
  refine ⟨fun s e rest hq hs => ⟨execPqRemoveMin_of_cons hq, fun a ha => ?_⟩, fun s hq => execPqRemoveMin_of_nil hq⟩
  rw [hq] at hs ha
  exact head_key_le hs ha

end Sys2Proof.Machine
end

section
/-! SUPPORT. The tree builder (42_tree_builder.md): how BUILD ends when it faults, and that the merge loop's result depends
on the counts alone. -/

namespace Sys2Proof.Machine

/-- R146: with fewer than two positive counts BUILD releases the tree and faults. -/
theorem execBuild_of_few {s : State} (h : s.positiveCounts.length < 2) :
    execBuild s = .next (s.dropTree.raise .alphabet (BitVec.ofNat 32 s.positiveCounts.length)) := by
  rw [execBuild, s.positives_eq, if_neg (Nat.not_le.2 h)]

/-- Settles O36: the completed release, field by field. -/
theorem treeReleaseDropsTheTree : Obligations.TreeReleaseDropsTheTree :=
  fun _ => rfl

/-- Settles O30: a number below 2 fits the information word. -/
theorem buildNeedsTwoSymbols : Obligations.BuildNeedsTwoSymbols := by
  intro s hfew
  refine ⟨_, execBuild_of_few hfew, Nat.mod_eq_of_lt ?_⟩
  omega

/-- Settles O31: the merge loop's shape, in the state BUILD completes with. -/
theorem buildCompletes : Obligations.BuildCompletes := by
  intro s htwo
  obtain ⟨hqueue, hnext, hroot, hleaves, habove⟩ := s.merged_shape htwo
  refine ⟨_, execBuild_of_two htwo, ?_, hleaves, fun i hi => habove i ?_, ?_⟩
  · show s.merged.root.toNat = _
    omega
  · have hi : s.merged.root.toNat < i := hi
    omega
  · simp only [State.complete, hqueue]
    rfl

/-- Settles O35: `TREE` is the merge loop's tree, since a slot has one tree, and that one is a cheapest. -/
theorem buildTreeIsOptimal : Obligations.BuildTreeIsOptimal := by
  intro s t tr u hfits htwo hbuild htree hu
  obtain rfl : _ = t := Host.Outcome.next.inj ((execBuild_of_two htwo).symm.trans hbuild)
  obtain ⟨tr', slots, hreads, -, -, -, -, -, -, -, -, hcheapest⟩ := s.merged_tree hfits htwo
  obtain ⟨rfl, -⟩ := hreads.unique (reads_of_treeAt htree).1
  exact hcheapest u hu

section
variable {s s' : State} (hfreq : ∀ i, i < 256 → s.freqAt i = s'.freqAt i)
include hfreq

/-- R140: the positive counts are read from `FREQ` alone. -/
theorem State.positiveCounts_congr : s.positiveCounts = s'.positiveCounts := by
  have hpos : (List.range Config.alphabet).filter (fun i => decide (0 < s.freqAt i)) =
      (List.range Config.alphabet).filter (fun i => decide (0 < s'.freqAt i)) :=
    List.filter_congr fun i hi => by rw [hfreq i (List.mem_range.1 hi)]
  rw [State.positiveCounts, State.positiveCounts, hpos]
  exact List.map_congr_left fun i hi => by rw [hfreq i (List.mem_range.1 (List.mem_filter.1 hi).1)]

/-- R140, R142: the queue the leaves make is a function of the counts. -/
theorem State.leafQueue_congr : s.leafQueue = s'.leafQueue :=
  List.foldl_ext _ _ _ fun q i hi => by
    rw [State.addLeaf, State.addLeaf, hfreq i (List.mem_range.1 hi)]

/-- R142: the leaves' slots hold the counts and nothing of the old store. -/
theorem State.mergeStart_read_congr {j : Nat} (hj : j < 256) :
    s.mergeStart.node.read? j = s'.mergeStart.node.read? j := by
  rw [s.mergeStart_read, s'.mergeStart_read, if_pos hj, if_pos hj, State.leafNode, State.leafNode, hfreq j hj]

/-- R147 (k): the merge loop's root and every slot below the next free one depend on the counts and their width alone. -/
theorem State.merged_congr (hfw : s.params.fw = s'.params.fw) :
    s.merged.root = s'.merged.root ∧ ∀ j, j < s.merged.next → s.merged.node.read? j = s'.merged.node.read? j := by
  have hqueue : s.mergeStart.pq = s'.mergeStart.pq := by
    rw [s.mergeStart_pq, s'.mergeStart_pq, State.leafQueue_congr hfreq]
  obtain ⟨hroot, -, hslots⟩ := mergeLoop_congr s.params s'.params hfw Config.alphabet s.mergeStart s'.mergeStart
    hqueue rfl rfl (fun _ hj => State.mergeStart_read_congr hfreq hj)
  exact ⟨hroot, hslots⟩

end

/-- Settles O34: the slots up to the root are those below the merge loop's next free one. -/
theorem buildDependsOnFreqOnly : Obligations.BuildDependsOnFreqOnly := by
  intro s s' hfw hfreq htwo
  have htwo' : 2 ≤ s'.positiveCounts.length := State.positiveCounts_congr hfreq ▸ htwo
  obtain ⟨-, hnext, hroot, -, -⟩ := s.merged_shape htwo
  obtain ⟨hsameRoot, hsameSlots⟩ := State.merged_congr hfreq hfw
  refine ⟨_, _, execBuild_of_two htwo, execBuild_of_two htwo', hsameRoot, fun j hj => hsameSlots j ?_⟩
  have hj : j ≤ s.merged.root.toNat := hj
  omega

end Sys2Proof.Machine
end

section
/-! SUPPORT. Kraft's equality (43_code_table.md R162 (d)): among `2^n` strings of `n` bits, `2^(n - k)` start with a path
of `k` turns, and the two subtrees of a node share its strings evenly. -/

namespace Sys2Proof

/-- The symbol `i` names the element `i` of the code table (R40). -/
theorem toNat_symbol {i : Nat} (hi : i < 256) : (BitVec.ofNat 8 i).toNat = i :=
  (BitVec.toNat_ofNat i 8).trans (Nat.mod_eq_of_lt hi)

namespace HTree

/-- How many of the `2^n` strings of `n` bits start with the path of a symbol: none when it has no leaf. -/
def codeShare (t : HTree) (n : Nat) (c : Byte) : Nat := (t.path? c).elim 0 fun p => 2 ^ (n - p.length)

/-- A leaf's path is empty, so every string starts with it. -/
theorem codeShare_leaf (s : Byte) (f n : Nat) (c : Byte) : (leaf s f).codeShare n c = if c = s then 2 ^ n else 0 := by
  by_cases h : c = s <;> simp [codeShare, path?, h]

/-- Where the subtrees have no symbol in common, a symbol's path is one subtree's, one turn longer. -/
theorem codeShare_interior {l r : HTree} (apart : ∀ a ∈ l.leaves.map Prod.fst, ∀ b ∈ r.leaves.map Prod.fst, a ≠ b)
    (f n : Nat) (c : Byte) : (interior f l r).codeShare (n + 1) c = l.codeShare n c + r.codeShare n c := by
  cases hl : l.path? c with
  | none => cases hr : r.path? c <;> simp [codeShare, path?, hl, hr]
  | some p =>
    have hr : r.path? c = none := by
      rw [← Option.not_isSome_iff_eq_none, path?_isSome]
      exact fun hc => apart c ((l.path?_isSome c).1 (by simp [hl])) c hc rfl
    simp [codeShare, path?, hl, hr]

/-- R162 (d): the leaves' paths share all the strings of `n` bits, when none is longer than `n`. -/
theorem sum_codeShare (t : HTree) (nd : (t.leaves.map Prod.fst).Nodup) (n : Nat) (hn : t.depth ≤ n) :
    ((List.range 256).map fun i => t.codeShare n (BitVec.ofNat 8 i)).sum = 2 ^ n := by
  induction t generalizing n with
  | leaf s f =>
    show (∑ i ∈ Finset.range 256, (leaf s f).codeShare n (BitVec.ofNat 8 i)) = 2 ^ n
    rw [Finset.sum_eq_single_of_mem s.toNat (Finset.mem_range.2 s.isLt)]
    · simp [codeShare_leaf]
    · intro i hi hne
      have hother : BitVec.ofNat 8 i ≠ s := by
        rintro rfl
        exact hne (toNat_symbol (Finset.mem_range.1 hi)).symm
      simp [codeShare_leaf, hother]
  | interior f l r ihl ihr =>
    simp only [leaves, List.map_append, List.nodup_append] at nd
    obtain ⟨ndl, ndr, apart⟩ := nd
    simp only [depth] at hn
    obtain ⟨m, rfl⟩ := Nat.exists_eq_add_of_le' (show 1 ≤ n by omega)
    simp only [codeShare_interior apart, List.sum_map_add]
    rw [ihl ndl m (by omega), ihr ndr m (by omega), pow_succ, mul_two]

end HTree

namespace Machine

/-- R160, R162 (d): an entry of a tree's table has length 0 exactly when its symbol has no path, and its share is that of
its length. -/
theorem codeShare_eq_of_codeOf {t : HTree} (hinterior : t.isInterior = true) (hdepth : t.depth ≤ 255) (c : Byte) :
    (if (codeOf t c).len = 0 then 0 else 2 ^ (255 - (codeOf t c).len.toNat)) = t.codeShare 255 c := by
  cases hp : t.path? c with
  | none => simp [codeOf, HTree.codeShare, hp, Code.unset]
  | some p =>
    have hlen : (Code.ofPath p).len.toNat = p.length := Code.ofPath_len p ((t.path?_length c p hp).trans hdepth)
    have hset : (Code.ofPath p).len ≠ 0 := fun h0 =>
      HTree.path?_ne_nil hinterior hp (List.length_eq_zero_iff.1 (by rw [← hlen, h0]; rfl))
    simp only [codeOf, HTree.codeShare, hp, if_neg hset, hlen, Option.elim_some]

/-- Settles O39: a set entry's summand is its path's share of the strings of 255 bits. -/
theorem codesAreComplete : Obligations.CodesAreComplete := by
  intro s h hvalid
  obtain ⟨t, hinterior, hdepth, hdistinct, htable⟩ := h hvalid
  rw [← t.sum_codeShare hdistinct 255 hdepth]
  refine congrArg List.sum (List.map_congr_left fun i hi => ?_)
  have hentry : s.code.read? i = some (codeOf t (BitVec.ofNat 8 i)) := by
    rw [← htable, toNat_symbol (List.mem_range.1 hi)]
  simp only [hentry, codeShare_eq_of_codeOf hinterior hdepth]

end Machine

end Sys2Proof
end

section
/-! SUPPORT. The encoder (44_encoder.md), and what ENCODE and DECODE test before they read data (R224): an equation for
each way ENCODE ends, and for the first two faults of DECODE. -/

namespace Sys2Proof.Machine

/-- R170: ENCODE without a code table. -/
theorem execEncode_of_noTable {s : State} (h : s.codeValid = false) :
    execEncode s = .next (s.dropBits.raise .noTable 0) := by
  simp [execEncode, h]

/-- R170: ENCODE of more symbols than `SYM` holds. -/
theorem execEncode_of_long {s : State} (hvalid : s.codeValid = true) (hlen : s.params.symCap < s.symLen.toNat) :
    execEncode s = .next (s.dropBits.raise .len s.symLen) := by
  simp [execEncode, hvalid, Nat.not_le.2 hlen]

/-- R180: DECODE without a tree. -/
theorem execDecode_of_noTree {s : State} (h : s.treeValid = false) :
    execDecode s = .next (s.dropSyms.raise .noTree 0) := by
  simp [execDecode, h]

/-- R180: DECODE of more bits than `BIT` holds. -/
theorem execDecode_of_long {s : State} (hvalid : s.treeValid = true) (hlen : s.params.bitCap < s.bitLen.toNat) :
    execDecode s = .next (s.dropSyms.raise .len s.bitLen) := by
  simp [execDecode, hvalid, Nat.not_le.2 hlen]

/-- Settles O45: the flag is tested before the length, and the fault's row of R223 empties the output buffer. -/
theorem absentInputAndLengthFaults : Obligations.AbsentInputAndLengthFaults :=
  fun _ => ⟨execEncode_of_noTable, execEncode_of_long, execDecode_of_noTree, execDecode_of_long⟩

section
variable {s : State} (hvalid : s.codeValid = true) (hlen : s.symLen.toNat ≤ s.params.symCap)
include hvalid hlen

/-- R170: past the first tests ENCODE ends as its loop does, here with all the codes. -/
theorem execEncode_of_ok {bits : List Bool}
    (h : encodeLoop s.params.bitCap (s.codeInput s.symLen.toNat) 0 0 = .ok bits) :
    execEncode s = .next ({ s with
      bit := Memory.listFrom 0 bits
      bitLen := BitVec.ofNat 32 bits.length }.useDraws (2 * s.symLen.toNat)).complete := by
  simp [execEncode, hvalid, hlen, h]

/-- R170 to R172: past the first tests ENCODE ends as its loop does, here with a fault. -/
theorem execEncode_of_error {cause : Cause} {i : Nat}
    (h : encodeLoop s.params.bitCap (s.codeInput s.symLen.toNat) 0 0 = .error (cause, i)) :
    execEncode s = .next ((s.dropBits.useDraws (2 * s.symLen.toNat)).raise cause (BitVec.ofNat 32 i)) := by
  simp [execEncode, hvalid, hlen, h]

end

/-- What R170 leaves in `BIT`: the bits from element 0 on, and nothing listed above them (log 5). -/
theorem Memory.read?_listFrom_zero {α : Type} (l : List α) (i : Nat) : (Memory.listFrom 0 l).read? i = l[i]? := by
  simp [Memory.read?_listFrom]

/-- Settles O40: the loop appends the codes, and their lengths' sum fits `BIT_LEN` under R7. -/
theorem encodeConcatenatesTheCodes : Obligations.EncodeConcatenatesTheCodes := by
  intro s hparams hvalid hlen hset hroom
  obtain ⟨-, -, ⟨-, hcap⟩, -⟩ := hparams
  have hlength := length_flatMap_string (s.codeInput s.symLen.toNat)
  have hloop := encodeLoop_ok s.params.bitCap (s.codeInput s.symLen.toNat) 0 0 hset (by omega)
  set bits := (s.codeInput s.symLen.toNat).flatMap Code.string
  have hbitLen : (BitVec.ofNat 32 bits.length).toNat = bits.length := Nat.mod_eq_of_lt (by omega)
  refine ⟨_, execEncode_of_ok hvalid hlen hloop, hbitLen.trans hlength, Memory.read?_listFrom_zero bits,
    fun i hi => (Memory.read?_listFrom_zero bits i).trans (List.getElem?_eq_none ?_), rfl⟩
  exact hbitLen ▸ hi

/-- R170 to R172: the loop over the whole input stops at the entry of position `j` when those before it are set and have
room, and it is unset or has none. -/
theorem encodeLoop_error_at {cap j : Nat} {codes : List Code} {c : Code} (hc : codes[j]? = some c)
    (hset : ∀ a ∈ codes.take j, a.len ≠ 0) (hroom : ((codes.take j).map fun a => a.len.toNat).sum ≤ cap) :
    (c.len = 0 → encodeLoop cap codes 0 0 = .error (.noCode, j)) ∧
      (c.len ≠ 0 → cap < ((codes.take (j + 1)).map fun a => a.len.toNat).sum →
        encodeLoop cap codes 0 0 = .error (.overflow, j)) := by
  obtain ⟨hj, hentry⟩ := List.getElem?_eq_some_iff.1 hc
  have hsplit : codes.take j ++ c :: codes.drop (j + 1) = codes := by
    rw [← hentry, List.getElem_cons_drop, List.take_append_drop]
  have hsum : ((codes.take (j + 1)).map fun a => a.len.toNat).sum =
      ((codes.take j).map fun a => a.len.toNat).sum + c.len.toNat := by
    rw [List.take_add_one, hc]
    simp
  have hstop := encodeLoop_error cap (codes.take j) (codes.drop (j + 1)) c 0 0 hset (by omega)
  rwa [hsplit, List.length_take_of_le hj.le, Nat.zero_add, Nat.zero_add, ← hsum] at hstop

/-- Settles O41: ENCODE ends with its loop's fault, and a position of the input fits the information word. -/
theorem encodeFaultsAtTheFirstBadSymbol : Obligations.EncodeFaultsAtTheFirstBadSymbol := by
  intro s j c hvalid hlen hc hset hroom
  have hj : j < s.symLen.toNat := by
    simpa [State.codeInput] using (List.getElem?_eq_some_iff.1 hc).1
  have hposition : (BitVec.ofNat 32 j).toNat = j := Nat.mod_eq_of_lt (hj.trans s.symLen.isLt)
  obtain ⟨hnoCode, hoverflow⟩ := encodeLoop_error_at hc hset hroom
  exact ⟨fun hunset => ⟨_, _, hposition, execEncode_of_error hvalid hlen (hnoCode hunset)⟩,
    fun hcode hover => ⟨_, _, hposition, execEncode_of_error hvalid hlen (hoverflow hcode hover)⟩⟩

end Sys2Proof.Machine
end

section
/-! SUPPORT. The decoder (45_decoder.md R180 to R182): how DECODE ends past its first tests, by the symbols its turns emit
and the node they stop at, and where the turns stop on whole codes and inside a code. -/

namespace Sys2Proof.HTree

/-- The codes of one symbol sequence after those of another. -/
theorem spells_append (t : HTree) (q more : List Byte) : t.spells (q ++ more) = t.spells q ++ t.spells more :=
  List.flatMap_append

/-- The code of one symbol, `n` times. -/
theorem spells_replicate (t : HTree) {c : Byte} {p : List Bool} (hc : t.path? c = some p) (n : Nat) :
    t.spells (List.replicate n c) = (List.replicate n p).flatten := by
  rw [spells, List.flatMap_replicate, hc, Option.getD_some]

end Sys2Proof.HTree

namespace Sys2Proof.Machine

/-- `tr` is the valid tree of `s` (R24, R38, R39). -/
structure State.HoldsTree (s : State) (tr : HTree) : Prop where
  inv : s.TreeInv
  valid : s.treeValid = true
  tree : s.tree = some tr

/-- R39: the tree is read from `ROOT`, which is an interior node, through slots that are all different. -/
theorem State.HoldsTree.reads {s : State} {tr : HTree} (h : s.HoldsTree tr) :
    Reads s.node s.root tr s.treeSlots ∧ tr.isInterior = true ∧ s.treeSlots.Nodup ∧ s.leavesAtHome := by
  obtain ⟨⟨t, htree, -, hinterior⟩, hhome, hnodup, -⟩ := h.inv.valid h.valid
  obtain rfl : t = tr := Option.some.inj (htree.symm.trans h.tree)
  exact ⟨(reads_of_treeAt htree).1, hinterior, hnodup, hhome⟩

/-- The root's slot is visited first, and in a tree without a slot twice never again (R39 (e)). -/
theorem Reads.root_notMem_tail {node : Memory Node} {i : Link} {t : HTree} {sl : List Nat} (h : Reads node i t sl)
    (nd : sl.Nodup) : i.toNat ∉ sl.tail := by
  cases h with
  | leaf => simp
  | interior => exact (List.nodup_cons.1 nd).1

/-- R180: DECODE stores `syms` from element 0 of `SYM` on and completes. -/
abbrev State.Delivers (s : State) (syms : List Byte) : Prop :=
  ∃ t, exec .decode s = .next t ∧ t.symLen.toNat = syms.length ∧
    (∀ i, t.sym.read? i = if i < syms.length then syms[i]? else s.sym.read? i) ∧
    t = { s with sym := t.sym, symLen := t.symLen, draws := t.draws, done := true, seq := .idle }

/-- R222, R223: DECODE faults with the cause code `code` and the information `n`. -/
abbrev State.DecodeFaults (s : State) (code : Byte) (n : Nat) : Prop :=
  ∃ d w, w.toNat = n ∧ exec .decode s = .next { s with
    symLen := 0, sym := [], draws := d, errCode := code, errInfo := w, err := true, seq := .idle }

/-- R180, R181: past its first tests DECODE ends as its turns do. -/
theorem State.HoldsTree.decode_ends {s : State} {tr : HTree} (h : s.HoldsTree tr)
    (hlen : s.bitLen.toNat ≤ s.params.bitCap) {syms : List Byte} {last : Link}
    (hrun : decodeBits s.node s.root (s.bitInput s.bitLen.toNat) s.root = some (syms, last)) :
    (last ≠ s.root → s.DecodeFaults 11 syms.length) ∧
    (last = s.root → s.params.symCap < syms.length → s.DecodeFaults 10 syms.length) ∧
    (last = s.root → syms.length ≤ s.params.symCap → s.Delivers syms) := by
  rcases execDecode_cases s h.inv with ⟨hnone, -⟩ | ⟨-, hlong, -⟩ | ⟨-, -, syms', last', hrun', hle, hends⟩
  · exact absurd (hnone.symm.trans h.valid) (by decide)
  · exact absurd hlen (Nat.not_le.2 hlong)
  · obtain ⟨rfl, rfl⟩ : syms' = syms ∧ last' = last := by simpa using hrun'.symm.trans hrun
    have hnum : (BitVec.ofNat 32 syms'.length).toNat = syms'.length :=
      Nat.mod_eq_of_lt (hle.trans_lt s.bitLen.isLt)
    rcases hends with ⟨hlast, e⟩ | ⟨hlast, hfull, e⟩ | ⟨hlast, hroom, e⟩
    · exact ⟨fun _ => ⟨_, _, hnum, e⟩, fun hl => absurd hl hlast, fun hl => absurd hl hlast⟩
    · exact ⟨fun hl => absurd hlast hl, fun _ _ => ⟨_, _, hnum, e⟩, fun _ hr => absurd hr (Nat.not_le.2 hfull)⟩
    · exact ⟨fun hl => absurd hlast hl, fun _ hf => absurd hroom (Nat.not_le.2 hf),
        fun _ _ => ⟨_, e, hnum, Memory.read?_writePrefix s.sym syms', rfl⟩⟩

/-- Settles O42: whole codes emit their symbols and leave the cursor at the root. -/
theorem decodeInvertsTheCodes : Obligations.DecodeInvertsTheCodes := by
  intro s tr q _ hinv hvalid htree hlen hq hbits
  have h : s.HoldsTree tr := ⟨hinv, hvalid, htree⟩
  obtain ⟨hreads, hinterior, -, -⟩ := h.reads
  have hrun : decodeBits s.node s.root (s.bitInput s.bitLen.toNat) s.root = some (q, s.root) := by
    simpa [decodeBits, ← hbits] using decodeBits_paths hreads hinterior q hq []
  obtain ⟨-, hoverflow, hdelivers⟩ := h.decode_ends hlen hrun
  exact ⟨hdelivers rfl, hoverflow rfl⟩

/-- Settles O43: a proper part of a code leaves the cursor below the root, in another slot. -/
theorem decodeDetectsABrokenCode : Obligations.DecodeDetectsABrokenCode := by
  intro s tr q c part more _ hinv hvalid htree hlen hq hc hpart hmore hbits
  have h : s.HoldsTree tr := ⟨hinv, hvalid, htree⟩
  obtain ⟨hreads, hinterior, hnodup, -⟩ := h.reads
  obtain ⟨last, hrunPart, hbelow⟩ := decodeBits_part (root := s.root) hreads hinterior hc hpart hmore
  have hrun : decodeBits s.node s.root (s.bitInput s.bitLen.toNat) s.root = some (q, last) := by
    rw [hbits, decodeBits_paths hreads hinterior q hq, hrunPart]
    simp
  obtain ⟨hcorrupt, -, -⟩ := h.decode_ends hlen hrun
  refine hcorrupt ?_
  rintro rfl
  exact hreads.root_notMem_tail hnodup hbelow

/-- Settles O44: the zeros spell the codes of `more` and a part of a code, so DECODE meets the codes of `q ++ more`, whole
(O42) or followed by that part (O43). -/
theorem paddingIsDecodedAsData : Obligations.PaddingIsDecodedAsData := by
  intro s tr q n hparams hinv hvalid htree hlen hq hbits
  obtain ⟨hreads, hinterior, hnodup, hhome⟩ := State.HoldsTree.reads ⟨hinv, hvalid, htree⟩
  constructor
  · obtain ⟨more, part, hcount, hmore, hzeros, hpart⟩ :=
      HTree.spells_total hinterior (hreads.leaves_nodup hhome hnodup) (List.replicate n false)
    have hall : ∀ c ∈ q ++ more, (tr.path? c).isSome = true :=
      fun c hc => (List.mem_append.1 hc).elim (hq c) (hmore c)
    have hspelled : s.bitInput s.bitLen.toNat = tr.spells (q ++ more) ++ part := by
      rw [hbits, ← hzeros, tr.spells_append, List.append_assoc]
    refine ⟨more, part, by simpa using hcount, hmore, hzeros, ?_⟩
    rw [← List.length_append]
    rcases hpart with rfl | ⟨c, rest, hpart, hrest, hc⟩
    · obtain ⟨hdelivers, hoverflow⟩ :=
        decodeInvertsTheCodes s tr (q ++ more) hparams hinv hvalid htree hlen hall (by rw [hspelled, List.append_nil])
      rcases Nat.lt_or_ge s.params.symCap (q ++ more).length with hfull | hroom
      · exact .inr (.inl ⟨rfl, hfull, hoverflow hfull⟩)
      · exact .inl ⟨rfl, hroom, hdelivers hroom⟩
    · exact .inr (.inr ⟨c, rest, hpart, hrest, hc, decodeDetectsABrokenCode s tr (q ++ more) c part rest hparams hinv
        hvalid htree hlen hall hc hpart hrest hspelled⟩)
  · intro c hc hroom
    have hall : ∀ a ∈ q ++ List.replicate n c, (tr.path? a).isSome = true := fun a ha =>
      (List.mem_append.1 ha).elim (hq a) fun ha => by simp [List.eq_of_mem_replicate ha, hc]
    have hspelled : s.bitInput s.bitLen.toNat = tr.spells (q ++ List.replicate n c) := by
      rw [hbits, tr.spells_append, tr.spells_replicate hc n]
      simp
    have hcount : (q ++ List.replicate n c).length = q.length + n := by simp
    obtain ⟨t, ht, htlen, hsym, hframe⟩ :=
      (decodeInvertsTheCodes s tr _ hparams hinv hvalid htree hlen hall hspelled).1 (hcount ▸ hroom)
    exact ⟨t, ht, (congrArg State.err hframe :), htlen.trans hcount, fun i hi =>
      (hsym i).trans (if_pos (hcount ▸ hi))⟩

end Sys2Proof.Machine
end

section
/-! SUPPORT. What the commands of a round trip leave when they do not fault (45_decoder.md R183, 47_bit_packer.md R203): the
tree BUILD leaves, the table DERIVE makes of it, and the contents of `SYM`, `BIT` and `BYTE` as sequences from element 0. -/

namespace Sys2Proof.Machine

/-- The elements from index 0 on are `l` (R43 to R45). -/
abbrev Memory.StartsWith {α : Type} (m : Memory α) (l : List α) : Prop := ∀ i, i < l.length → m.read? i = l[i]?

/-- R180, R200, R201: a sequence stored from element 0 on. -/
theorem Memory.startsWith_writePrefix {α : Type} (m : Memory α) (l : List α) : (m.writePrefix l).StartsWith l :=
  fun i hi => (Memory.read?_writePrefix m l i).trans (if_pos hi)

theorem Memory.StartsWith.take {α : Type} {m : Memory α} {l : List α} (h : m.StartsWith l) (n : Nat) :
    m.StartsWith (l.take n) := by
  intro i hi
  rw [List.length_take, lt_min_iff] at hi
  rw [h i hi.2, List.getElem?_take_of_lt hi.1]

/-- R254: written elements are read as they are, whatever the free values. -/
theorem Memory.StartsWith.map_getD {α : Type} {m : Memory α} {l : List α} (h : m.StartsWith l) (free : Nat → α) :
    (List.range l.length).map (fun i => (m.read? i).getD (free i)) = l := by
  refine List.ext_getElem (by simp) fun i _ hi => ?_
  simp [h i hi, hi]

section
variable {s : State}

theorem State.symInput_of_startsWith {l : List Byte} (h : s.sym.StartsWith l) : s.symInput l.length = l :=
  h.map_getD fun i => BitVec.ofNat 8 (Config.draw (s.draws + i))

theorem State.bitInput_of_startsWith {l : List Bool} (h : s.bit.StartsWith l) : s.bitInput l.length = l :=
  h.map_getD fun i => (Config.draw (s.draws + i)).testBit 0

theorem State.byteInput_of_startsWith {l : List Byte} (h : s.byte.StartsWith l) : s.byteInput l.length = l :=
  h.map_getD fun i => BitVec.ofNat 8 (Config.draw (s.draws + i))

@[simp] theorem State.length_symInput (n : Nat) : (s.symInput n).length = n := by simp [State.symInput]

/-- R43, R254: `SYM` holds what a command reads of its written elements. -/
theorem State.sym_startsWith_symInput {n : Nat} (hwritten : ∀ i, i < n → (s.sym.read? i).isSome = true) :
    s.sym.StartsWith (s.symInput n) := by
  intro i hi
  rw [State.length_symInput] at hi
  obtain ⟨y, hy⟩ := Option.isSome_iff_exists.1 (hwritten i hi)
  rw [hy, ((inputsReadWhatWasWritten s n i hi).1 y hy).1]

/-- R254: written symbols are read alike wherever `SYM` is kept. -/
theorem State.symInput_congr {t : State} {n : Nat} (hwritten : ∀ i, i < n → (s.sym.read? i).isSome = true)
    (hsym : t.sym = s.sym) : t.symInput n = s.symInput n := by
  have hstart : t.sym.StartsWith (s.symInput n) := hsym ▸ State.sym_startsWith_symInput hwritten
  simpa using State.symInput_of_startsWith hstart

/-- R40, R170: with the table of a tree ENCODE looks up the entries of the symbols in it. -/
theorem State.codeInput_of_table {tr : HTree} (htable : ∀ c : Byte, s.code.read? c.toNat = some (codeOf tr c))
    (n : Nat) : s.codeInput n = (s.symInput n).map (codeOf tr) := by
  simp [State.codeInput, State.symInput, State.codeAt, htable]

end

/-- R200, R201, R203: the bits of the packed bytes start with the bits that were packed. -/
theorem take_unpackBytes_packBits (bits : List Bool) : (unpackBytes (packBits bits)).take bits.length = bits := by
  have hroom : bits.length ≤ 8 * byteCount bits.length := by
    simp only [byteCount]
    omega
  refine List.ext_getElem (by simpa using hroom) fun i _ hi => ?_
  have hbit : (unpackBytes (packBits bits))[i]? = some bits[i] := by
    rw [unpackBytes_getElem? _ i (by rw [length_packBits]; omega), List.getD_eq_getElem?_getD,
      packBits_getElem? bits _ (by omega), Option.getD_some, packByte_bit bits _ _ (Nat.mod_lt i (by decide)),
      Nat.div_add_mod]
    simp [hi]
  rw [List.getElem_take]
  exact (List.getElem?_eq_some_iff.1 hbit).2

/-! The commands of a round trip, one by one. -/

section
variable {s t : State}

/-- R222, R226: no command but RESET lowers `ERR`. -/
theorem err_eq_false_of_exec {i : Instr} (h : exec i s = .next t) (hi : i ≠ .reset) (ht : t.err = false) :
    s.err = false := by
  obtain ⟨u, rfl | ⟨c, info, rfl⟩, hu⟩ := exec_endsIn h hi
  · exact (congrArg State.err hu).symm.trans ht
  · cases ht

/-- R94: `SYM` and `SYM_LEN` are DECODE's to write. -/
theorem exec_keeps_syms {i : Instr} (h : exec i s = .next t) (hreset : i ≠ .reset) (hdecode : i ≠ .decode) :
    t.sym = s.sym ∧ t.symLen = s.symLen := by
  rw [exec_writes h]
  exact State.withWrites_syms hreset hdecode

/-- R94: `BYTE` and `BYTE_LEN` are PACK's to write. -/
theorem exec_keeps_bytes {i : Instr} (h : exec i s = .next t) (hreset : i ≠ .reset) (hpack : i ≠ .pack) :
    t.byte = s.byte ∧ t.byteLen = s.byteLen := by
  rw [exec_writes h]
  exact State.withWrites_bytes hreset hpack

/-- R7: no command changes the parameters (log 3). -/
theorem exec_keeps_params {i : Instr} (h : exec i s = .next t) (hreset : i ≠ .reset) : t.params = s.params := by
  obtain ⟨-, -, hparams, -⟩ := State.withWrites_hostState (s := s) (t := t) hreset
  rw [exec_writes h]
  exact hparams

/-- FREQ_COUNT keeps every number within its width (R191, R271). -/
theorem freqCount_widthInv (hw : s.WidthInv) (h : exec .freqCount s = .next t) : t.WidthInv := by
  simp only [exec, execFreqCount] at h
  split_ifs at h <;> cases h
  · exact ⟨fun c hc => mem_tally hc, hw.2⟩
  · exact hw

/-- R140: BUILD without a fault. -/
theorem build_of_noFault (h : exec .build s = .next t) (ht : t.err = false) :
    2 ≤ s.positiveCounts.length ∧ t = ({ s with
      node := s.merged.node, pq := s.merged.pq, pqCap := BitVec.ofNat 9 Config.pqDepth
      root := s.merged.root, treeValid := true } : State).complete := by
  rcases Nat.lt_or_ge s.positiveCounts.length 2 with hfew | htwo
  · cases (execBuild_of_few hfew).symm.trans h
    cases ht
  · exact ⟨htwo, (Host.Outcome.next.inj ((execBuild_of_two htwo).symm.trans h)).symm⟩

/-- R200: PACK without a fault leaves the packed bytes. -/
theorem pack_of_noFault {bits : List Bool} (hparams : s.params.ok) (hlen : s.bitLen.toNat = bits.length)
    (hbits : s.bit.StartsWith bits) (h : exec .pack s = .next t) (ht : t.err = false) :
    t.byteLen.toNat = (packBits bits).length ∧ t.byte.StartsWith (packBits bits) := by
  obtain ⟨-, -, -, -, hcap⟩ := hparams
  simp only [exec, execPack, hlen, State.bitInput_of_startsWith hbits] at h
  split_ifs at h with _ hroom <;> cases h
  · exact ⟨(Nat.mod_eq_of_lt (by omega)).trans (length_packBits bits).symm, Memory.startsWith_writePrefix _ _⟩
  · cases ht
  · cases ht

/-- R201: UNPACK without a fault leaves the bits of the bytes. -/
theorem unpack_of_noFault {bytes : List Byte} (hlen : s.byteLen.toNat = bytes.length)
    (hbytes : s.byte.StartsWith bytes) (h : exec .unpack s = .next t) (ht : t.err = false) :
    t.bit.StartsWith (unpackBytes bytes) := by
  simp only [exec, execUnpack, hlen, State.byteInput_of_startsWith hbytes] at h
  split_ifs at h <;> cases h
  · exact Memory.startsWith_writePrefix _ _
  · cases ht
  · cases ht

/-- A tree is held as long as its registers and its store are kept (R39). -/
theorem State.HoldsTree.of_sameTree {tr : HTree} (h : s.HoldsTree tr) (same : s.SameTree t) : t.HoldsTree tr := by
  obtain ⟨hnode, hroot, hvalid⟩ := same
  exact ⟨h.inv.of_eq hnode hroot hvalid, hvalid.trans h.valid, by rw [State.tree, hnode, hroot]; exact h.tree⟩

/-- R39, R147: BUILD without a fault leaves a tree. -/
theorem build_holdsTree (hw : s.WidthInv) (h : exec .build s = .next t) (ht : t.err = false) :
    ∃ tr, t.HoldsTree tr := by
  obtain ⟨htwo, rfl⟩ := build_of_noFault h ht
  obtain ⟨tr, htree, hwf, hinterior, -, hnodup, hhome, hlow, hhigh⟩ := State.merged_treeInv hw htwo
  exact ⟨tr, ⟨fun _ => ⟨⟨tr, htree, hwf, hinterior⟩, hhome, hnodup, hlow, hhigh⟩, fun hv => by cases hv⟩, rfl, htree⟩

/-- R147: BUILD's tree lies in the slots below the next free one. -/
theorem State.merged_slots_below (hw : s.WidthInv) (htwo : 2 ≤ s.positiveCounts.length) {tr : HTree} {sl : List Nat}
    (hr : Reads s.merged.node s.merged.root tr sl) : ∀ j ∈ sl, j < s.merged.next := by
  obtain ⟨cands, forest, hlen, -⟩ := s.mergeStart_forest fun i _ => s.freqAt_lt hw i
  have most := s.length_positiveCounts
  obtain ⟨_, _, hr', -, -, -, -, -, hbelow, -⟩ :=
    forest.loop most Config.alphabet (hlen ▸ most) (List.ne_nil_of_length_pos (by omega))
  obtain ⟨-, rfl⟩ := hr.unique hr'
  exact hbelow

/-- R147 (k): equal counts make BUILD leave the same tree. -/
theorem build_holdsTree_congr {s' t' : State} {tr : HTree} (hw : s.WidthInv) (hw' : s'.WidthInv)
    (hfw : s.params.fw = s'.params.fw) (hfreq : ∀ i, i < 256 → s.freqAt i = s'.freqAt i)
    (h : exec .build s = .next t) (ht : t.err = false) (h' : exec .build s' = .next t') (ht' : t'.err = false)
    (htree : t.HoldsTree tr) : t'.HoldsTree tr := by
  obtain ⟨tr', htree'⟩ := build_holdsTree hw' h' ht'
  obtain ⟨hreads, -⟩ := htree.reads
  obtain ⟨hreads', -⟩ := htree'.reads
  obtain ⟨htwo, rfl⟩ := build_of_noFault h ht
  obtain ⟨-, rfl⟩ := build_of_noFault h' ht'
  obtain ⟨hroot, hslots⟩ := State.merged_congr hfreq hfw
  have hcopied : Reads s'.merged.node s'.merged.root tr _ :=
    hroot ▸ hreads.congr fun j hj => (hslots j (State.merged_slots_below hw htwo hreads j hj)).symm
  obtain ⟨rfl, -⟩ := hcopied.unique hreads'
  exact htree'

/-- R160, R161: DERIVE records the paths of the tree the block holds. -/
theorem derive_of_holdsTree {tr : HTree} (htree : s.HoldsTree tr) (h : exec .derive s = .next t) :
    tr.depth ≤ 255 ∧ ∀ c : Byte, t.code.read? c.toNat = some (codeOf tr c) := by
  rcases execDerive_cases s htree.inv with ⟨hnone, -⟩ | ⟨-, tr', code, htree', -, hdepth, -, hcode, -, e⟩
  · exact absurd (hnone.symm.trans htree.valid) (by decide)
  · obtain rfl : tr' = tr := Option.some.inj (htree'.symm.trans htree.tree)
    cases e.symm.trans h
    exact ⟨hdepth, hcode⟩

/-- The bit string of `s` is the codes of `q` in the tree `tr`, all of it written and within the capacity (R44, R170). -/
structure State.HoldsCodes (s : State) (tr : HTree) (q : List Byte) : Prop where
  coded : ∀ c ∈ q, (tr.path? c).isSome = true
  length : s.bitLen.toNat = (tr.spells q).length
  fits : s.bitLen.toNat ≤ s.params.bitCap
  bits : s.bit.StartsWith (tr.spells q)

/-- R170: ENCODE with the table of a tree, without a fault, leaves the codes of its symbols. -/
theorem encode_holdsCodes {tr : HTree} (hparams : s.params.ok) (hdepth : tr.depth ≤ 255)
    (htable : ∀ c : Byte, s.code.read? c.toNat = some (codeOf tr c)) (h : exec .encode s = .next t)
    (ht : t.err = false) : t.HoldsCodes tr (s.symInput s.symLen.toNat) := by
  obtain ⟨-, -, ⟨-, hcap⟩, -⟩ := hparams
  rcases execEncode_cases s with ⟨-, e⟩ | ⟨-, -, e⟩ | ⟨-, -, ⟨_, _, -, -, e⟩ | ⟨hroom, hset, e⟩⟩ <;>
    cases e.symm.trans h
  · cases ht
  · cases ht
  · cases ht
  · rw [State.codeInput_of_table htable] at hroom hset ⊢
    set q := s.symInput s.symLen.toNat
    have hpath : ∀ c ∈ q, tr.path? c = some (codeOf tr c).string := fun c hc =>
      path?_of_codeOf hdepth (hset _ (List.mem_map_of_mem hc))
    have hbits : (q.map (codeOf tr)).flatMap Code.string = tr.spells q := by
      rw [List.flatMap_map]
      exact List.flatMap_congr fun c hc => by rw [hpath c hc, Option.getD_some]
    have hlength := length_flatMap_string (q.map (codeOf tr))
    have hbitLen : ∀ n, n ≤ s.params.bitCap → (BitVec.ofNat 32 n).toNat = n := fun n hn => Nat.mod_eq_of_lt (by omega)
    refine ⟨fun c hc => by simp [hpath c hc], ?_, ?_, fun i _ => ?_⟩
    · exact (hbitLen _ hroom).trans (hlength.symm.trans (congrArg List.length hbits))
    · exact (hbitLen _ hroom).trans_le hroom
    · exact (Memory.read?_listFrom_zero _ i).trans (by rw [hbits])

end

end Sys2Proof.Machine
end

section
/-! SUPPORT. The round trips (45_decoder.md R183, 47_bit_packer.md R203, 70_reset_and_hazards.md R255, R257): what one block
compresses it decompresses, and so does another block that builds the same tree. -/

namespace Sys2Proof.Machine

variable {s s1 s2 s3 s4 : State}

/-- R183: after FREQ_COUNT, BUILD, DERIVE and ENCODE without a fault a block still holds BUILD's tree, and the codes of its
symbols in that tree. -/
theorem compress_holds (hinv : s.Inv) (hwritten : ∀ i, i < s.symLen.toNat → (s.sym.read? i).isSome = true)
    (hcount : exec .freqCount s = .next s1) (hbuild : exec .build s1 = .next s2) (hderive : exec .derive s2 = .next s3)
    (hencode : exec .encode s3 = .next s4) (h4 : s4.err = false) :
    s4.params = s.params ∧
      ∃ tr, s2.HoldsTree tr ∧ s4.HoldsTree tr ∧ s4.HoldsCodes tr (s.symInput s.symLen.toNat) := by
  have h3 := err_eq_false_of_exec hencode (by decide) h4
  have h2 := err_eq_false_of_exec hderive (by decide) h3
  obtain ⟨tr, htree⟩ := build_holdsTree (freqCount_widthInv hinv.width hcount) hbuild h2
  have htree4 := (htree.of_sameTree (execDerive_sameTree hderive)).of_sameTree
    (exec_sameTree_sameTable hencode (by decide)).1
  obtain ⟨hdepth, htable⟩ := derive_of_holdsTree htree hderive
  obtain ⟨hsym1, hlen1⟩ := exec_keeps_syms hcount (by decide) (by decide)
  obtain ⟨hsym2, hlen2⟩ := exec_keeps_syms hbuild (by decide) (by decide)
  obtain ⟨hsym3, hlen3⟩ := exec_keeps_syms hderive (by decide) (by decide)
  have hparams : s3.params = s.params := (exec_keeps_params hderive (by decide)).trans
    ((exec_keeps_params hbuild (by decide)).trans (exec_keeps_params hcount (by decide)))
  have hinput : s3.symInput s3.symLen.toNat = s.symInput s.symLen.toNat := by
    rw [hlen3, hlen2, hlen1]
    exact State.symInput_congr hwritten (hsym3.trans (hsym2.trans hsym1))
  exact ⟨(exec_keeps_params hencode (by decide)).trans hparams, tr, htree, htree4,
    hinput ▸ encode_holdsCodes (hparams ▸ hinv.paramsOk) hdepth htable hencode h4⟩

/-- R180, R183: DECODE of the codes of the written symbols of `s` reproduces them. -/
theorem decode_reproduces {u : State} {tr : HTree} (hinv : s.Inv) (hfit : s.symLen.toNat ≤ s.params.symCap)
    (hwritten : ∀ i, i < s.symLen.toNat → (s.sym.read? i).isSome = true) (hparams : u.params = s.params)
    (htree : u.HoldsTree tr) (hcodes : u.HoldsCodes tr (s.symInput s.symLen.toNat)) (herr : u.err = false) :
    ∃ t, exec .decode u = .next t ∧ t.err = false ∧ t.symLen = s.symLen ∧
      ∀ i, i < s.symLen.toNat → t.sym.read? i = s.sym.read? i := by
  have hbits : u.bitInput u.bitLen.toNat = tr.spells (s.symInput s.symLen.toNat) :=
    hcodes.length ▸ State.bitInput_of_startsWith hcodes.bits
  obtain ⟨t, hdecode, hlen, hsym, hframe⟩ := (decodeInvertsTheCodes u tr _ (hparams ▸ hinv.paramsOk) htree.inv
    htree.valid htree.tree hcodes.fits hcodes.coded hbits).1 (by rw [State.length_symInput, hparams]; exact hfit)
  rw [State.length_symInput] at hlen hsym
  refine ⟨t, hdecode, (congrArg State.err hframe).trans herr, BitVec.eq_of_toNat_eq hlen, fun i hi => ?_⟩
  rw [hsym, if_pos hi, State.sym_startsWith_symInput hwritten i (by simpa using hi)]

/-- Settles O49: the block still holds the tree and the codes it made with it. That BUILD saw two symbols follows from
`ERR = 0` at the end. -/
theorem compressThenDecodeRoundTrip : Obligations.CompressThenDecodeRoundTrip := by
  intro s s1 s2 s3 s4 hinv _ hfit hwritten _ hcount hbuild hderive hencode h4
  obtain ⟨hparams, tr, -, htree, hcodes⟩ := compress_holds hinv hwritten hcount hbuild hderive hencode h4
  exact decode_reproduces hinv hfit hwritten hparams htree hcodes h4

/-- Settles O50: the other block builds the same tree, and its unpacked bits start with the codes. -/
theorem anotherBlockDecompresses : Obligations.AnotherBlockDecompresses := by
  intro s s1 s2 s3 s4 s5 r r1 r2 hinv _ hfit hwritten hcount hbuild hderive hencode hpack h5 hrinv _ hrparams hfreq
    hbyteLen hbytes hrbuild hunpack hr2
  have h4 := err_eq_false_of_exec hpack (by decide) h5
  have h2 := err_eq_false_of_exec hderive (by decide) (err_eq_false_of_exec hencode (by decide) h4)
  have hr1 := err_eq_false_of_exec hunpack (by decide) hr2
  obtain ⟨hparams4, tr, htree, -, hcodes⟩ := compress_holds hinv hwritten hcount hbuild hderive hencode h4
  have hparams1 : s1.params = s.params := exec_keeps_params hcount (by decide)
  have hrparams2 : r2.params = s.params :=
    (exec_keeps_params hunpack (by decide)).trans ((exec_keeps_params hrbuild (by decide)).trans hrparams)
  have htreeR : r2.HoldsTree tr :=
    (build_holdsTree_congr (freqCount_widthInv hinv.width hcount) hrinv.width (by rw [hparams1, hrparams])
      (fun i hi => (hfreq i hi).symm) hbuild h2 hrbuild hr1 htree).of_sameTree
      (exec_sameTree_sameTable hunpack (by decide)).1
  obtain ⟨hpackLen, hpacked⟩ := pack_of_noFault (hparams4 ▸ hinv.paramsOk) hcodes.length hcodes.bits hpack h5
  obtain ⟨hrbyte, hrbyteLen⟩ := exec_keeps_bytes hrbuild (by decide) (by decide)
  have hsent : r1.byte.StartsWith (packBits (tr.spells (s.symInput s.symLen.toNat))) := fun k hk => by
    rw [hrbyte, hbytes k (hpackLen ▸ hk), hpacked k hk]
  have hunpacked := unpack_of_noFault (by rw [hrbyteLen, hbyteLen, hpackLen]) hsent hunpack hr2
  refine decode_reproduces hinv hfit hwritten hrparams2 (htreeR.of_sameTree ⟨rfl, rfl, rfl⟩)
    ⟨hcodes.coded, hcodes.length, ?_, take_unpackBytes_packBits (tr.spells _) ▸ hunpacked.take _⟩ hr2
  have hfits := hcodes.fits
  rwa [hparams4, ← hrparams2] at hfits

end Sys2Proof.Machine
end

section
/-! SUPPORT. The frequency table (46_frequency.md): how FREQ_COUNT ends, that no count of its input loses a bit, and that
the counts over the alphabet add up to the length. -/

namespace Sys2Proof.Machine

/-- Settles O24: an empty list of counts reads 0 everywhere. -/
theorem freqClearZeroesTheTable : Obligations.FreqClearZeroesTheTable :=
  fun _ => ⟨_, rfl, fun _ => rfl, rfl⟩

/-- R191: FREQ_COUNT of symbols that `SYM` holds. -/
theorem execFreqCount_of_room {s : State} (h : s.symLen.toNat ≤ s.params.symCap) :
    execFreqCount s = .next ({ s with
      freq := tally s.params (s.symInput s.symLen.toNat) }.useDraws s.symLen.toNat).complete :=
  if_pos h

/-- R191: FREQ_COUNT of more symbols than `SYM` holds. -/
theorem execFreqCount_of_long {s : State} (h : s.params.symCap < s.symLen.toNat) :
    execFreqCount s = .next (s.raise .len s.symLen) :=
  if_neg (Nat.not_le.2 h)

/-- R191: a sequence shorter than `2 ^ FW` is tallied exactly. -/
theorem tally_read_of_lt {p : Params} {l : List Byte} (h : l.length < 2 ^ p.fw) (c : Byte) :
    ((tally p l).read? c.toNat).getD 0 = l.count c :=
  (tally_read p l c).trans (Nat.mod_eq_of_lt (List.count_le_length.trans_lt h))

/-- R191: a table that holds the count of every symbol of a sequence sums to its length. -/
theorem sum_counts_eq_length {l : List Byte} {f : Nat → Nat} (hf : ∀ c : Byte, f c.toNat = l.count c) :
    ((List.range Config.alphabet).map f).sum = l.length := by
  set m := (l : Multiset Byte).map BitVec.toNat
  have hcount : ∀ i ∈ Finset.range Config.alphabet, f i = m.count i := fun i hi => by
    have hbyte : (BitVec.ofNat 8 i).toNat = i := Nat.mod_eq_of_lt (Finset.mem_range.1 hi)
    rw [← hbyte, hf, Multiset.count_map_eq_count' _ _ (fun _ _ => BitVec.eq_of_toNat_eq), Multiset.coe_count]
  have hmem : ∀ i ∈ m, i ∈ Finset.range Config.alphabet := fun i hi => by
    obtain ⟨c, -, rfl⟩ := Multiset.mem_map.1 hi
    exact Finset.mem_range.2 c.isLt
  calc ((List.range Config.alphabet).map f).sum
      = ∑ i ∈ Finset.range Config.alphabet, f i := rfl
    _ = ∑ i ∈ Finset.range Config.alphabet, m.count i := Finset.sum_congr rfl hcount
    _ = m.card := Multiset.sum_count_eq_card hmem
    _ = l.length := Multiset.card_map _ _

/-- Settles O25: under R7 the input is shorter than `2 ^ FW`, so its tally is exact and sums to its length. -/
theorem freqCountTallies : Obligations.FreqCountTallies := by
  intro s ⟨_, ⟨_, hfw, _⟩, _⟩
  refine ⟨fun hroom => ?_, fun hlong => execFreqCount_of_long hlong⟩
  have hlength : (s.symInput s.symLen.toNat).length = s.symLen.toNat := State.length_symInput _
  have hcounts := tally_read_of_lt (hlength.trans_lt (hroom.trans_lt hfw))
  exact ⟨_, execFreqCount_of_room hroom, fun c => congrArg some (hcounts c),
    (sum_counts_eq_length hcounts).trans hlength, rfl⟩

end Sys2Proof.Machine
end

section
/-! SUPPORT. The packer and the unpacker (47_bit_packer.md R200 to R203): an equation for each way each ends, and that each
undoes the other on written elements. -/

namespace Sys2Proof.Machine

section
variable {s : State}

/-- R200: PACK of more bits than `BIT` holds. -/
theorem execPack_of_long (h : s.params.bitCap < s.bitLen.toNat) :
    execPack s = .next (s.dropBytes.raise .len s.bitLen) := by
  simp [execPack, Nat.not_le.2 h]

/-- R200: PACK into more bytes than `BYTE` holds. -/
theorem execPack_of_full (hlen : s.bitLen.toNat ≤ s.params.bitCap)
    (hfull : s.params.byteCap < byteCount s.bitLen.toNat) :
    execPack s = .next (s.dropBytes.raise .overflow (BitVec.ofNat 32 (byteCount s.bitLen.toNat))) := by
  simp [execPack, hlen, Nat.not_le.2 hfull]

/-- R200: PACK of bits and into bytes that the buffers hold. -/
theorem execPack_of_room (hlen : s.bitLen.toNat ≤ s.params.bitCap)
    (hroom : byteCount s.bitLen.toNat ≤ s.params.byteCap) :
    execPack s = .next ({ s with
      byte := s.byte.writePrefix (packBits (s.bitInput s.bitLen.toNat))
      byteLen := BitVec.ofNat 32 (byteCount s.bitLen.toNat) }.useDraws s.bitLen.toNat).complete := by
  simp [execPack, hlen, hroom]

/-- R201: UNPACK of more bytes than `BYTE` holds. -/
theorem execUnpack_of_long (h : s.params.byteCap < s.byteLen.toNat) :
    execUnpack s = .next (s.dropBits.raise .len s.byteLen) := by
  simp [execUnpack, Nat.not_le.2 h]

/-- R201: UNPACK into more bits than `BIT` holds. -/
theorem execUnpack_of_full (hlen : s.byteLen.toNat ≤ s.params.byteCap)
    (hfull : s.params.bitCap < 8 * s.byteLen.toNat) :
    execUnpack s = .next (s.dropBits.raise .overflow (BitVec.ofNat 32 (8 * s.byteLen.toNat))) := by
  simp [execUnpack, hlen, Nat.not_le.2 hfull]

/-- R201: UNPACK of bytes and into bits that the buffers hold. -/
theorem execUnpack_of_room (hlen : s.byteLen.toNat ≤ s.params.byteCap)
    (hroom : 8 * s.byteLen.toNat ≤ s.params.bitCap) :
    execUnpack s = .next ({ s with
      bit := s.bit.writePrefix (unpackBytes (s.byteInput s.byteLen.toNat))
      bitLen := BitVec.ofNat 32 (8 * s.byteLen.toNat) }.useDraws s.byteLen.toNat).complete := by
  simp [execUnpack, hlen, hroom]

@[simp] theorem State.length_bitInput (n : Nat) : (s.bitInput n).length = n := by simp [State.bitInput]

@[simp] theorem State.length_byteInput (n : Nat) : (s.byteInput n).length = n := by simp [State.byteInput]

/-- R44, R254: a command reads a written bit as it was written. -/
theorem State.bitInput_getD {n i : Nat} {b : Bool} (hi : i < n) (h : s.bit.read? i = some b) :
    (s.bitInput n).getD i false = b := by
  rw [List.getD_eq_getElem?_getD, (inputsReadWhatWasWritten s n i hi).2.1 b h, Option.getD_some]

/-- R45, R254: a command reads a written byte as it was written. -/
theorem State.byteInput_getD {n k : Nat} {y : Byte} (hk : k < n) (h : s.byte.read? k = some y) :
    (s.byteInput n).getD k 0 = y := by
  rw [List.getD_eq_getElem?_getD, (inputsReadWhatWasWritten s n k hk).2.2 y h, Option.getD_some]

end

/-- Settles O46: the stored bytes are `packBits`, bit by bit `packByte_bit`, and their number fits `BYTE_LEN` under R7. -/
theorem packPutsEightBitsToAByte : Obligations.PackPutsEightBitsToAByte := by
  intro s hparams
  obtain ⟨-, -, ⟨-, hbitCap⟩, -⟩ := hparams
  have hfits : s.bitLen.toNat ≤ s.params.bitCap →
      (BitVec.ofNat 32 (byteCount s.bitLen.toNat)).toNat = byteCount s.bitLen.toNat := fun hlen =>
    Nat.mod_eq_of_lt (by simp only [byteCount]; omega)
  refine ⟨execPack_of_long, fun hlen hfull => ⟨_, hfits hlen, execPack_of_full hlen hfull⟩, fun hlen hroom => ?_⟩
  set bits := s.bitInput s.bitLen.toNat
  have hcount : (packBits bits).length = byteCount s.bitLen.toNat := by simp [bits]
  have hread := Memory.read?_writePrefix s.byte (packBits bits)
  rw [hcount] at hread
  refine ⟨_, execPack_of_room hlen hroom, hfits hlen, fun k hk => ?_, fun k hk => ?_, rfl⟩
  · have hk : k < byteCount s.bitLen.toNat := hfits hlen ▸ hk
    refine ⟨packByte bits k, ?_, fun j => packByte_bit bits k j⟩
    exact (hread k).trans ((if_pos hk).trans (packBits_getElem? bits k (by simpa [bits] using hk)))
  · have hk : byteCount s.bitLen.toNat ≤ k := hfits hlen ▸ hk
    exact (hread k).trans (if_neg (Nat.not_lt.2 hk))

/-- Settles O47: the stored bits are `unpackBytes`, and their number fits `BIT_LEN` under R7. -/
theorem unpackTakesTheBitsOfTheBytes : Obligations.UnpackTakesTheBitsOfTheBytes := by
  intro s hparams
  obtain ⟨-, -, -, -, hbyteCap⟩ := hparams
  have hfits : s.byteLen.toNat ≤ s.params.byteCap →
      (BitVec.ofNat 32 (8 * s.byteLen.toNat)).toNat = 8 * s.byteLen.toNat := fun hlen =>
    Nat.mod_eq_of_lt (by omega)
  refine ⟨execUnpack_of_long, fun hlen hfull => ⟨_, hfits hlen, execUnpack_of_full hlen hfull⟩, fun hlen hroom => ?_⟩
  set bytes := s.byteInput s.byteLen.toNat
  have hcount : (unpackBytes bytes).length = 8 * s.byteLen.toNat := by simp [bytes]
  have hread := Memory.read?_writePrefix s.bit (unpackBytes bytes)
  rw [hcount] at hread
  refine ⟨_, execUnpack_of_room hlen hroom, hfits hlen, fun i hi => ?_, fun i hi => ?_, rfl⟩
  · have hi : i < 8 * s.byteLen.toNat := hfits hlen ▸ hi
    exact (hread i).trans ((if_pos hi).trans (unpackBytes_getElem? bytes i (by simpa [bytes] using hi)))
  · have hi : 8 * s.byteLen.toNat ≤ i := hfits hlen ▸ hi
    exact (hread i).trans (if_neg (Nat.not_lt.2 hi))

/-- R203: UNPACK after PACK leaves the bits PACK read, and 0 from there to the end of the last byte. -/
theorem unpack_after_pack {s : State} (hparams : s.params.ok) (hlen : s.bitLen.toNat ≤ s.params.bitCap)
    (hroom : (s.bitLen.toNat + 7) / 8 ≤ s.params.byteCap)
    (hback : 8 * ((s.bitLen.toNat + 7) / 8) ≤ s.params.bitCap) :
    ∃ t u, exec .pack s = .next t ∧ exec .unpack t = .next u ∧
      u.bitLen.toNat = 8 * ((s.bitLen.toNat + 7) / 8) ∧
      ∀ i, i < u.bitLen.toNat → u.bit.read? i = some ((s.bitInput s.bitLen.toNat).getD i false) := by
  obtain ⟨t, hpack, htlen, hbytes, -, hframe⟩ := (packPutsEightBitsToAByte s hparams).2.2 hlen hroom
  have htparams : t.params = s.params := (congrArg State.params hframe :)
  obtain ⟨u, hunpack, hulen, hbits, -⟩ := (unpackTakesTheBitsOfTheBytes t (htparams ▸ hparams)).2.2
    (by rwa [htlen, htparams]) (by rwa [htlen, htparams])
  refine ⟨t, u, hpack, hunpack, by rw [hulen, htlen], fun i hi => ?_⟩
  have hk : i / 8 < t.byteLen.toNat := by omega
  obtain ⟨y, hy, hybits⟩ := hbytes (i / 8) hk
  rw [hbits i hi, State.byteInput_getD hk hy, hybits _ (Nat.mod_lt i (by decide)), Nat.div_add_mod]

/-- R203: PACK after UNPACK leaves the bytes UNPACK read. -/
theorem pack_after_unpack {s : State} (hparams : s.params.ok) (hlen : s.byteLen.toNat ≤ s.params.byteCap)
    (hroom : 8 * s.byteLen.toNat ≤ s.params.bitCap) :
    ∃ t u, exec .unpack s = .next t ∧ exec .pack t = .next u ∧ u.byteLen = s.byteLen ∧
      ∀ k, k < s.byteLen.toNat → u.byte.read? k = some ((s.byteInput s.byteLen.toNat).getD k 0) := by
  obtain ⟨t, hunpack, htlen, hbits, -, hframe⟩ := (unpackTakesTheBitsOfTheBytes s hparams).2.2 hlen hroom
  have htparams : t.params = s.params := (congrArg State.params hframe :)
  obtain ⟨u, hpack, hulen, hbytes, -⟩ := (packPutsEightBitsToAByte t (htparams ▸ hparams)).2.2
    (by rwa [htlen, htparams]) (by rw [htlen, htparams]; omega)
  have hback : u.byteLen.toNat = s.byteLen.toNat := by omega
  refine ⟨t, u, hunpack, hpack, BitVec.eq_of_toNat_eq hback, fun k hk => ?_⟩
  obtain ⟨y, hy, hybits⟩ := hbytes k (hback ▸ hk)
  refine hy.trans (congrArg some (byte_ext fun j hj => ?_))
  have hi : 8 * k + j < t.bitLen.toNat := by omega
  rw [hybits j hj, State.bitInput_getD hi (hbits _ hi), show (8 * k + j) / 8 = k by omega,
    show (8 * k + j) % 8 = j by omega]

/-- Settles O48: the element read back is the one the first command read, which is the written one. -/
theorem packAndUnpackRoundTrip : Obligations.PackAndUnpackRoundTrip := by
  constructor
  · intro s hparams hlen hroom hback hwritten
    obtain ⟨t, u, hpack, hunpack, hulen, hbits⟩ := unpack_after_pack hparams hlen hroom hback
    refine ⟨t, u, hpack, hunpack, hulen, fun i hi => ?_, fun i hi hiu => ?_⟩
    · obtain ⟨b, hb⟩ := Option.isSome_iff_exists.1 (hwritten i hi)
      rw [hbits i (by omega), State.bitInput_getD hi hb, hb]
    · rw [hbits i hiu, List.getD_eq_default _ _ (by simpa using hi)]
  · intro s hparams hlen hroom hwritten
    obtain ⟨t, u, hunpack, hpack, hulen, hbytes⟩ := pack_after_unpack hparams hlen hroom
    refine ⟨t, u, hunpack, hpack, hulen, fun k hk => ?_⟩
    obtain ⟨y, hy⟩ := Option.isSome_iff_exists.1 (hwritten k hk)
    rw [hbytes k hk, State.byteInput_getD hk hy, hy]

end Sys2Proof.Machine
end

section
/-! SUPPORT. What a faulting command leaves (60_exceptions.md R221 to R223): a fault is a command's end from `ERR = 0` with
`ERR = 1`, which no completion is. -/

namespace Sys2Proof.Machine

section
variable {s t : State} (herr : s.err = false) (ht : t.err = true)
include herr ht

/-- R221, R223: DERIVE faults without a tree only. -/
theorem execDerive_fault (h : execDerive s = .next t) : t = s.dropTable.raise .noTree 0 := by
  simp only [execDerive] at h
  split at h
  · split at h <;> cases h
    exact absurd (herr.symm.trans ht) Bool.false_ne_true
  · cases h
    rfl

/-- R221, R223: ENCODE's causes. -/
theorem execEncode_fault (h : execEncode s = .next t) :
    ∃ c ∈ [Cause.noTable, .noCode, .len, .overflow], ∃ n info, t = (s.dropBits.useDraws n).raise c info := by
  rcases execEncode_cases s with ⟨-, e⟩ | ⟨-, -, e⟩ | ⟨-, -, ⟨c, i, hc, -, e⟩ | ⟨-, -, e⟩⟩ <;> cases e.symm.trans h
  · exact ⟨.noTable, by decide, 0, _, rfl⟩
  · exact ⟨.len, by decide, 0, _, rfl⟩
  · exact ⟨c, by rcases hc with rfl | rfl <;> decide, _, _, rfl⟩
  · exact absurd (herr.symm.trans ht) Bool.false_ne_true

/-- R221, R223: PACK's causes. -/
theorem execPack_fault (h : execPack s = .next t) :
    ∃ c ∈ [Cause.len, .overflow], ∃ info, t = s.dropBytes.raise c info := by
  rcases Nat.lt_or_ge s.params.bitCap s.bitLen.toNat with hlong | hlen
  · cases (execPack_of_long hlong).symm.trans h
    exact ⟨.len, by decide, _, rfl⟩
  · rcases Nat.lt_or_ge s.params.byteCap (byteCount s.bitLen.toNat) with hfull | hroom
    · cases (execPack_of_full hlen hfull).symm.trans h
      exact ⟨.overflow, by decide, _, rfl⟩
    · cases (execPack_of_room hlen hroom).symm.trans h
      exact absurd (herr.symm.trans ht) Bool.false_ne_true

/-- R221, R223: UNPACK's causes. -/
theorem execUnpack_fault (h : execUnpack s = .next t) :
    ∃ c ∈ [Cause.len, .overflow], ∃ info, t = s.dropBits.raise c info := by
  rcases Nat.lt_or_ge s.params.byteCap s.byteLen.toNat with hlong | hlen
  · cases (execUnpack_of_long hlong).symm.trans h
    exact ⟨.len, by decide, _, rfl⟩
  · rcases Nat.lt_or_ge s.params.bitCap (8 * s.byteLen.toNat) with hfull | hroom
    · cases (execUnpack_of_full hlen hfull).symm.trans h
      exact ⟨.overflow, by decide, _, rfl⟩
    · cases (execUnpack_of_room hlen hroom).symm.trans h
      exact absurd (herr.symm.trans ht) Bool.false_ne_true

/-- R221, R223: DECODE's causes. -/
theorem execDecode_fault (h : execDecode s = .next t) :
    ∃ c ∈ [Cause.noTree, .len, .overflow, .corrupt], ∃ n info, t = (s.dropSyms.useDraws n).raise c info := by
  simp only [execDecode] at h
  split at h
  · split at h
    · split at h
      · cases h
      · split at h
        · split at h <;> cases h
          · exact absurd (herr.symm.trans ht) Bool.false_ne_true
          · exact ⟨.overflow, by decide, _, _, rfl⟩
        · cases h
          exact ⟨.corrupt, by decide, _, _, rfl⟩
    · cases h
      exact ⟨.len, by decide, 0, _, rfl⟩
  · cases h
    exact ⟨.noTree, by decide, 0, _, rfl⟩

end

/-- A cause of a list has one of the list's codes (R221). -/
theorem Cause.code_toNat_mem {c : Cause} {l : List Cause} (h : c ∈ l) : c.code.toNat ∈ l.map fun c => c.code.toNat :=
  List.mem_map_of_mem h

/-- Settles O19: command by command, the end with `ERR = 1` is the fault entry; an illegal word's is O5's. -/
theorem faultingCommandLeaves : Obligations.FaultingCommandLeaves := by
  refine ⟨fun i s t herr h ht => ?_, illegalWordsFault.2⟩
  cases i
  case nop | freqClear | treeRelease =>
    cases h
    exact absurd (herr.symm.trans ht) Bool.false_ne_true
  case reset =>
    cases h
    cases ht
  case freqCount | pqInit | pqAdd | build =>
    simp only [exec, execFreqCount, execPqInit, execPqAdd, execBuild] at h
    split_ifs at h <;> cases h
    · exact absurd (herr.symm.trans ht) Bool.false_ne_true
    · rfl
  case pqRemoveMin =>
    simp only [exec, execPqRemoveMin] at h
    split at h <;> cases h
    · rfl
    · exact absurd (herr.symm.trans ht) Bool.false_ne_true
  case derive => exact execDerive_fault herr ht h
  case encode =>
    obtain ⟨c, hc, n, info, rfl⟩ := execEncode_fault herr ht h
    exact ⟨Cause.code_toNat_mem hc, rfl⟩
  case pack =>
    obtain ⟨c, hc, info, rfl⟩ := execPack_fault herr ht h
    exact ⟨Cause.code_toNat_mem hc, rfl⟩
  case unpack =>
    obtain ⟨c, hc, info, rfl⟩ := execUnpack_fault herr ht h
    exact ⟨Cause.code_toNat_mem hc, rfl⟩
  case decode =>
    obtain ⟨c, hc, n, info, rfl⟩ := execDecode_fault herr ht h
    exact ⟨Cause.code_toNat_mem hc, rfl⟩

end Sys2Proof.Machine
end

section
/-! SUPPORT. The model's own interface to the pipeline (log 15, log 17): a placed table word is the host's next event. -/

namespace Sys2Proof.Machine

/-- The table's reading of a word is the decoder's, on its low bits (log 15). -/
theorem decodeTableWord_eq_some {nbits w : Nat} {i : Instr} (h : decodeTableWord nbits w = some i) :
    decode (BitVec.ofNat 32 (w % 2 ^ nbits)) = .ok i := by
  simp only [decodeTableWord] at h
  split at h
  · cases h
    assumption
  · cases h

/-- A placed word is offered, before the events that were still to come (R23, log 17). -/
theorem State.withFetchWord_offers (s : State) (nbits w : Nat) :
    (s.withFetchWord nbits w).offers (BitVec.ofNat 32 (w % 2 ^ nbits)) s.script :=
  ⟨rfl, by rw [BitVec.toNat_ofNat]; rfl⟩

/-- Settles O7: the placed word is offered and decodes, so O6 applies; `SEQ` and the script are as in `s` once it has been
taken. -/
theorem placedWordRunsNext : Obligations.PlacedWordRunsNext := by
  intro s nbits w i herr hd
  exact stepRunsTheOfferedCommand _ _ _ i (s.withFetchWord_offers nbits w) (.inl herr) (decodeTableWord_eq_some hd)

end Sys2Proof.Machine
end
